-- ==== Sys2Proof/Word.lean ====
section
/-!
DEFINITION. The words of the framing core: the byte (00_scope R8), the 5-bit operation key and its
3-bit operation field (30_encoding R70). A status is a signed integer (R12): the hardware's width is 16
bits and no status wraps, so the model writes it as an `Int` (93 I19); `Safety` states the range.
-/

namespace Sys2Proof

/-- An unsigned 8-bit value, bits 7 down to 0 (R8). -/
abbrev Byte := BitVec 8

/-- The operation key `K[4:0]` (R70). -/
abbrev Key := BitVec 5

/-- The operation field `OP = K[2:0]` that the caller supplies (R70). -/
abbrev Op := BitVec 3

end Sys2Proof
end

