-- ==== Sys2Proof/Machine/Flags.lean ====
section
/-!
DEFINITION. The framing core has no condition flags (10_state R28); what it computes about data
beside its results is the two checksums, both unsigned 8-bit with wrap-around (00_scope R10).
-/

namespace Sys2Proof.Machine

/-- The sum of a byte sequence modulo 256 (R10). -/
def sumBytes : List Byte → Byte
  | [] => 0x00#8
  | b :: bs => b + sumBytes bs

/-- The running sum of the binary reader after one more byte (R120, R127). -/
def addSum (sum b : Byte) : Byte := sum + b

/-- `AsciiChk(m) = (256 - (Σ m[i] mod 256)) mod 256` (R160). -/
def asciiChk (m : List Byte) : Byte := BitVec.ofNat 8 ((256 - (sumBytes m).toNat) % 256)

/-- DECODE's sum check: (S + K) mod 256 = 0 (R192). -/
def sumCheck (summed : List Byte) (k : Byte) : Bool := sumBytes summed + k == 0x00#8

end Sys2Proof.Machine
end

