-- ==== Sys2Proof/Config.lean ====
section
/-!
DEFINITION. What is fixed when the block is built (00_scope R6, 93 I1..I4, I15..I18): the type of
the parameters and what they must satisfy; and the free values, which the spec leaves unspecified
(93 I6, I8). The parameters' default values stand in Machine/Params.lean.
-/

namespace Sys2Proof

/-- The twelve DECODE error codes, one field per row of the table of R193. -/
structure DecodeCodes where
  /-- byte 2 is not SP (R183) -/
  sepTag : Int
  /-- byte 3 is not a digit (R184) -/
  subcode : Int
  /-- byte 4 is not SP (R185) -/
  sepSub : Int
  /-- the first length byte is not a digit (R187) -/
  lenDigit : Int
  /-- the byte after the length digits is not SP (R188) -/
  sepLen : Int
  /-- L > DMAX (R189) -/
  lenRange : Int
  /-- a payload hex digit is invalid (R190) -/
  hex : Int
  /-- the byte after a hex pair is not SP (R190) -/
  sepHex : Int
  /-- the byte after the literal run is not SP (R191) -/
  sepLit : Int
  /-- a checksum digit is invalid (R192) -/
  chkHex : Int
  /-- the sum check fails (R192) -/
  checksum : Int
  /-- a read at or past srcLen (R181) -/
  truncated : Int
  deriving DecidableEq, Repr

/-- The codes in the order of R193's table. -/
def DecodeCodes.toList (c : DecodeCodes) : List Int :=
  [c.sepTag, c.subcode, c.sepSub, c.lenDigit, c.sepLen, c.lenRange,
   c.hex, c.sepHex, c.sepLit, c.chkHex, c.checksum, c.truncated]

/-- The parameters of R6 that are fixed when the block is built. They are plain data in `State`,
so that a statement about every state is a statement about every block; no step changes them. -/
structure Build where
  /-- header byte 0 of a binary frame -/
  hdr0 : Byte
  /-- header byte 1 of a binary frame -/
  hdr1 : Byte
  /-- whether DECODE accepts lowercase hex digits -/
  hexLowerOk : Bool
  /-- width of a channel's ID in bits -/
  idWidth : Nat
  /-- the baud rate construction passes to the transport's `begin` -/
  baud : Nat
  /-- `BIN_ERR_HDR0` (R122) -/
  binErrHdr0 : Int
  /-- `BIN_ERR_HDR1` (R123) -/
  binErrHdr1 : Int
  /-- `BIN_ERR_COUNT` (R124) -/
  binErrCount : Int
  /-- `DEC_ERR_SEP_TAG` .. `DEC_ERR_TRUNCATED` (R193) -/
  decErr : DecodeCodes
  deriving DecidableEq, Repr

/-- A value that a header or count code may take: negative, within the status range (R12), and none
of the checksum codes -(4 + count) (93 I1..I3). DESIGN CHOICE (log entry 12), safe: 92 D7 asks that a
replacement stay in -1..-3, 93 I1..I3 and R6 do not; this is I1..I3's wider set, which holds D7's. -/
abbrev BinCode (x : Int) : Prop := -32767 ≤ x ∧ x < 0 ∧ ¬ (-259 ≤ x ∧ x ≤ -4)

/-- What the spec asks of the parameters: the three POLL.BIN codes distinct and proper (93 I1..I3, not
D7's narrower -1..-3: log entry 12), the twelve DECODE codes distinct and negative (93 I4), all within
the status range (R12). -/
abbrev Build.Ok (b : Build) : Prop :=
  BinCode b.binErrHdr0 ∧ BinCode b.binErrHdr1 ∧ BinCode b.binErrCount ∧
  b.binErrHdr0 ≠ b.binErrHdr1 ∧ b.binErrHdr0 ≠ b.binErrCount ∧ b.binErrHdr1 ≠ b.binErrCount ∧
  (∀ x ∈ b.decErr.toList, -32767 ≤ x ∧ x < 0) ∧ b.decErr.toList.Nodup

/-- FREE VALUE (93 I6, R241; log entry 2): the byte that index `index` of the buffer of channel
number `chan` holds at construction, drawn once. It has no body, so nothing can be proved of it. -/
opaque Config.bufByte (chan index : Nat) : Byte

/-- FREE VALUE (93 I8, R54; log entry 3): byte `index` of the caller's `dTag` number `name` under draw
number `draw`. -/
opaque Config.destTag (name draw index : Nat) : Byte

/-- FREE VALUE (93 I8, R54; log entry 3): the caller's `dSub` number `name` under draw number `draw`, a
value 0..9 (R50). -/
opaque Config.destSub (name draw : Nat) : Fin 10

/-- FREE VALUE (93 I8, R54; log entry 3): byte `index` of the caller's `dPay` number `name` under draw
number `draw`. -/
opaque Config.destPay (name draw index : Nat) : Byte

end Sys2Proof
end

