-- ==== Sys2Proof/Machine/Memory.lean ====
section
/-!
DEFINITION. Sparse data by number, as plain data: the entries made so far, with strictly rising
numbers. Byte memory is the table of bytes: the bytes written so far. A number that is not listed has
not been written; what it reads as is its owner's (10_state R34, 70_reset_and_hazards R241; log
entry 1).
-/

namespace Sys2Proof.Machine

/-- The entries made, lowest number first. -/
abbrev Table (α : Type) := List (Nat × α)

/-- The canonical form: numbers strictly rising. -/
abbrev Table.wf {α : Type} (m : Table α) : Prop := m.Pairwise (fun p q => p.1 < q.1)

/-- The entry last made at number `a`, or none where none was made. -/
def Table.find {α : Type} : Table α → Nat → Option α
  | [], _ => none
  | (x, y) :: m, a => if a = x then some y else Table.find m a

/-- Make `b` the entry at number `a`, keeping the canonical form. -/
def Table.write {α : Type} : Table α → Nat → α → Table α
  | [], a, b => [(a, b)]
  | (x, y) :: m, a, b =>
    if a < x then (a, b) :: (x, y) :: m
    else if a = x then (a, b) :: m
    else (x, y) :: Table.write m a b

/-- Byte memory: a list of `Host.Cell`, the bytes written by index. -/
abbrev Memory := Table Byte

/-- The canonical form of byte memory. -/
abbrev Memory.wf (m : Memory) : Prop := Table.wf m

/-- Every listed index lies below `n`. -/
abbrev Memory.below (m : Memory) (n : Nat) : Prop := ∀ p ∈ m, p.1 < n

/-- Write the bytes of `bs` at indices `a`, `a + 1`, … -/
def Memory.writeAll : Memory → Nat → List Byte → Memory
  | m, _, [] => m
  | m, a, b :: bs => Memory.writeAll (m.write a b) (a + 1) bs

end Sys2Proof.Machine
end

