-- ==== Sys2Proof/Machine/Operands.lean ====
section
/-!
DEFINITION. The character codes (00_scope R11) and the forms in which the ASCII message writes and
reads its fields: hex digits and pairs (30_encoding R83, 43_ascii_encode R161), decimal numbers
(R84, R162), digits (R85); and the terminator set of a line channel (10_state R22).
-/

namespace Sys2Proof.Machine

/-- NUL (R11). -/
def chNUL : Byte := 0x00#8
/-- Line feed (R11). -/
def chLF : Byte := 0x0A#8
/-- Carriage return (R11). -/
def chCR : Byte := 0x0D#8
/-- Space (R11). -/
def chSP : Byte := 0x20#8
/-- `'-'` (R11). -/
def chMinus : Byte := 0x2D#8
/-- `'0'` (R11). -/
def ch0 : Byte := 0x30#8

/-- Membership of a byte in a terminator set `T`: bit 0 NUL, bit 1 LF, bit 2 CR (R22, R141). -/
def isTerminator (T : BitVec 3) (b : Byte) : Bool :=
  (T.getLsbD 0 && b == chNUL) || (T.getLsbD 1 && b == chLF) || (T.getLsbD 2 && b == chCR)

/-- The uppercase hex digit of a nibble 0..15: `'0' + v`, or `'A' + v - 10` (R83, R161). -/
def hexDigit (v : Nat) : Byte :=
  if v ≤ 9 then BitVec.ofNat 8 (0x30 + v) else BitVec.ofNat 8 (0x41 + (v - 10))

/-- `hex2(b)`: two uppercase hex digits, high nibble first (R161). -/
def hex2 (b : Byte) : List Byte := [hexDigit (b.toNat / 16), hexDigit (b.toNat % 16)]

/-- The digit of a value 0..9 (R85, R162). -/
def decDigit (v : Nat) : Byte := BitVec.ofNat 8 (0x30 + v)

/-- `dec(n)` for 0 ≤ n ≤ 9999: the shortest decimal rendering, most significant digit first (R162). -/
def dec (n : Nat) : List Byte :=
  if n < 10 then [decDigit n]
  else if n < 100 then [decDigit (n / 10), decDigit (n % 10)]
  else if n < 1000 then [decDigit (n / 100), decDigit (n / 10 % 10), decDigit (n % 10)]
  else [decDigit (n / 1000), decDigit (n / 100 % 10), decDigit (n / 10 % 10), decDigit (n % 10)]

/-- `isdig(x)` of R180. -/
def isDig (x : Byte) : Bool := decide (0x30 ≤ x.toNat ∧ x.toNat ≤ 0x39)

/-- The value of a digit, byte - 0x30 (R85, R184). -/
def digVal (x : Byte) : Nat := x.toNat - 0x30

/-- `ishex(x)` of R180: lowercase only when `HEX_LOWER_OK` (R83). -/
def isHex (lowerOk : Bool) (x : Byte) : Bool :=
  isDig x || decide (0x41 ≤ x.toNat ∧ x.toNat ≤ 0x46) ||
    (lowerOk && decide (0x61 ≤ x.toNat ∧ x.toNat ≤ 0x66))

/-- `nib(x)` of R180. -/
def nib (x : Byte) : Nat :=
  if isDig x then x.toNat - 0x30
  else if 0x41 ≤ x.toNat ∧ x.toNat ≤ 0x46 then x.toNat - 0x37
  else x.toNat - 0x57

/-- The byte a hex pair spells: 16 × high + low (R80, R190). -/
def hexPair (h l : Byte) : Byte := BitVec.ofNat 8 (16 * nib h + nib l)

end Sys2Proof.Machine
end

