-- ==== Sys2Proof/Machine/Params.lean ====
section
/-!
DEFINITION. The default values of the parameters (00_scope R6; 93 I1..I4, I15, I18), and the values
the model names for the two parameters the spec leaves OPEN (log entry 6).
-/

namespace Sys2Proof.Machine

/-- R193: -1 to -12, numbered in scan order. -/
def defaultDecodeCodes : DecodeCodes :=
  { sepTag := -1, subcode := -2, sepSub := -3, lenDigit := -4, sepLen := -5, lenRange := -6,
    hex := -7, sepHex := -8, sepLit := -9, chkHex := -10, checksum := -11, truncated := -12 }

/-- R6's defaults. ID_WIDTH = 16 and BAUD = 9600 are DESIGN CHOICE (OPEN in R6, log entry 6). -/
def defaultBuild : Build :=
  { hdr0 := 0xFF#8, hdr1 := 0x00#8, hexLowerOk := false, idWidth := 16, baud := 9600,
    binErrHdr0 := -1, binErrHdr1 := -2, binErrCount := -3, decErr := defaultDecodeCodes }

/-- CFG4's default, and §4.3's set: NUL, LF and CR all terminate (R22). -/
def defaultT : BitVec 3 := 0b111#3

end Sys2Proof.Machine
end

