-- ==== Sys2Proof/Syntax.lean ====
section
/-!
DEFINITION. The operations as syntax: the operands of 30_encoding R71 and 60_exceptions R227, the
request the caller issues (R70: an operation field and a target, with the operands), and `Instr`, one
constructor per row of spec/opcode_table.json.
-/

namespace Sys2Proof

/-- `KIND` of a channel (CFG0): which frame reader it has (R100). -/
inductive Kind where
  | line
  | bin
  deriving DecidableEq, Repr

/-- DECODE's source (R53, R88): a byte sequence the caller hands over, or the buffer of a channel. -/
inductive Source where
  | bytes (bs : List Byte)
  | buffer (ch : Nat)
  deriving DecidableEq, Repr

/-- What an operation is addressed to (R70): channel number `ch`, or the codec unit. -/
inductive Target where
  | channel (ch : Nat)
  | codec
  deriving DecidableEq, Repr

/-- The two bytes of a device tag (R86). -/
structure Tag where
  t0 : Byte
  t1 : Byte
  deriving DecidableEq, Repr

/-- Which `dTag`, which `dSub` and which `dPay` a DECODE is handed (R227), each by the number its owner,
the caller, knows it by (log entry 3). -/
structure DestNames where
  tag : Nat
  sub : Nat
  pay : Nat
  deriving DecidableEq, Repr

/-- The destinations a DECODE is handed (R227), with the capacity of its `dPay` in bytes (R6). -/
structure Destinations where
  /-- DMAX -/
  dmax : Int
  /-- the three of them -/
  names : DestNames
  deriving DecidableEq, Repr

/-- Every operand R71 and R227 name. An operation reads the ones it has and ignores the others. The
integers are unbounded: R168 and R199 say which are refused. -/
structure Operands where
  tag : Tag
  sub : Int
  pay : List Byte
  len : Int
  src : Source
  srcLen : Int
  dst : Destinations
  deriving DecidableEq, Repr

/-- One operation as the caller issues it: `OP`, the target, the operands (R70, R71). -/
structure Request where
  op : Op
  target : Target
  args : Operands
  deriving DecidableEq, Repr

/-- The seven operations, one constructor per row of the opcode table, with their operands (R71, R227). -/
inductive Instr where
  /-- POLL.LINE (R140) -/
  | pollLine (ch : Nat)
  /-- POLL.BIN (R120) -/
  | pollBin (ch : Nat)
  /-- RESET (R104) -/
  | reset (ch : Nat)
  /-- DATA (R106) -/
  | data (ch : Nat)
  /-- ENCODE.LIT (R164) -/
  | encodeLit (ch : Nat) (tag : Tag) (sub : Int) (pay : List Byte) (len : Int)
  /-- ENCODE.HEX (R163) -/
  | encodeHex (ch : Nat) (tag : Tag) (sub : Int) (pay : List Byte) (len : Int)
  /-- DECODE (R180), into the destinations it is handed (R227); DMAX is `dst.dmax` -/
  | decode (src : Source) (srcLen : Int) (dst : Destinations)
  deriving DecidableEq, Repr

end Sys2Proof
end

