-- ==== Sys2Proof/Machine/State.lean ====
section
/-!
DEFINITION. The state of the framing core (10_state R20, R25; 20_memory R50; 60_exceptions R227) as
plain data, and the state right after power-on (70_reset_and_hazards R240, R244).
-/

namespace Sys2Proof.Machine

/-- A channel unit: exactly the fields of R20. -/
structure Channel where
  /-- CFG0 -/
  kind : Kind
  /-- CFG1, capacity in bytes, 1..32767 -/
  C : Nat
  /-- CFG2, ID_WIDTH bits -/
  id : Nat
  /-- CFG3: true = hex mode, false = literal mode -/
  hexmode : Bool
  /-- CFG4: bit 0 NUL, bit 1 LF, bit 2 CR (R22) -/
  T : BitVec 3
  /-- ST0 -/
  cursor : Nat
  /-- ST1 -/
  count : Byte
  /-- ST2 -/
  sum : Byte
  /-- BUF: the bytes written since construction; the others hold the construction draw (R241) -/
  buf : Memory
  deriving DecidableEq, Repr

/-- The transport of one channel, outside the block (R221, R52). -/
structure Transport where
  /-- what `InByte` will return, call after call: a byte, or "no byte yet"; past the end, no byte
  (92 D6; log entry 4) -/
  arrivals : List (Option Byte)
  /-- the baud rates of the `begin` calls made so far (R243) -/
  begins : List Nat
  deriving DecidableEq, Repr

/-- A constructed channel: the unit and its transport (R221: "one instance per channel"). -/
structure Slot where
  unit : Channel
  transport : Transport
  deriving DecidableEq, Repr

/-- One destination of DECODE, a `dTag`, a `dSub` or a `dPay` of the caller's (R50, R54): the bytes
DECODE wrote to it since its contents were last unspecified; every other byte is the free value of
draw number `draw` (log entry 3). -/
structure Dest where
  /-- the model's own field: the number of the current draw -/
  draw : Nat
  /-- the bytes DECODE wrote, by index -/
  bytes : Memory
  deriving DecidableEq, Repr

/-- A destination DECODE has not been handed yet: it holds what the caller left there (93 I9), which is
draw number 0. DESIGN CHOICE (log entry 3). -/
def Dest.blank : Dest := { draw := 0, bytes := [] }

/-- Destinations of one kind, by the number the caller names them by; one that is not listed is
blank. -/
abbrev DestTable := Table Dest

/-- The canonical form: numbers strictly rising, no entry equal to what an unlisted number stands for,
each destination's bytes in canonical form. -/
abbrev DestTable.wf (t : DestTable) : Prop :=
  Table.wf t ∧ ∀ p ∈ t, p.2 ≠ Dest.blank ∧ Memory.wf p.2.bytes

/-- DECODE's destinations (R50, R54): the caller's memory as far as a DECODE was handed it (R227). -/
structure Dests where
  /-- every `dTag`: indices 0 and 1 -/
  tags : DestTable
  /-- every `dSub`: one value, at index 0 -/
  subs : DestTable
  /-- every `dPay` -/
  pays : DestTable
  deriving DecidableEq, Repr

/-- What a successful DECODE delivers (R195). -/
structure Decoded where
  tag : Tag
  sub : Byte
  pay : List Byte
  deriving DecidableEq, Repr

/-- The result of one operation (R71). -/
inductive Result where
  /-- POLL: a status (R102) -/
  | status (s : Int)
  /-- RESET: none -/
  | nothing
  /-- DATA: the sequence `buf[0..C)` (R106) -/
  | bytes (bs : List Byte)
  /-- ENCODE: the message (R163, R164) -/
  | message (out : List Byte)
  /-- DECODE: a status, and on success what was written to the destinations (R180) -/
  | decode (s : Int) (d : Option Decoded)
  deriving DecidableEq, Repr

/-- The inputs of a construction (R240); `T` is taken on a LINE channel, default 0b111 (R20). -/
structure ChannelInput where
  kind : Kind
  C : Nat
  id : Nat
  hexmode : Bool
  T : Option (BitVec 3)
  /-- what the transport handed over holds already (R241) -/
  arrivals : List (Option Byte)
  deriving DecidableEq, Repr

/-- What the host can do to the core (R227, one constructor per kind of row). -/
inductive Interaction where
  /-- construct the next channel (R240) -/
  | construct (c : ChannelInput)
  /-- append arrivals to the transport of channel `ch` -/
  | supply (ch : Nat) (arrivals : List (Option Byte))
  /-- issue one operation -/
  | issue (r : Request)
  deriving DecidableEq, Repr

/-- The whole state. -/
structure State where
  /-- the parameters fixed when the block is built (R6) -/
  build : Build
  /-- the channels constructed so far; channel number n is at position n -/
  channels : List Slot
  /-- the destinations DECODE was handed -/
  dests : Dests
  /-- the host's interactions not yet performed, next one first (log entry 5) -/
  pending : List Interaction
  /-- the results returned so far, oldest first (R254; log entry 9) -/
  results : List Result
  deriving DecidableEq, Repr

/-- Why the machine stops with a fault. The hardware has none (R210; 93: "No behaviour of the core
is `fault` or `stuck`"). -/
inductive Fault where
  /-- Raised by POLL.LINE and POLL.BIN for a write at an index ≥ C, which "no rule" makes (R30):
  only in states that break the bounds of R31, which no run reaches. SAFE (log entry 10). -/
  | bufferIndex
  deriving DecidableEq, Repr

/-- Why an operation has no meaning (R214). "A refusal changes no state." -/
inductive Refusal where
  /-- Raised by `exec` for an instruction without a meaning yet: none in this model. SAFE. -/
  | notModelled (mnemonic : String)
  /-- Raised by `step`: OP is 101, 110 or 111 (R87, R214). SAFE. -/
  | reservedOp
  /-- Raised by `step`: a channel operation addressed to the codec unit (R70; log entry 11). SAFE. -/
  | targetIsCodec
  /-- Raised by every operation, DECODE of a buffer and `supply` on a channel never constructed
  (92 D42, 93 I13). SAFE. -/
  | unconstructedChannel
  /-- Raised by POLL and ENCODE when the instruction's KIND or HEXMODE is not its channel's: no key
  of R70 spells that pair, so `step` never raises it (log entry 11). SAFE. -/
  | keyMismatch
  /-- Raised by ENCODE: `sub` outside 0..9 (R163, R164, R168). SAFE. -/
  | encodeSubcodeRange
  /-- Raised by ENCODE: `L` out of range (R163, R164, R168). SAFE. -/
  | encodeLengthRange
  /-- Raised by ENCODE: `pay` shorter than the bytes sent (R163, R164, R168). SAFE. -/
  | encodePayloadShort
  /-- Raised by DECODE: `srcLen` or `DMAX` out of range (R180, R199). SAFE. -/
  | decodeOperandRange
  /-- Raised by a construction whose `C` or `ID` is outside R6's range (92 D5). SAFE. -/
  | constructionRange
  deriving DecidableEq, Repr

/-- The state right after power-on: no channel is constructed yet (R240, R244; 92 D42), the
parameters have R6's defaults, nothing was decoded, issued or returned, so every destination is what
the caller left there (`Dest.blank`, log entry 3). -/
def State.reset : State :=
  { build := defaultBuild, channels := [],
    dests := { tags := [], subs := [], pays := [] },
    pending := [], results := [] }

end Sys2Proof.Machine
end

