-- ==== Sys2Proof/Machine/Ops.lean ====
section
/-!
DEFINITION. The named operations over the state that the meanings share: the buffer (10_state R30,
R34), ResetReader (40_frame_reader_contract R104), InByte (20_memory R52), MemWrite (R54), results
(70 R254), and the one way to reach a channel (92 D42).

There is no exception to take and none to return from (60_exceptions R210, R217, R218): the error
path of an operation is `resetReader` and a negative status, inside the operation.
-/

namespace Sys2Proof.Machine

/-- What a step answers. -/
abbrev Answer := Host.Outcome State Fault Refusal

/-! The channel unit. -/

/-- `ResetReader`: cursor, count and sum become 0, the buffer stays (R104, R242). -/
def Channel.resetReader (c : Channel) : Channel :=
  { c with cursor := 0, count := 0x00#8, sum := 0x00#8 }

/-- `buf[i] <- b`, bounds-checked: an index ≥ C does not exist and nothing is stored (R30, R59). -/
def Channel.put (c : Channel) (i : Nat) (b : Byte) : Channel :=
  if i < c.C then { c with buf := c.buf.write i b } else c

/-- `buf[i]` of channel number `n`: the byte last written there, else the construction draw (R241). -/
def Channel.byteAt (n : Nat) (c : Channel) (i : Nat) : Byte :=
  (c.buf.find i).getD (Config.bufByte n i)

/-- `buf[0..C)` (R106). -/
def Channel.bytes (n : Nat) (c : Channel) : List Byte := (List.range c.C).map (c.byteAt n)

/-! The transport. -/

/-- `InByte`: the next arrival, consumed; none when there is none (R52, R101, 92 D6). -/
def Transport.inByte (t : Transport) : Option Byte × Transport :=
  match t.arrivals with
  | [] => (none, t)
  | e :: rest => (e, { t with arrivals := rest })

/-! The destinations. -/

/-- Destination number `n` of a table. -/
def DestTable.get (t : DestTable) (n : Nat) : Dest := (Table.find t n).getD Dest.blank

/-- `MemWrite` of the bytes `bs` from index 0 on into destination `n` (R54); no byte written, nothing
changes. -/
def DestTable.deliver (t : DestTable) (n : Nat) (bs : List Byte) : DestTable :=
  if bs = [] then t
  else Table.write t n { t.get n with bytes := (t.get n).bytes.writeAll 0 bs }

/-- Destination `n` holds unspecified values from now on (R54): a fresh draw. -/
def DestTable.forget (t : DestTable) (n : Nat) : DestTable :=
  Table.write t n { draw := (t.get n).draw + 1, bytes := [] }

/-- `dTag[i]` of `dTag` number `n`. -/
def Dests.tagAt (d : Dests) (n i : Nat) : Byte :=
  ((d.tags.get n).bytes.find i).getD (Config.destTag n (d.tags.get n).draw i)

/-- `dSub` number `n`. -/
def Dests.subVal (d : Dests) (n : Nat) : Byte :=
  ((d.subs.get n).bytes.find 0).getD
    (BitVec.ofNat 8 (Config.destSub n (d.subs.get n).draw).val)

/-- `dPay[i]` of `dPay` number `n`. -/
def Dests.payAt (d : Dests) (n i : Nat) : Byte :=
  ((d.pays.get n).bytes.find i).getD (Config.destPay n (d.pays.get n).draw i)

/-- After an error status the destinations handed over hold unspecified values (R54); no other
destination is touched. -/
def Dests.unspecified (d : Dests) (dst : DestNames) : Dests :=
  { tags := d.tags.forget dst.tag, subs := d.subs.forget dst.sub, pays := d.pays.forget dst.pay }

/-- The `MemWrite`s of a successful DECODE into the destinations handed over: dTag[0..2), dSub,
dPay[0..L) and nothing more (R195). -/
def Dests.deliver (d : Dests) (dst : DestNames) (m : Decoded) : Dests :=
  { tags := d.tags.deliver dst.tag [m.tag.t0, m.tag.t1]
    subs := d.subs.deliver dst.sub [m.sub]
    pays := d.pays.deliver dst.pay m.pay }

/-! The state. -/

/-- Replace the slot of channel `n`. -/
def State.setSlot (s : State) (n : Nat) (sl : Slot) : State :=
  { s with channels := s.channels.set n sl }

/-- Replace the destinations. -/
def State.setDests (s : State) (d : Dests) : State := { s with dests := d }

/-- Return a result to the host. -/
def State.report (s : State) (r : Result) : State := { s with results := s.results ++ [r] }

/-- Take the next interaction off the host's list. -/
def State.setPending (s : State) (p : List Interaction) : State := { s with pending := p }

/-- Reach channel number `n`; an operation on a channel never constructed is refused (92 D42). -/
def onChannel (n : Nat) (s : State) (k : Slot → Answer) : Answer :=
  match s.channels[n]? with
  | none => .refused .unconstructedChannel
  | some sl => k sl

end Sys2Proof.Machine
end

