-- ==== Sys2Proof/WellFormed.lean ====
section
/-!
DEFINITION. Which operand values an operation is defined for (43_ascii_encode R168, 44_ascii_decode
R199), as far as the instruction alone says it. For a DECODE whose source is a channel's buffer the
source's length is the channel's capacity, so that bound is checked by the machine.
-/

namespace Sys2Proof

/-- The subcode is one digit (R168). -/
abbrev SubOk (sub : Int) : Prop := 0 ≤ sub ∧ sub ≤ 9

/-- The operands of ENCODE.HEX (R163, R168). -/
abbrev EncodeHexOk (sub : Int) (pay : List Byte) (len : Int) : Prop :=
  SubOk sub ∧ (0 ≤ len ∧ len ≤ 9999) ∧ len ≤ (pay.length : Int)

/-- The operands of ENCODE.LIT (R164, R168): `len` counts a trailing NUL that is not sent. -/
abbrev EncodeLitOk (sub : Int) (pay : List Byte) (len : Int) : Prop :=
  SubOk sub ∧ (1 ≤ len ∧ len ≤ 10000) ∧ len - 1 ≤ (pay.length : Int)

/-- The operands of DECODE on a source of `size` bytes (R199). -/
abbrev DecodeOk (size : Nat) (srcLen dmax : Int) : Prop :=
  (0 ≤ srcLen ∧ srcLen ≤ (size : Int)) ∧ (0 ≤ dmax ∧ dmax ≤ 9999)

/-- Well-formed: the operands are in the ranges the instruction is defined for. -/
def Instr.WellFormed : Instr → Bool
  | .pollLine _ => true
  | .pollBin _ => true
  | .reset _ => true
  | .data _ => true
  | .encodeLit _ _ sub pay len => decide (EncodeLitOk sub pay len)
  | .encodeHex _ _ sub pay len => decide (EncodeHexOk sub pay len)
  | .decode (.bytes bs) srcLen dst => decide (DecodeOk bs.length srcLen dst.dmax)
  | .decode (.buffer _) srcLen dst => decide (0 ≤ srcLen ∧ 0 ≤ dst.dmax ∧ dst.dmax ≤ 9999)

end Sys2Proof
end

