-- ==== Sys2Proof/Machine/AsciiDecode.lean ====
section
/-!
DEFINITION. The ASCII codec's decoder (44_ascii_decode R180..R201): a scanner over the bytes of
`src[0..srcLen)` not read yet. Each scanner answers what it read and the bytes left, or the status
DECODE ends with; checks stand in scan order, so the first failing one is reported (R194).
-/

namespace Sys2Proof.Machine

/-- `rd()`: the next byte, or TRUNCATED at the end of `src[0..srcLen)` (R181). -/
def rd (e : DecodeCodes) : List Byte → Except Int (Byte × List Byte)
  | [] => .error e.truncated
  | b :: rest => .ok (b, rest)

/-- Read one byte that must satisfy `ok`, else status `err`. -/
def rdIf (e : DecodeCodes) (ok : Byte → Bool) (err : Int) (bs : List Byte) :
    Except Int (Byte × List Byte) :=
  match rd e bs with
  | .error st => .error st
  | .ok (b, rest) => if ok b then .ok (b, rest) else .error err

/-- A byte that must be SP (R183, R185, R188, R190, R191). -/
def rdSpace (e : DecodeCodes) (err : Int) (bs : List Byte) : Except Int (Byte × List Byte) :=
  rdIf e (fun b => b == chSP) err bs

/-- Tag, SP, subcode digit, SP (R182..R185): the tag and the subcode's value. -/
def scanHead (e : DecodeCodes) (bs : List Byte) : Except Int ((Tag × Nat) × List Byte) := do
  let (t0, bs) ← rd e bs
  let (t1, bs) ← rd e bs
  let (_, bs) ← rdSpace e e.sepTag bs
  let (d, bs) ← rdIf e isDig e.subcode bs
  let (_, bs) ← rdSpace e e.sepSub bs
  pure ((⟨t0, t1⟩, digVal d), bs)

/-- The optional `-` that marks hex mode (R186), and the first length byte. -/
def scanMode (e : DecodeCodes) (bs : List Byte) : Except Int ((Bool × Byte) × List Byte) := do
  let (c, bs) ← rd e bs
  if c = chMinus then
    let (c', bs) ← rd e bs
    pure ((true, c'), bs)
  else pure ((false, c), bs)

/-- The length loop of R180 with room for `more` further digits: answers the length read and the
first byte after its digits (R187, R188). -/
def scanDigits (e : DecodeCodes) : Nat → Nat → List Byte → Except Int ((Nat × Byte) × List Byte)
  | 0, L, bs => do
    let (c, bs) ← rd e bs
    pure ((L, c), bs)
  | more + 1, L, bs => do
    let (c, bs) ← rd e bs
    if isDig c then scanDigits e more (10 * L + digVal c) bs
    else pure ((L, c), bs)

/-- The length field with its mode marker and the SP after it (R186..R188). -/
def scanLength (e : DecodeCodes) (bs : List Byte) : Except Int ((Bool × Nat) × List Byte) := do
  let ((hex, c), bs) ← scanMode e bs
  if isDig c then
    let ((L, c'), bs) ← scanDigits e 3 (digVal c) bs
    if c' = chSP then pure ((hex, L), bs) else .error e.sepLen
  else .error e.lenDigit

/-- A hex pair, whose digits must be valid, else status `err` (R190, R192). -/
def scanPair (p : Build) (err : Int) (bs : List Byte) : Except Int (Byte × List Byte) := do
  let (h, bs) ← rdIf p.decErr (isHex p.hexLowerOk) err bs
  let (l, bs) ← rdIf p.decErr (isHex p.hexLowerOk) err bs
  pure (hexPair h l, bs)

/-- The hex payload of L bytes: pairs, each followed by a SP (R190). -/
def scanHexPayload (p : Build) : Nat → List Byte → Except Int (List Byte × List Byte)
  | 0, bs => pure ([], bs)
  | L + 1, bs => do
    let (b, bs) ← scanPair p p.decErr.hex bs
    let (_, bs) ← rdSpace p.decErr p.decErr.sepHex bs
    let (pay, bs) ← scanHexPayload p L bs
    pure (b :: pay, bs)

/-- L bytes, verbatim (R191). -/
def scanRaw (e : DecodeCodes) : Nat → List Byte → Except Int (List Byte × List Byte)
  | 0, bs => pure ([], bs)
  | L + 1, bs => do
    let (b, bs) ← rd e bs
    let (pay, bs) ← scanRaw e L bs
    pure (b :: pay, bs)

/-- The payload in the message's mode (R190, R191). -/
def scanPayload (p : Build) (hex : Bool) (L : Nat) (bs : List Byte) :
    Except Int (List Byte × List Byte) :=
  if hex then scanHexPayload p L bs
  else do
    let (pay, bs) ← scanRaw p.decErr L bs
    let (_, bs) ← rdSpace p.decErr p.decErr.sepLit bs
    pure (pay, bs)

/-- The checksum pair against the raw bytes before it, `src[0..k0)` (R192). `all` is `src[0..srcLen)`
and `bs` what is left of it, so k0 = |all| - |bs|. -/
def scanChecksum (p : Build) (all bs : List Byte) : Except Int Unit := do
  let (k, _) ← scanPair p p.decErr.chkHex bs
  if sumCheck (all.take (all.length - bs.length)) k then pure () else .error p.decErr.checksum

/-- DECODE of the bytes `all` = `src[0..srcLen)` into a destination of `dmax` bytes (R180). The length
is checked against DMAX before any payload byte is read (R189). -/
def parseMessage (p : Build) (dmax : Nat) (all : List Byte) : Except Int Decoded := do
  let ((tag, sub), bs) ← scanHead p.decErr all
  let ((hex, L), bs) ← scanLength p.decErr bs
  if dmax < L then .error p.decErr.lenRange
  else
    let (pay, bs) ← scanPayload p hex L bs
    let _ ← scanChecksum p all bs
    pure ⟨tag, BitVec.ofNat 8 sub, pay⟩

/-- The bytes of a source operand (R53); none for the buffer of a channel never constructed. -/
def sourceBytes (src : Source) (s : State) : Option (List Byte) :=
  match src with
  | .bytes bs => some bs
  | .buffer ch => (s.channels[ch]?).map (fun sl => sl.unit.bytes ch)

/-- DECODE (R180) into the destinations `dst` (R227): on success they are written and the status is L
(R195); on an error they are left unspecified (R54) and the status is the code. -/
def execDecode (src : Source) (srcLen : Int) (dst : Destinations) (s : State) : Answer :=
  match sourceBytes src s with
  | none => .refused .unconstructedChannel
  | some bs =>
    if ¬ DecodeOk bs.length srcLen dst.dmax then .refused .decodeOperandRange
    else
      match parseMessage s.build dst.dmax.toNat (bs.take srcLen.toNat) with
      | .error st => .next ((s.setDests (s.dests.unspecified dst.names)).report (.decode st none))
      | .ok m =>
        .next ((s.setDests (s.dests.deliver dst.names m)).report
          (.decode (m.pay.length : Int) (some m)))

end Sys2Proof.Machine
end

