-- ==== Sys2Proof/Machine/AsciiEncode.lean ====
section
/-!
DEFINITION. The ASCII codec's encoder (43_ascii_encode R160..R170).
-/

namespace Sys2Proof.Machine

/-- Tag, SP, subcode digit, SP (R163, R164, R170). -/
def messageHead (tag : Tag) (sub : Nat) : List Byte :=
  [tag.t0, tag.t1, chSP, decDigit sub, chSP]

/-- The payload of hex mode: each byte a hex pair and a SP (R163). -/
def hexPayload : List Byte → List Byte
  | [] => []
  | b :: bs => hex2 b ++ chSP :: hexPayload bs

/-- The message of hex mode before its checksum (R163). -/
def hexBody (tag : Tag) (sub : Nat) (pay : List Byte) : List Byte :=
  messageHead tag sub ++ chMinus :: dec pay.length ++ chSP :: hexPayload pay

/-- The message of literal mode before its checksum (R164), from the bytes it sends. -/
def litBody (tag : Tag) (sub : Nat) (pay : List Byte) : List Byte :=
  messageHead tag sub ++ dec pay.length ++ chSP :: pay ++ [chSP]

/-- Append the checksum of every byte so far (R160), then the NUL (R165). -/
def sealMessage (m : List Byte) : List Byte := m ++ hex2 (asciiChk m) ++ [chNUL]

/-- The output of ENCODE.HEX: the first L bytes of `pay` (R163). -/
def hexMessage (tag : Tag) (sub : Int) (pay : List Byte) (len : Int) : List Byte :=
  sealMessage (hexBody tag sub.toNat (pay.take len.toNat))

/-- The output of ENCODE.LIT: the first L - 1 bytes of `pay` (R164). -/
def litMessage (tag : Tag) (sub : Int) (pay : List Byte) (len : Int) : List Byte :=
  sealMessage (litBody tag sub.toNat (pay.take (len - 1).toNat))

/-- ENCODE.HEX (R163), refused outside R168's ranges in the order of its checks. -/
def execEncodeHex (ch : Nat) (tag : Tag) (sub : Int) (pay : List Byte) (len : Int) (s : State) :
    Answer :=
  onChannel ch s fun sl =>
    if sl.unit.hexmode = false then .refused .keyMismatch
    else if ¬ (0 ≤ sub ∧ sub ≤ 9) then .refused .encodeSubcodeRange
    else if ¬ (0 ≤ len ∧ len ≤ 9999) then .refused .encodeLengthRange
    else if (pay.length : Int) < len then .refused .encodePayloadShort
    else .next (s.report (.message (hexMessage tag sub pay len)))

/-- ENCODE.LIT (R164), refused outside R168's ranges in the order of its checks. -/
def execEncodeLit (ch : Nat) (tag : Tag) (sub : Int) (pay : List Byte) (len : Int) (s : State) :
    Answer :=
  onChannel ch s fun sl =>
    if sl.unit.hexmode = true then .refused .keyMismatch
    else if ¬ (0 ≤ sub ∧ sub ≤ 9) then .refused .encodeSubcodeRange
    else if ¬ (1 ≤ len ∧ len ≤ 10000) then .refused .encodeLengthRange
    else if (pay.length : Int) < len - 1 then .refused .encodePayloadShort
    else .next (s.report (.message (litMessage tag sub pay len)))

end Sys2Proof.Machine
end

