-- ==== Sys2Proof/Machine/FrameReader.lean ====
section
/-!
DEFINITION. The frame reader contract (40_frame_reader_contract): what every POLL does around its
automaton (R100..R105), RESET (R104) and DATA (R106).
-/

namespace Sys2Proof.Machine

/-- An automaton's answer to one byte: the unit after it and the status, or the model's fault. -/
abbrev ReaderAnswer := Except Fault (Channel × Int)

/-- One POLL of channel `n` with slot `sl` and the given automaton: `InByte` once; no byte means
status 0 and no field of the unit changed (R101), else the automaton's step and its status. -/
def pollWith (reader : Channel → Byte → ReaderAnswer) (n : Nat) (sl : Slot) (s : State) : Answer :=
  match sl.transport.inByte with
  | (none, tr) => .next ((s.setSlot n ⟨sl.unit, tr⟩).report (.status 0))
  | (some b, tr) =>
    match reader sl.unit b with
    | .error f => .fault f
    | .ok (u, st) => .next ((s.setSlot n ⟨u, tr⟩).report (.status st))

/-- RESET (R104): discard any partial frame. -/
def execReset (ch : Nat) (s : State) : Answer :=
  onChannel ch s fun sl =>
    .next ((s.setSlot ch ⟨sl.unit.resetReader, sl.transport⟩).report .nothing)

/-- DATA (R106): read the channel's buffer. -/
def execData (ch : Nat) (s : State) : Answer :=
  onChannel ch s fun sl => .next (s.report (.bytes (sl.unit.bytes ch)))

end Sys2Proof.Machine
end

