-- ==== Sys2Proof/Machine/BinaryReader.lean ====
section
/-!
DEFINITION. The binary frame reader (41_binary_frame_reader R120..R134).
-/

namespace Sys2Proof.Machine

/-- AwaitHeader0 (R122). -/
def binHeader0 (p : Build) (c : Channel) (b : Byte) : Channel × Int :=
  if b ≠ p.hdr0 then (c.resetReader, p.binErrHdr0)
  else ({ c.put 0 b with cursor := 1 }, 0)

/-- AwaitHeader1 (R123). On a channel with C = 1 there is no `buf[1]`: nothing is stored and the
reader goes on to the count byte, which it rejects (R7, R59). DESIGN CHOICE (log entry 7). -/
def binHeader1 (p : Build) (c : Channel) (b : Byte) : Channel × Int :=
  if b ≠ p.hdr1 then (c.resetReader, p.binErrHdr1)
  else ({ c.put 1 b with cursor := 2 }, 0)

/-- AwaitLength (R124): the bound C - 5 is a signed integer, checked before the store. -/
def binLength (p : Build) (c : Channel) (b : Byte) : Channel × Int :=
  if (b.toNat : Int) > (c.C : Int) - 5 then (c.resetReader, p.binErrCount)
  else ({ c.put 2 b with count := b, sum := b, cursor := 3 }, 0)

/-- AwaitCommand and AwaitPayload (R125). -/
def binBody (c : Channel) (b : Byte) : Channel × Int :=
  ({ c.put c.cursor b with sum := addSum c.sum b, cursor := c.cursor + 1 }, 0)

/-- AwaitChecksum (R126): stored, then compared with the running sum; either way the reader resets. -/
def binChecksum (c : Channel) (b : Byte) : Channel × Int :=
  ((c.put c.cursor b).resetReader,
    if b = c.sum then 4 + (c.count.toNat : Int) else -(4 + (c.count.toNat : Int)))

/-- The step of R120 on a byte, keyed by the cursor (R121). -/
def binStep (p : Build) (c : Channel) (b : Byte) : ReaderAnswer :=
  if c.cursor = 0 then .ok (binHeader0 p c b)
  else if c.cursor = 1 then .ok (binHeader1 p c b)
  else if c.cursor = 2 then .ok (binLength p c b)
  else if c.C ≤ c.cursor then .error .bufferIndex
  else if c.cursor < 3 + c.count.toNat then .ok (binBody c b)
  else .ok (binChecksum c b)

/-- POLL.BIN (R120). -/
def execPollBin (ch : Nat) (s : State) : Answer :=
  onChannel ch s fun sl =>
    if sl.unit.kind = .bin then pollWith (binStep s.build) ch sl s else .refused .keyMismatch

end Sys2Proof.Machine
end

