-- ==== Sys2Proof/Machine/LineReader.lean ====
section
/-!
DEFINITION. The line frame reader (42_line_frame_reader R140..R149).
-/

namespace Sys2Proof.Machine

/-- The step of R140 on a byte: a terminator completes the line (R142), any other byte is appended
(R143), and filling the buffer is the overflow (R144). -/
def lineStep (c : Channel) (b : Byte) : ReaderAnswer :=
  if c.C ≤ c.cursor then .error .bufferIndex
  else if isTerminator c.T b then
    .ok ((c.put c.cursor chNUL).resetReader, (c.cursor : Int))
  else if c.cursor + 1 = c.C then
    .ok ((c.put c.cursor b).resetReader, -(c.C : Int))
  else
    .ok ({ c.put c.cursor b with cursor := c.cursor + 1 }, 0)

/-- POLL.LINE (R140). -/
def execPollLine (ch : Nat) (s : State) : Answer :=
  onChannel ch s fun sl =>
    if sl.unit.kind = .line then pollWith lineStep ch sl s else .refused .keyMismatch

end Sys2Proof.Machine
end

