-- ==== Sys2Proof/Machine/Dispatch.lean ====
section
/-!
DEFINITION. One arm per operation of spec/opcode_table.json.
-/

namespace Sys2Proof.Machine

def exec (i : Instr) (s : State) : Host.Outcome State Fault Refusal :=
  match i with
  | .pollLine ch => Sys2Proof.Machine.execPollLine ch s
  | .pollBin ch => Sys2Proof.Machine.execPollBin ch s
  | .reset ch => Sys2Proof.Machine.execReset ch s
  | .data ch => Sys2Proof.Machine.execData ch s
  | .encodeLit ch tag sub pay len => Sys2Proof.Machine.execEncodeLit ch tag sub pay len s
  | .encodeHex ch tag sub pay len => Sys2Proof.Machine.execEncodeHex ch tag sub pay len s
  | .decode src srcLen dst => Sys2Proof.Machine.execDecode src srcLen dst s

end Sys2Proof.Machine
end

