-- ==== Sys2Proof/Decode.lean ====
section
/-!
DEFINITION. The operation key (30_encoding R70, R71, R87): the table of masks and matches, the key a
target gives, the decoder (total, rejecting by name), and after it the encoder.
-/

namespace Sys2Proof

/-- The seven rows of the key table, by name. -/
inductive Opcode where
  | pollLine
  | pollBin
  | reset
  | data
  | encodeLit
  | encodeHex
  | decode
  deriving DecidableEq, Repr

/-- One row of R70's key table: a key belongs to it when `key &&& mask = pattern`. -/
structure KeyRow where
  mask : Key
  pattern : Key
  deriving DecidableEq, Repr

/-- R70's key table, as opcode_table.json carries it. -/
def keyRow : Opcode → KeyRow
  | .pollLine => ⟨0b01111#5, 0b00000#5⟩
  | .pollBin => ⟨0b01111#5, 0b01000#5⟩
  | .reset => ⟨0b00111#5, 0b00001#5⟩
  | .data => ⟨0b00111#5, 0b00010#5⟩
  | .encodeLit => ⟨0b10111#5, 0b00011#5⟩
  | .encodeHex => ⟨0b10111#5, 0b10011#5⟩
  | .decode => ⟨0b00111#5, 0b00100#5⟩

/-- The rows in the table's order. -/
def Opcode.all : List Opcode :=
  [.pollLine, .pollBin, .reset, .data, .encodeLit, .encodeHex, .decode]

/-- Key `k` belongs to the row of `o`. -/
def Opcode.fits (o : Opcode) (k : Key) : Bool := k &&& (keyRow o).mask == (keyRow o).pattern

/-- The operation key `K` (R70): `K[4]` = HEXMODE of the target, `K[3]` = KIND of the target,
`K[2:0]` = OP. -/
def operationKey (hexmode : Bool) (kind : Kind) (op : Op) : Key :=
  (BitVec.ofBool hexmode) ++ (BitVec.ofBool (decide (kind = .bin))) ++ op

/-- The key of an operation addressed to the codec unit: `K[4:3]` = 00 (R70). -/
def codecKey (op : Op) : Key := operationKey false .line op

/-- Why a request spells no operation. -/
inductive DecodeError where
  /-- OP is 101, 110 or 111 (R87) -/
  | reservedOp
  /-- an operation of a channel is addressed to the codec unit (R70's target column) -/
  | targetIsCodec
  deriving DecidableEq, Repr

/-- "The decoder selects the rule from K alone" (R70). None for the reserved keys (R87). -/
def selectOpcode (k : Key) : Option Opcode := Opcode.all.find? (fun o => o.fits k)

/-- The instruction an opcode, a channel number and the operands make (R71). -/
def channelInstr (o : Opcode) (ch : Nat) (a : Operands) : Instr :=
  match o with
  | .pollLine => .pollLine ch
  | .pollBin => .pollBin ch
  | .reset => .reset ch
  | .data => .data ch
  | .encodeLit => .encodeLit ch a.tag a.sub a.pay a.len
  | .encodeHex => .encodeHex ch a.tag a.sub a.pay a.len
  | .decode => .decode a.src a.srcLen a.dst

/-- The decoder: from a key, the target and the operands, the instruction or a named rejection.
DECODE has no channel operand (R71, 92 D30), so its target only gives the key's ignored bits. -/
def decodeKey (k : Key) (t : Target) (a : Operands) : Except DecodeError Instr :=
  match selectOpcode k, t with
  | none, _ => .error .reservedOp
  | some o, .channel ch => .ok (channelInstr o ch a)
  | some .decode, .codec => .ok (.decode a.src a.srcLen a.dst)
  | some .pollLine, .codec => .error .targetIsCodec
  | some .pollBin, .codec => .error .targetIsCodec
  | some .reset, .codec => .error .targetIsCodec
  | some .data, .codec => .error .targetIsCodec
  | some .encodeLit, .codec => .error .targetIsCodec
  | some .encodeHex, .codec => .error .targetIsCodec

/-! The encoder, from the same table. -/

/-- The row an instruction stands in. -/
def Instr.opcode : Instr → Opcode
  | .pollLine _ => .pollLine
  | .pollBin _ => .pollBin
  | .reset _ => .reset
  | .data _ => .data
  | .encodeLit _ _ _ _ _ => .encodeLit
  | .encodeHex _ _ _ _ _ => .encodeHex
  | .decode _ _ _ => .decode

/-- The key of an instruction: its row's pattern, with the bits the row does not fix (`x` in R70's
table: bits of the target's configuration) taken from `free`. -/
def encodeKey (i : Instr) (free : Key) : Key :=
  (keyRow i.opcode).pattern ||| (free &&& ~~~(keyRow i.opcode).mask)

/-- The target an instruction is addressed to (R70). -/
def Instr.target : Instr → Target
  | .pollLine ch => .channel ch
  | .pollBin ch => .channel ch
  | .reset ch => .channel ch
  | .data ch => .channel ch
  | .encodeLit ch _ _ _ _ => .channel ch
  | .encodeHex ch _ _ _ _ => .channel ch
  | .decode _ _ _ => .codec

/-- Operands for which every operation of R71 is defined: tag NUL NUL, subcode 0, a payload of one
NUL, L = 1, an empty source, DMAX = 0, destinations 0 (log entry 5). They fill the operands an instruction does not
have, and stand for "operand words of zeros" where a bare key is placed. -/
def blankOperands : Operands :=
  { tag := ⟨0x00#8, 0x00#8⟩, sub := 0, pay := [0x00#8], len := 1,
    src := .bytes [], srcLen := 0, dst := ⟨0, ⟨0, 0, 0⟩⟩ }

/-- The operands of an instruction (R71), the ones it does not have left blank. -/
def Instr.args : Instr → Operands
  | .pollLine _ => blankOperands
  | .pollBin _ => blankOperands
  | .reset _ => blankOperands
  | .data _ => blankOperands
  | .encodeLit _ tag sub pay len => { blankOperands with tag := tag, sub := sub, pay := pay, len := len }
  | .encodeHex _ tag sub pay len => { blankOperands with tag := tag, sub := sub, pay := pay, len := len }
  | .decode src srcLen dst => { blankOperands with src := src, srcLen := srcLen, dst := dst }

/-- The request that issues an instruction: its OP (bits 2..0 of its key), target and operands. -/
def encodeRequest (i : Instr) : Request :=
  { op := (encodeKey i 0#5).setWidth 3, target := i.target, args := i.args }

/-! A bare key, as the host's opcode table numbers it. -/

/-- The target a bare key is placed with: the codec unit for the keys R70 gives it (OP = 100 and
`K[4:3]` = 00), else channel `ch`. -/
def keyTarget (k : Key) (ch : Nat) : Target :=
  if k = codecKey 0b100#3 then .codec else .channel ch

/-- The instruction the decoder reads from the bare key `w`, with blank operands; a number that has
a bit above the key's five, or fewer than five bits, is no key. -/
def decodeTableWord (nbits w : Nat) : Option Instr :=
  if nbits < 5 ∨ 32 ≤ w then none
  else
    match decodeKey (BitVec.ofNat 5 w) (keyTarget (BitVec.ofNat 5 w) 0) blankOperands with
    | .ok i => some i
    | .error _ => none

end Sys2Proof
end

