-- ==== Sys2Proof/Machine/HostActions.lean ====
section
/-!
DEFINITION. What the host does beside issuing operations: construct a channel (70 R240..R243), supply
input (60 R227); how an issued request becomes an instruction (30 R70); and how a bare key is placed
so that it runs next (log entry 5).
-/

namespace Sys2Proof.Machine

/-- The construction inputs are in R6's ranges (92 D5, D4). -/
abbrev ChannelInputOk (p : Build) (c : ChannelInput) : Prop :=
  (1 ≤ c.C ∧ c.C ≤ 32767) ∧ c.id < 2 ^ p.idWidth

/-- CFG4 after construction: the input on a LINE channel, default 0b111 (R20, R240). A BIN channel
takes no T and holds the default, which it never reads (R21). DEDUCED (log entry 8). -/
def inputT (c : ChannelInput) : BitVec 3 :=
  match c.kind with
  | .line => c.T.getD defaultT
  | .bin => defaultT

/-- The channel after construction: the configuration is the inputs, cursor = count = sum = 0, no
byte of the buffer written (R241), and `begin(BAUD)` called once on its transport (R243). -/
def newSlot (p : Build) (c : ChannelInput) : Slot :=
  { unit :=
      { kind := c.kind, C := c.C, id := c.id, hexmode := c.hexmode, T := inputT c,
        cursor := 0, count := 0x00#8, sum := 0x00#8, buf := [] }
    transport := { arrivals := c.arrivals, begins := [p.baud] } }

/-- Construction of the next channel (R240). -/
def constructChannel (c : ChannelInput) (s : State) : Answer :=
  if ChannelInputOk s.build c then
    .next { s with channels := s.channels ++ [newSlot s.build c] }
  else .refused .constructionRange

/-- The transport's sender appends arrivals, in order (R227, R52). -/
def supplyInput (ch : Nat) (arrivals : List (Option Byte)) (s : State) : Answer :=
  onChannel ch s fun sl =>
    .next (s.setSlot ch
      ⟨sl.unit, { sl.transport with arrivals := sl.transport.arrivals ++ arrivals }⟩)

/-- The operation key of a request (R70): the target's HEXMODE and KIND, then OP. -/
def requestKey (r : Request) (s : State) : Except Refusal Key :=
  match r.target with
  | .codec => .ok (codecKey r.op)
  | .channel ch =>
    match s.channels[ch]? with
    | none => .error .unconstructedChannel
    | some sl => .ok (operationKey sl.unit.hexmode sl.unit.kind r.op)

/-- The refusal for a request that spells no operation (R87, R214). -/
def decodeRefusal : DecodeError → Refusal
  | .reservedOp => .reservedOp
  | .targetIsCodec => .targetIsCodec

/-- The instruction an issued request spells (R70). -/
def fetch (r : Request) (s : State) : Except Refusal Instr :=
  match requestKey r s with
  | .error e => .error e
  | .ok k =>
    match decodeKey k r.target r.args with
    | .error e => .error (decodeRefusal e)
    | .ok i => .ok i

/-! Placing a bare key. -/

/-- The HEXMODE bit of a key (R70). -/
def keyHexmode (k : Key) : Bool := k.getLsbD 4

/-- The KIND bit of a key (R70). -/
def keyKind (k : Key) : Kind := if k.getLsbD 3 then .bin else .line

/-- The number of a constructed channel whose HEXMODE and KIND are the key's, if there is one. -/
def matchingChannel (k : Key) (s : State) : Option Nat :=
  s.channels.findIdx? (fun sl => sl.unit.hexmode == keyHexmode k && sl.unit.kind == keyKind k)

/-- The construction inputs of a channel for a bare key: C = 128 (the source's example size), ID 0,
no input waiting (log entry 5). -/
def keyInput (k : Key) : ChannelInput :=
  { kind := keyKind k, C := 128, id := 0, hexmode := keyHexmode k, T := none, arrivals := [] }

/-- The request of a bare key to channel `ch`, with the operands `decodeTableWord` gives it. -/
def keyRequest (k : Key) (ch : Nat) : Request :=
  { op := k.setWidth 3, target := keyTarget k ch, args := blankOperands }

/-- The state with key `k` as the next operation: to the codec unit, or to a channel whose
configuration gives the key its upper bits, constructed if there is none. -/
def placeKey (k : Key) (s : State) : State :=
  if k = codecKey 0b100#3 then { s with pending := .issue (keyRequest k 0) :: s.pending }
  else
    match matchingChannel k s with
    | some ch => { s with pending := .issue (keyRequest k ch) :: s.pending }
    | none =>
      { s with
        channels := s.channels ++ [newSlot s.build (keyInput k)]
        pending := .issue (keyRequest k s.channels.length) :: s.pending }

/-- Place the bare key `w`; a number that is no key (fewer than 5 bits, or a bit above the key's
five) leaves the state as it is. -/
def placeWord (nbits w : Nat) (s : State) : State :=
  if nbits < 5 ∨ 32 ≤ w then s else placeKey (BitVec.ofNat 5 w) s

end Sys2Proof.Machine
end

