-- ==== Sys2Proof/Machine/Step.lean ====
section
/-!
DEFINITION. One step: the host's next interaction (00_scope R13, 20_memory R60, 60_exceptions R227).
-/

namespace Sys2Proof.Machine

/-- The next interaction is taken off the host's list and performed, whole (R57). Where the host has
issued nothing the core does nothing: "the core never halts on its own" (92 D46). -/
def step (s : State) : Host.Outcome State Fault Refusal :=
  match s.pending with
  | [] => .next s
  | .construct c :: rest => constructChannel c (s.setPending rest)
  | .supply ch arrivals :: rest => supplyInput ch arrivals (s.setPending rest)
  | .issue r :: rest =>
    match fetch r s with
    | .error e => .refused e
    | .ok i => exec i (s.setPending rest)

/-- The state in which the very next step runs the operation of the bare key `w` (log entry 5). -/
def State.withFetchWord (s : State) (nbits w : Nat) : State := placeWord nbits w s

end Sys2Proof.Machine
end

