-- ==== Sys2Proof/Safety.lean ====
section
/-!
DEFINITION. What holds of every state a run reaches (10_state R21, R31; 41 R131; 42 R146; 70 R243),
what a safe step is, and running a sequence of operations (60_exceptions R213: none is retried).
-/

namespace Sys2Proof.Machine

/-- The configuration is in R6's ranges. -/
abbrev Channel.ConfigOk (p : Build) (c : Channel) : Prop :=
  (1 ≤ c.C ∧ c.C ≤ 32767) ∧ c.id < 2 ^ p.idWidth

/-- A LINE channel at an operation boundary (R21, R146). -/
abbrev Channel.LineOk (c : Channel) : Prop :=
  c.cursor < c.C ∧ c.count = 0x00#8 ∧ c.sum = 0x00#8

/-- A BIN channel at an operation boundary (R31): in the header phase with count = sum = 0, or at
cursor 3 .. 3 + count with count ≤ C - 5. -/
abbrev Channel.BinOk (c : Channel) : Prop :=
  (c.cursor ≤ 2 ∧ c.count = 0x00#8 ∧ c.sum = 0x00#8) ∨
  (3 ≤ c.cursor ∧ c.cursor ≤ 3 + c.count.toNat ∧ c.count.toNat + 5 ≤ c.C)

/-- The invariant of a channel unit. -/
abbrev Channel.Inv (p : Build) (c : Channel) : Prop :=
  c.ConfigOk p ∧ c.buf.wf ∧ c.buf.below c.C ∧
  (c.kind = .line → c.LineOk) ∧ (c.kind = .bin → c.BinOk)

/-- The invariant of a slot: `begin(BAUD)` was called once, at construction (R243). -/
abbrev Slot.Inv (p : Build) (sl : Slot) : Prop :=
  sl.unit.Inv p ∧ sl.transport.begins = [p.baud]

/-- The destinations keep the canonical form and the sizes of R50; each `dSub` is 0..9. -/
abbrev Dests.Inv (d : Dests) : Prop :=
  (d.tags.wf ∧ ∀ p ∈ d.tags, p.2.bytes.below 2) ∧
  (d.subs.wf ∧ ∀ p ∈ d.subs, p.2.bytes.below 1 ∧ ∀ q ∈ p.2.bytes, q.2.toNat ≤ 9) ∧
  (d.pays.wf ∧ ∀ p ∈ d.pays, p.2.bytes.below 9999)

/-- The invariant of the state. -/
abbrev State.Inv (s : State) : Prop :=
  s.build.Ok ∧ (∀ sl ∈ s.channels, sl.Inv s.build) ∧ s.dests.Inv

/-- A status within R12's range. -/
abbrev StatusOk (st : Int) : Prop := -32767 ≤ st ∧ st ≤ 32767

/-- The statuses a result carries are within R12's range. -/
def Result.InRange : Result → Prop
  | .status st => StatusOk st
  | .nothing => True
  | .bytes _ => True
  | .message _ => True
  | .decode st _ => StatusOk st

/-- The bytes a BIN channel stored of the frame in progress are its header, its count and the bytes
the running sum adds up (R122..R127). -/
abbrev Channel.FrameSoFar (p : Build) (c : Channel) : Prop :=
  (1 ≤ c.cursor → c.buf.find 0 = some p.hdr0) ∧
  (2 ≤ c.cursor → c.buf.find 1 = some p.hdr1) ∧
  (3 ≤ c.cursor → c.buf.find 2 = some c.count ∧
    ∃ body : List Byte, body.length + 3 = c.cursor ∧ c.sum = c.count + sumBytes body ∧
      ∀ k < body.length, c.buf.find (3 + k) = body[k]?)

/-- A step that does not fault. -/
def NoFault (a : Answer) : Prop := ∀ f : Fault, a ≠ .fault f

/-! The terms in which claims speak of one operation's effect. -/

/-- `u` has the configuration fields of `c` (R23). -/
abbrev SameConfig (c u : Channel) : Prop :=
  u.kind = c.kind ∧ u.C = c.C ∧ u.id = c.id ∧ u.hexmode = c.hexmode ∧ u.T = c.T

/-- `u`'s buffer is `c`'s with byte `b` at index `i` and every other index as it was. -/
abbrev StoredAt (c u : Channel) (i : Nat) (b : Byte) : Prop :=
  u.buf.find i = some b ∧ ∀ k, k ≠ i → u.buf.find k = c.buf.find k

/-- The dynamic fields of `u` (R20: ST0, ST1, ST2). -/
abbrev ReaderFields (u : Channel) (cursor : Nat) (count sum : Byte) : Prop :=
  u.cursor = cursor ∧ u.count = count ∧ u.sum = sum

/-- The state after a POLL of channel `ch` (slot `sl`) that left the unit `u` and returned `st`: one
arrival consumed, one result returned, nothing else changed (R57, R101). -/
abbrev afterPoll (s : State) (ch : Nat) (sl : Slot) (u : Channel) (st : Int) : State :=
  { s with
    channels :=
      s.channels.set ch ⟨u, { sl.transport with arrivals := sl.transport.arrivals.tail }⟩
    results := s.results ++ [.status st] }

/-- `sl` is the slot of channel `ch`, of kind `k`, and `InByte` will return `b`. -/
abbrev Receives (s : State) (ch : Nat) (sl : Slot) (k : Kind) (b : Byte) : Prop :=
  s.channels[ch]? = some sl ∧ sl.unit.kind = k ∧ sl.transport.arrivals.head? = some (some b)

/-- `b` is a member of the terminator set `T`, in R22's own words: bit 0 NUL, bit 1 LF, bit 2 CR. -/
abbrev InTerminatorSet (T : BitVec 3) (b : Byte) : Prop :=
  (T.getLsbD 0 = true ∧ b = 0x00#8) ∨ (T.getLsbD 1 = true ∧ b = 0x0A#8) ∨
  (T.getLsbD 2 = true ∧ b = 0x0D#8)

/-- Everything outside channel `ch` and the results is as it was (R24, R65). -/
abbrev SameOutside (ch : Nat) (s t : State) : Prop :=
  t.build = s.build ∧ t.dests = s.dests ∧ t.pending = s.pending ∧
  t.channels.length = s.channels.length ∧
  ∀ n, n ≠ ch → t.channels[n]? = s.channels[n]?

/-- The state after a DECODE that delivered `d` into the destinations `dst` (R195). -/
abbrev decodeSuccess (s : State) (dst : DestNames) (d : Decoded) : State :=
  { s with
    dests := s.dests.deliver dst d
    results := s.results ++ [.decode (d.pay.length : Int) (some d)] }

/-- The state after a DECODE into the destinations `dst` that ended with the negative status `st` (R54,
R193): these three are a fresh draw, so each of their bytes is a free value. -/
abbrev decodeFailure (s : State) (dst : DestNames) (st : Int) : State :=
  { s with
    dests :=
      { tags := s.dests.tags.write dst.tag ⟨(s.dests.tags.get dst.tag).draw + 1, []⟩
        subs := s.dests.subs.write dst.sub ⟨(s.dests.subs.get dst.sub).draw + 1, []⟩
        pays := s.dests.pays.write dst.pay ⟨(s.dests.pays.get dst.pay).draw + 1, []⟩ }
    results := s.results ++ [.decode st none] }

/-- DECODE finds `text` in `src[0..n)` (R53, R181). -/
abbrev SourceText (s : State) (src : Source) (n : Nat) (text : List Byte) : Prop :=
  ∃ bs, sourceBytes src s = some bs ∧ n ≤ bs.length ∧ bs.take n = text

/-! The grammar of the ASCII message (30_encoding R77, R80, R83..R86), said without the scanner. -/

/-- The value of a decimal field, most significant digit first (R84). -/
def numVal (ds : List Byte) : Nat := ds.foldl (fun n d => 10 * n + digVal d) 0

/-- A decimal length field: one to four digits (R84). -/
abbrev LengthField (ds : List Byte) : Prop :=
  (1 ≤ ds.length ∧ ds.length ≤ 4) ∧ ∀ x ∈ ds, isDig x = true

/-- `text` is the hex-mode payload of `pay`: for each byte two hex digits and a SP (R77). -/
def HexText (lowerOk : Bool) : List Byte → List Byte → Prop
  | [], text => text = []
  | b :: bs, h :: l :: sp :: text =>
    isHex lowerOk h = true ∧ isHex lowerOk l = true ∧ sp = chSP ∧ b = hexPair h l ∧
      HexText lowerOk bs text
  | _ :: _, _ => False

/-- `text` is the payload of `pay` in the given mode (R77). -/
abbrev PayloadText (lowerOk hex : Bool) (pay text : List Byte) : Prop :=
  if hex then HexText lowerOk pay text else text = pay ++ [chSP]

/-- Tag, SP, subcode, SP, and in hex mode the `-` (R77). -/
def messageStart (tag : Tag) (sub : Byte) (hex : Bool) : List Byte :=
  [tag.t0, tag.t1, chSP, sub, chSP] ++ if hex then [chMinus] else []

/-- The bytes of a message before its checksum (R77). -/
def messageText (tag : Tag) (sub : Byte) (hex : Bool) (digits text : List Byte) : List Byte :=
  messageStart tag sub hex ++ digits ++ [chSP] ++ text

/-- `m` is a valid message (R77, R80), without the NUL, and says `d`. -/
def ValidMessage (lowerOk : Bool) (m : List Byte) (d : Decoded) : Prop :=
  ∃ (sub : Byte) (hex : Bool) (digits text : List Byte) (kh kl : Byte),
    m = messageText d.tag sub hex digits text ++ [kh, kl] ∧
    isDig sub = true ∧ d.sub = BitVec.ofNat 8 (digVal sub) ∧
    LengthField digits ∧ numVal digits = d.pay.length ∧
    PayloadText lowerOk hex d.pay text ∧
    isHex lowerOk kh = true ∧ isHex lowerOk kl = true ∧
    sumBytes (messageText d.tag sub hex digits text) + hexPair kh kl = 0x00#8

/-! Running a sequence of operations. -/

/-- Run operations one after another, stopping at the first that does not answer a next state (none
is retried, R213). -/
def runOps : List Instr → State → Answer
  | [], s => .next s
  | i :: is, s =>
    match exec i s with
    | .next t => runOps is t
    | .fault f => .fault f
    | .refused r => .refused r

end Sys2Proof.Machine
end

