-- ==== Sys2Proof/Certificates/Slice0/Obligations.lean ====
section
/-!
DEFINITION. The statements for the provers, from the numbered rules of spec/. Each docstring names
the rule it formalises. Claims that rest on a choice of the model's own say so and name its log entry.
-/

open Sys2Proof Sys2Proof.Machine

/-! ## Reset, construction, the host -/

/-- R240, R244, 92 D42: right after power-on no channel is constructed, nothing is issued and nothing
was returned, the parameters are R6's defaults, and the invariant holds. That the power-on state is
the one before the first construction is the model's choice (log entry 5). -/
def Obligations.ResetMeetsInvariant : Prop :=
  State.reset.Inv ∧ State.reset.channels = [] ∧ State.reset.pending = [] ∧
    State.reset.results = [] ∧ State.reset.build = defaultBuild

/-- R240, R241, R243: construction of a channel with inputs in range makes the next channel, its
configuration the inputs, `cursor`, `count` and `sum` 0, every byte of `buf` the construction draw,
and `begin(BAUD)` called once; it changes no other channel and returns nothing. (T of a BIN channel
is left out: log entry 8.) -/
def Obligations.ConstructionLeavesResetValues : Prop :=
  ∀ (s : State) (c : ChannelInput) (rest : List Interaction),
    s.pending = .construct c :: rest →
    1 ≤ c.C → c.C ≤ 32767 → c.id < 2 ^ s.build.idWidth →
    ∃ (t : State) (sl : Slot),
      step s = .next t ∧ t.channels = s.channels ++ [sl] ∧
      sl.unit.kind = c.kind ∧ sl.unit.C = c.C ∧ sl.unit.id = c.id ∧
      sl.unit.hexmode = c.hexmode ∧
      (c.kind = .line → sl.unit.T = c.T.getD 0b111#3) ∧
      ReaderFields sl.unit 0 0x00#8 0x00#8 ∧
      (∀ i, sl.unit.byteAt s.channels.length i = Config.bufByte s.channels.length i) ∧
      sl.transport.begins = [s.build.baud] ∧ sl.transport.arrivals = c.arrivals ∧
      t.build = s.build ∧ t.dests = s.dests ∧ t.pending = rest ∧ t.results = s.results

/-- 00 R6, 92 D5: a construction with a capacity outside 1..32767, or an identity wider than ID_WIDTH,
is refused. -/
def Obligations.ConstructionOutOfRangeIsRefused : Prop :=
  ∀ (s : State) (c : ChannelInput) (rest : List Interaction),
    s.pending = .construct c :: rest →
    (c.C < 1 ∨ 32767 < c.C ∨ 2 ^ s.build.idWidth ≤ c.id) →
    step s = .refused .constructionRange

/-- 92 D42, 93 I13: an operation on a channel that was never constructed is refused, issued by the
host or run as an instruction, DECODE of its buffer too. -/
def Obligations.UnconstructedChannelIsRefused : Prop :=
  ∀ (s : State) (ch : Nat), s.channels.length ≤ ch →
    (∀ (r : Request) (rest : List Interaction), s.pending = .issue r :: rest →
      r.target = .channel ch → step s = .refused .unconstructedChannel) ∧
    (∀ (tag : Tag) (sub len srcLen dmax : Int) (pay : List Byte) (dst : DestNames) (i : Instr),
      i ∈ [.pollLine ch, .pollBin ch, .reset ch, .data ch, .encodeLit ch tag sub pay len,
        .encodeHex ch tag sub pay len, .decode (.buffer ch) srcLen ⟨dmax, dst⟩] →
      exec i s = .refused .unconstructedChannel)

/-- R52, R227: what the sender supplies is appended to the channel's transport in order, behind what
waits there, and nothing else changes. -/
def Obligations.SupplyAppendsInOrder : Prop :=
  ∀ (s : State) (ch : Nat) (more : List (Option Byte)) (rest : List Interaction) (sl : Slot),
    s.pending = .supply ch more :: rest → s.channels[ch]? = some sl →
    ∃ t, step s = .next t ∧
      t.channels[ch]? =
        some ⟨sl.unit, { sl.transport with arrivals := sl.transport.arrivals ++ more }⟩ ∧
      (∀ n, n ≠ ch → t.channels[n]? = s.channels[n]?) ∧
      t.build = s.build ∧ t.dests = s.dests ∧ t.pending = rest ∧ t.results = s.results

/-- R13, R60, R70: when the host's next interaction is an operation and its key, target and operands
decode to an instruction, a step is that instruction's execution with the operation taken off the
host's list; with nothing issued a step changes nothing (the model's choice, log entry 5). -/
def Obligations.StepRunsTheDecodedInstruction : Prop :=
  (∀ (s : State) (r : Request) (rest : List Interaction) (i : Instr) (k : Key),
    s.pending = .issue r :: rest → requestKey r s = .ok k →
    decodeKey k r.target r.args = .ok i → step s = exec i { s with pending := rest }) ∧
  (∀ s : State, s.pending = [] → step s = .next s)

/-! ## The operation key -/

/-- R70: the key's bits are HEXMODE, KIND and OP of the target, 00 and OP for the codec unit; each row
of the table is selected by exactly the keys its mask and match name. That a channel operation
addressed to the codec unit is no operation is the model's inference from R70's target column,
DEDUCED in log entry 11. -/
def Obligations.OperationKeySelectsTheRow : Prop :=
  (∀ (s : State) (r : Request) (k : Key), requestKey r s = .ok k →
    k.setWidth 3 = r.op ∧
    (r.target = .codec → k.getLsbD 4 = false ∧ k.getLsbD 3 = false) ∧
    ∀ (ch : Nat) (sl : Slot), r.target = .channel ch → s.channels[ch]? = some sl →
      k.getLsbD 4 = sl.unit.hexmode ∧ k.getLsbD 3 = decide (sl.unit.kind = .bin)) ∧
  (∀ (k : Key),
    (selectOpcode k = some .pollLine ↔ k &&& 0b01111#5 = 0b00000#5) ∧
    (selectOpcode k = some .pollBin ↔ k &&& 0b01111#5 = 0b01000#5) ∧
    (selectOpcode k = some .reset ↔ k &&& 0b00111#5 = 0b00001#5) ∧
    (selectOpcode k = some .data ↔ k &&& 0b00111#5 = 0b00010#5) ∧
    (selectOpcode k = some .encodeLit ↔ k &&& 0b10111#5 = 0b00011#5) ∧
    (selectOpcode k = some .encodeHex ↔ k &&& 0b10111#5 = 0b10011#5) ∧
    (selectOpcode k = some .decode ↔ k &&& 0b00111#5 = 0b00100#5) ∧
    (selectOpcode k = none ↔ 5 ≤ (k.setWidth 3).toNat)) ∧
  (∀ (k : Key) (a : Operands) (i : Instr), decodeKey k .codec a = .ok i →
    i = .decode a.src a.srcLen a.dst)

/-- R70's table: keys written out bit by bit decode to the instructions they stand for, the reserved
ones to nothing. -/
def Obligations.WrittenOutKeysDecode : Prop :=
  decodeTableWord 8 0b00000 = some (.pollLine 0) ∧
  decodeTableWord 8 0b01000 = some (.pollBin 0) ∧
  decodeTableWord 8 0b11001 = some (.reset 0) ∧
  decodeTableWord 8 0b00010 = some (.data 0) ∧
  decodeTableWord 8 0b01011 = some (.encodeLit 0 ⟨0x00#8, 0x00#8⟩ 0 [0x00#8] 1) ∧
  decodeTableWord 8 0b10011 = some (.encodeHex 0 ⟨0x00#8, 0x00#8⟩ 0 [0x00#8] 1) ∧
  decodeTableWord 8 0b00100 = some (.decode (.bytes []) 0 ⟨0, ⟨0, 0, 0⟩⟩) ∧
  decodeTableWord 8 0b00101 = none ∧ decodeTableWord 8 0b00110 = none ∧
  decodeTableWord 8 0b00111 = none

/-- R70, R71: decoding the key of an instruction, with whatever bits its row leaves free, and its
target and operands, gives the instruction back, every operand at every value. -/
def Obligations.DecodeOfEncodeIsTheInstruction : Prop :=
  ∀ (i : Instr) (free : Key), decodeKey (encodeKey i free) i.target i.args = .ok i

/-- R70: no bit of a key is lost: an instruction decoded from a key has that key, the bits its row
leaves free taken from it. -/
def Obligations.EncodeOfDecodeIsTheKey : Prop :=
  ∀ (k : Key) (t : Target) (a : Operands) (i : Instr),
    decodeKey k t a = .ok i → encodeKey i k = k

/-- R87 (first item), R214: OP 101, 110 and 111 are refused, whatever the target. -/
def Obligations.ReservedOperationsAreRefused : Prop :=
  ∀ (s : State) (r : Request) (rest : List Interaction),
    s.pending = .issue r :: rest → 5 ≤ r.op.toNat →
    (∀ ch, r.target = .channel ch → ch < s.channels.length) →
    step s = .refused .reservedOp

/-- R100: POLL addressed to a channel performs POLL.BIN when its KIND is BIN and POLL.LINE when it is
LINE, and no operation changes the kind. -/
def Obligations.PollIsDispatchedByKind : Prop :=
  (∀ (s : State) (r : Request) (rest : List Interaction) (ch : Nat) (sl : Slot),
    s.pending = .issue r :: rest → r.op = 0b000#3 → r.target = .channel ch →
    s.channels[ch]? = some sl →
    step s =
      exec (match sl.unit.kind with | .line => .pollLine ch | .bin => .pollBin ch)
        { s with pending := rest }) ∧
  (∀ (i : Instr) (s t : State) (ch : Nat) (sl : Slot), exec i s = .next t →
    s.channels[ch]? = some sl →
    ∃ sl', t.channels[ch]? = some sl' ∧ sl'.unit.kind = sl.unit.kind)

/-- R167: ENCODE on a channel performs ENCODE.HEX when its HEXMODE is 1 and ENCODE.LIT when it is 0,
and no operation changes the mode. -/
def Obligations.EncodeModeIsTheChannels : Prop :=
  (∀ (s : State) (r : Request) (rest : List Interaction) (ch : Nat) (sl : Slot),
    s.pending = .issue r :: rest → r.op = 0b011#3 → r.target = .channel ch →
    s.channels[ch]? = some sl →
    step s =
      exec
        (if sl.unit.hexmode then .encodeHex ch r.args.tag r.args.sub r.args.pay r.args.len
         else .encodeLit ch r.args.tag r.args.sub r.args.pay r.args.len)
        { s with pending := rest }) ∧
  (∀ (i : Instr) (s t : State) (ch : Nat) (sl : Slot), exec i s = .next t →
    s.channels[ch]? = some sl →
    ∃ sl', t.channels[ch]? = some sl' ∧ sl'.unit.hexmode = sl.unit.hexmode)

/-! ## What holds of the whole machine -/

/-- R21, R31, R146, R243: every step keeps the invariant: the cursor within its bounds, `count` and
`sum` 0 on a LINE channel and in a BIN channel's header phase, the buffers and destinations in
canonical form and within their sizes, `begin` called once. -/
def Obligations.StepKeepsInvariant : Prop :=
  ∀ s t : State, s.Inv → step s = .next t → t.Inv

/-- R122..R127: every step keeps the bytes a BIN channel has stored of the frame in progress: its two
header bytes, its count, and a body whose sum with the count is the running sum. (C = 1 is left out:
log entry 7.) -/
def Obligations.StepKeepsFrameSoFar : Prop :=
  ∀ s t : State, s.Inv →
    (∀ sl ∈ s.channels, sl.unit.kind = .bin → 2 ≤ sl.unit.C → sl.unit.FrameSoFar s.build) →
    step s = .next t →
    ∀ sl ∈ t.channels, sl.unit.kind = .bin → 2 ≤ sl.unit.C → sl.unit.FrameSoFar t.build

/-- R30, R59, R103, 93 ("No behaviour of the core is `fault` or `stuck`"): from a state that meets
the invariant no step faults. -/
def Obligations.StepNeverFaults : Prop := ∀ s : State, s.Inv → NoFault (step s)

/-- R23: no operation writes a configuration field of any channel, constructs or removes a channel,
or changes a parameter of the block. -/
def Obligations.ConfigurationIsReadOnly : Prop :=
  ∀ (i : Instr) (s t : State), exec i s = .next t →
    t.build = s.build ∧ t.channels.length = s.channels.length ∧
    ∀ (ch : Nat) (sl : Slot), s.channels[ch]? = some sl →
      ∃ sl', t.channels[ch]? = some sl' ∧ SameConfig sl.unit sl'.unit

/-- R24: only POLL and RESET addressed to a channel write its cursor, count, sum or buffer; ENCODE and
DECODE write no channel field. -/
def Obligations.OnlyPollAndResetWriteAChannel : Prop :=
  ∀ (i : Instr) (s t : State) (ch : Nat), exec i s = .next t →
    i ≠ .pollLine ch → i ≠ .pollBin ch → i ≠ .reset ch → t.channels[ch]? = s.channels[ch]?

/-- Derived from 20_memory.md, section 4: the next state of channel ch after an operation addressed to
it depends only on its own fields and on the byte `InByte` returns (and on the block's parameters, R6):
two states that agree on these give the same unit and the same result, whatever else they hold; every
other channel is unchanged. That two DATA results agree on bytes nothing has written is the model's
choice, not a rule of the spec: such a byte is one free value of channel number and index (DEDUCED and
DESIGN CHOICE, notes/assumptions/2.md). -/
def Obligations.ChannelsAreIndependent : Prop :=
  ∀ (s s' t t' : State) (ch : Nat) (sl sl' : Slot) (i : Instr),
    i.target = .channel ch →
    s.channels[ch]? = some sl → s'.channels[ch]? = some sl' →
    sl.unit = sl'.unit → s.build = s'.build →
    sl.transport.arrivals.head?.join = sl'.transport.arrivals.head?.join →
    exec i s = .next t → exec i s' = .next t' →
    (t.channels[ch]?).map Slot.unit = (t'.channels[ch]?).map Slot.unit ∧
    (∃ r, t.results = s.results ++ [r] ∧ t'.results = s'.results ++ [r]) ∧
    ∀ n, n ≠ ch → t.channels[n]? = s.channels[n]?

/-- R25: ENCODE and DECODE are functions of their operands (ENCODE also of the channel's HEXMODE), and
of the block's parameters (R6): in two states that agree on these they return the same result,
whatever was encoded or decoded before, and DECODE whatever destinations it is handed. -/
def Obligations.CodecIsStateless : Prop :=
  (∀ (s s' t t' : State) (ch : Nat) (sl sl' : Slot) (i : Instr) (tag : Tag) (sub : Int)
    (pay : List Byte) (len : Int),
    i ∈ [Instr.encodeHex ch tag sub pay len, .encodeLit ch tag sub pay len] →
    s.channels[ch]? = some sl → s'.channels[ch]? = some sl' →
    sl.unit.hexmode = sl'.unit.hexmode → exec i s = .next t →
    exec i s' = .next t' → ∃ r, t.results = s.results ++ [r] ∧ t'.results = s'.results ++ [r]) ∧
  (∀ (s s' t t' : State) (src : Source) (bs : List Byte) (srcLen dmax : Int)
    (dst dst' : DestNames),
    sourceBytes src s = some bs → sourceBytes src s' = some bs → s.build = s'.build →
    exec (.decode src srcLen ⟨dmax, dst⟩) s = .next t →
    exec (.decode src srcLen ⟨dmax, dst'⟩) s' = .next t' →
    ∃ r, t.results = s.results ++ [r] ∧ t'.results = s'.results ++ [r])

/-- R12: every status a step returns lies in -32767..32767, so as a 16-bit two's-complement value it
does not wrap. -/
def Obligations.StatusesDoNotWrap : Prop :=
  ∀ s t : State, s.Inv → step s = .next t → (∀ r ∈ s.results, r.InRange) →
    (∀ r ∈ t.results, r.InRange) ∧
    ∀ (st : Int) (d : Option Decoded),
      (.status st ∈ t.results ∨ .decode st d ∈ t.results) → (BitVec.ofInt 16 st).toInt = st

/-! ## POLL -/

/-- R101: every POLL calls `InByte` once, so it consumes one arrival at most; with no byte available it
returns status 0 and changes no field of the channel. -/
def Obligations.PollTakesOneByteAtMost : Prop :=
  ∀ (s : State) (ch : Nat) (sl : Slot), s.channels[ch]? = some sl →
    (∀ (i : Instr) (t : State), i ∈ [Instr.pollLine ch, .pollBin ch] → exec i s = .next t →
      ∃ u, t.channels[ch]? =
        some ⟨u, { sl.transport with arrivals := sl.transport.arrivals.tail }⟩) ∧
    (sl.transport.arrivals = [] ∨ sl.transport.arrivals.head? = some none →
      (sl.unit.kind = .line → exec (.pollLine ch) s = .next (afterPoll s ch sl sl.unit 0)) ∧
      (sl.unit.kind = .bin → exec (.pollBin ch) s = .next (afterPoll s ch sl sl.unit 0)))

/-- R103: POLL never blocks and is never stuck: on every channel that meets the invariant it ends in
the same step, with a status. -/
def Obligations.PollAlwaysEndsWithAStatus : Prop :=
  ∀ (s : State) (ch : Nat) (sl : Slot),
    s.channels[ch]? = some sl → sl.unit.Inv s.build →
    (sl.unit.kind = .line →
      ∃ u st, exec (.pollLine ch) s = .next (afterPoll s ch sl u st)) ∧
    (sl.unit.kind = .bin →
      ∃ u st, exec (.pollBin ch) s = .next (afterPoll s ch sl u st))

/-- R105: whenever a POLL returns a status other than 0, cursor, count and sum are 0 after it. -/
def Obligations.PollResetsOnNonzeroStatus : Prop :=
  ∀ (i : Instr) (s t : State) (ch : Nat) (st : Int),
    i ∈ [Instr.pollLine ch, .pollBin ch] → exec i s = .next t →
    t.results = s.results ++ [.status st] → st ≠ 0 →
    ∃ sl, t.channels[ch]? = some sl ∧ ReaderFields sl.unit 0 0x00#8 0x00#8

/-- The frame of POLL.LINE and POLL.BIN (R24, R30, R57): nothing outside the channel changes but that
one status is returned; in the channel no configuration field, no byte of the buffer but the one at
the cursor, and of the transport one arrival is consumed. -/
def Obligations.PollFrame : Prop :=
  ∀ (i : Instr) (s t : State) (ch : Nat) (sl : Slot),
    i ∈ [Instr.pollLine ch, .pollBin ch] → exec i s = .next t → s.channels[ch]? = some sl →
    SameOutside ch s t ∧ (∃ st, t.results = s.results ++ [.status st]) ∧
    ∃ u, t.channels[ch]? =
        some ⟨u, { sl.transport with arrivals := sl.transport.arrivals.tail }⟩ ∧
      SameConfig sl.unit u ∧
      ∀ k, k ≠ sl.unit.cursor → u.buf.find k = sl.unit.buf.find k

/-! ## POLL.LINE -/

/-- R142 (with R141, and R22's three bits): on a member of the terminator set, 0x00 is written at
`buf[cursor]`, the status is the cursor value, and the reader resets; R145: at cursor 0 that is the
empty line, status 0. -/
def Obligations.LineTerminatorCompletesTheLine : Prop :=
  ∀ (s : State) (ch : Nat) (sl : Slot) (b : Byte),
    Receives s ch sl .line b → sl.unit.cursor < sl.unit.C →
    InTerminatorSet sl.unit.T b →
    ∃ u, exec (.pollLine ch) s = .next (afterPoll s ch sl u (sl.unit.cursor : Int)) ∧
      SameConfig sl.unit u ∧ StoredAt sl.unit u sl.unit.cursor 0x00#8 ∧
      ReaderFields u 0 0x00#8 0x00#8

/-- R143 (with R141, and R22's three bits): a byte that is no member of the terminator set, whatever its
value, and does not fill the buffer is stored at `buf[cursor]`, the cursor advances by 1, and the
status is 0. -/
def Obligations.LineContentIsAppended : Prop :=
  ∀ (s : State) (ch : Nat) (sl : Slot) (b : Byte),
    Receives s ch sl .line b → sl.unit.cursor + 1 < sl.unit.C →
    ¬ InTerminatorSet sl.unit.T b →
    ∃ u, exec (.pollLine ch) s = .next (afterPoll s ch sl u 0) ∧
      SameConfig sl.unit u ∧ StoredAt sl.unit u sl.unit.cursor b ∧
      ReaderFields u (sl.unit.cursor + 1) sl.unit.count sl.unit.sum

/-- R144 (with R141, and R22's three bits): when the append of a byte that is no member of the
terminator set makes the cursor reach C, the byte is stored, the status is -C and the reader resets. -/
def Obligations.LineOverflowReportsCapacity : Prop :=
  ∀ (s : State) (ch : Nat) (sl : Slot) (b : Byte),
    Receives s ch sl .line b → sl.unit.cursor + 1 = sl.unit.C →
    ¬ InTerminatorSet sl.unit.T b →
    ∃ u, exec (.pollLine ch) s = .next (afterPoll s ch sl u (-(sl.unit.C : Int))) ∧
      SameConfig sl.unit u ∧ StoredAt sl.unit u sl.unit.cursor b ∧ ReaderFields u 0 0x00#8 0x00#8

/-- R147: the statuses of POLL.LINE are exactly 0, +n for 1 ≤ n ≤ C - 1, and -C: no other, and each of
them on some channel. -/
def Obligations.LineStatusesAreExactly : Prop :=
  (∀ (s t : State) (ch : Nat) (sl : Slot) (st : Int),
    s.channels[ch]? = some sl → exec (.pollLine ch) s = .next t →
    t.results = s.results ++ [.status st] →
    st = 0 ∨ (1 ≤ st ∧ st ≤ (sl.unit.C : Int) - 1) ∨ st = -(sl.unit.C : Int)) ∧
  (∀ (C : Nat) (st : Int), 1 ≤ C → C ≤ 32767 →
    (st = 0 ∨ (1 ≤ st ∧ st ≤ (C : Int) - 1) ∨ st = -(C : Int)) →
    ∃ (s t : State) (sl : Slot), s.Inv ∧ s.channels[0]? = some sl ∧ sl.unit.C = C ∧
      exec (.pollLine 0) s = .next t ∧ t.results = s.results ++ [.status st])

/-- R149 (with R76): on a channel at cursor 0, fed by any schedule of arrivals, one POLL each, where an
arrival that is no byte does not count: a line of n ≤ C - 1 content bytes completes on its
terminator, the (n + 1)-th byte, with only statuses 0 before it, and then `buf[0..n)` is the content
and `buf[n]` is 0x00; with no terminator among them, the C-th content byte is the overflow, with only
statuses 0 before it. -/
def Obligations.LineFrameIsDelivered : Prop :=
  ∀ (s : State) (ch : Nat) (sl : Slot) (early : List (Option Byte)) (content : List Byte) (b : Byte)
    (rest : List (Option Byte)),
    s.channels[ch]? = some sl → sl.unit.kind = .line → sl.unit.cursor = 0 →
    content.length + 1 ≤ sl.unit.C →
    (∀ x ∈ content, ¬ InTerminatorSet sl.unit.T x) →
    sl.transport.arrivals = early ++ some b :: rest → early.filterMap id = content →
    (InTerminatorSet sl.unit.T b →
      ∃ (t : State) (sl' : Slot),
        runOps (List.replicate (early.length + 1) (.pollLine ch)) s = .next t ∧
        t.results =
          s.results ++ List.replicate early.length (.status 0) ++
            [.status (content.length : Int)] ∧
        t.channels[ch]? = some sl' ∧ sl'.transport.arrivals = rest ∧
        (∀ i < content.length, sl'.unit.buf.find i = content[i]?) ∧
        sl'.unit.buf.find content.length = some 0x00#8 ∧ sl'.unit.cursor = 0) ∧
    (content.length + 1 = sl.unit.C → ¬ InTerminatorSet sl.unit.T b →
      ∃ (t : State) (sl' : Slot),
        runOps (List.replicate (early.length + 1) (.pollLine ch)) s = .next t ∧
        t.results =
          s.results ++ List.replicate early.length (.status 0) ++
            [.status (-(sl.unit.C : Int))] ∧
        t.channels[ch]? = some sl' ∧ sl'.transport.arrivals = rest ∧ sl'.unit.cursor = 0)

/-! ## POLL.BIN -/

/-- R122: a byte other than HDR0 at cursor 0 gives the status BIN_ERR_HDR0 (-1 by default), is not
stored, and the reader resets; HDR0 is stored and the reader goes on. -/
def Obligations.BinHeader0 : Prop :=
  defaultBuild.binErrHdr0 = -1 ∧ defaultBuild.hdr0 = 0xFF#8 ∧
  ∀ (s : State) (ch : Nat) (sl : Slot) (b : Byte),
    Receives s ch sl .bin b → sl.unit.cursor = 0 →
    (b ≠ s.build.hdr0 →
      ∃ u, exec (.pollBin ch) s = .next (afterPoll s ch sl u s.build.binErrHdr0) ∧
        SameConfig sl.unit u ∧ u.buf = sl.unit.buf ∧ ReaderFields u 0 0x00#8 0x00#8) ∧
    (b = s.build.hdr0 → 1 ≤ sl.unit.C →
      ∃ u, exec (.pollBin ch) s = .next (afterPoll s ch sl u 0) ∧
        SameConfig sl.unit u ∧ StoredAt sl.unit u 0 b ∧
        ReaderFields u 1 sl.unit.count sl.unit.sum)

/-- R123 (with R130): a byte other than HDR1 at cursor 1, HDR0 included, gives the status BIN_ERR_HDR1
(-2 by default), is not stored, and the reader resets; HDR1 is stored (C ≥ 2; log entry 7) and the
reader goes on. -/
def Obligations.BinHeader1 : Prop :=
  defaultBuild.binErrHdr1 = -2 ∧ defaultBuild.hdr1 = 0x00#8 ∧
  ∀ (s : State) (ch : Nat) (sl : Slot) (b : Byte),
    Receives s ch sl .bin b → sl.unit.cursor = 1 →
    (b ≠ s.build.hdr1 →
      ∃ u, exec (.pollBin ch) s = .next (afterPoll s ch sl u s.build.binErrHdr1) ∧
        SameConfig sl.unit u ∧ u.buf = sl.unit.buf ∧ ReaderFields u 0 0x00#8 0x00#8) ∧
    (b = s.build.hdr1 → 2 ≤ sl.unit.C →
      ∃ u, exec (.pollBin ch) s = .next (afterPoll s ch sl u 0) ∧
        SameConfig sl.unit u ∧ StoredAt sl.unit u 1 b ∧
        ReaderFields u 2 sl.unit.count sl.unit.sum)

/-- The model's choice (log entry 7), where R30 and R120 leave no slot: on a BIN channel with C = 1 the
second header byte is not stored, the reader goes on to the count byte, and every count byte is
rejected there, as R7 says of C < 5. -/
def Obligations.BinHeader1WithoutASlot : Prop :=
  ∀ (s : State) (ch : Nat) (sl : Slot) (b : Byte),
    Receives s ch sl .bin b → sl.unit.C = 1 →
    (sl.unit.cursor = 1 → b = s.build.hdr1 →
      ∃ u, exec (.pollBin ch) s = .next (afterPoll s ch sl u 0) ∧
        SameConfig sl.unit u ∧ u.buf = sl.unit.buf ∧
        ReaderFields u 2 sl.unit.count sl.unit.sum) ∧
    (sl.unit.cursor = 2 →
      ∃ u, exec (.pollBin ch) s = .next (afterPoll s ch sl u s.build.binErrCount) ∧
        SameConfig sl.unit u ∧ u.buf = sl.unit.buf ∧ ReaderFields u 0 0x00#8 0x00#8)

/-- R124: a count byte above C - 5 (a signed bound) gives the status BIN_ERR_COUNT (-3 by default),
`buf[2]` is not written and the reader resets; a count within the bound is stored at `buf[2]` and
becomes both `count` and the initial `sum`. -/
def Obligations.BinCountIsBounded : Prop :=
  defaultBuild.binErrCount = -3 ∧
  ∀ (s : State) (ch : Nat) (sl : Slot) (b : Byte),
    Receives s ch sl .bin b → sl.unit.cursor = 2 →
    ((sl.unit.C : Int) - 5 < (b.toNat : Int) →
      ∃ u, exec (.pollBin ch) s = .next (afterPoll s ch sl u s.build.binErrCount) ∧
        SameConfig sl.unit u ∧ u.buf = sl.unit.buf ∧ ReaderFields u 0 0x00#8 0x00#8) ∧
    ((b.toNat : Int) ≤ (sl.unit.C : Int) - 5 →
      ∃ u, exec (.pollBin ch) s = .next (afterPoll s ch sl u 0) ∧
        SameConfig sl.unit u ∧ StoredAt sl.unit u 2 b ∧ ReaderFields u 3 b b)

/-- R125: the bytes at indices 3 .. 2 + count are stored verbatim at the cursor and added to `sum`
modulo 256, and each POLL on them returns 0. -/
def Obligations.BinBodyIsStoredAndSummed : Prop :=
  ∀ (s : State) (ch : Nat) (sl : Slot) (b : Byte),
    Receives s ch sl .bin b → 3 ≤ sl.unit.cursor →
    sl.unit.cursor < 3 + sl.unit.count.toNat → sl.unit.cursor < sl.unit.C →
    ∃ u, exec (.pollBin ch) s = .next (afterPoll s ch sl u 0) ∧
      SameConfig sl.unit u ∧ StoredAt sl.unit u sl.unit.cursor b ∧
      u.cursor = sl.unit.cursor + 1 ∧ u.count = sl.unit.count ∧
      u.sum.toNat = (sl.unit.sum.toNat + b.toNat) % 256

/-- R126: the byte at index 3 + count is stored and compared with the running sum: equal gives
+(4 + count), unequal -(4 + count); either way the reader resets. -/
def Obligations.BinChecksumDecides : Prop :=
  ∀ (s : State) (ch : Nat) (sl : Slot) (b : Byte),
    Receives s ch sl .bin b → sl.unit.cursor = 3 + sl.unit.count.toNat →
    sl.unit.cursor < sl.unit.C →
    ∃ u st, exec (.pollBin ch) s = .next (afterPoll s ch sl u st) ∧
      (b = sl.unit.sum → st = 4 + (sl.unit.count.toNat : Int)) ∧
      (b ≠ sl.unit.sum → st = -(4 + (sl.unit.count.toNat : Int))) ∧
      SameConfig sl.unit u ∧ StoredAt sl.unit u sl.unit.cursor b ∧ ReaderFields u 0 0x00#8 0x00#8

/-- R134, one direction, R7: on a channel that meets the invariant the statuses of POLL.BIN are 0, the
three codes, and +n and -n for 4 ≤ n ≤ C - 1; with C < 5 no frame completes. -/
def Obligations.BinStatuses : Prop :=
  ∀ (s t : State) (ch : Nat) (sl : Slot) (st : Int),
    s.channels[ch]? = some sl → sl.unit.Inv s.build → exec (.pollBin ch) s = .next t →
    t.results = s.results ++ [.status st] →
    (st ∈ [0, s.build.binErrHdr0, s.build.binErrHdr1, s.build.binErrCount] ∨
      (4 ≤ st ∧ st ≤ (sl.unit.C : Int) - 1) ∨ (4 ≤ -st ∧ -st ≤ (sl.unit.C : Int) - 1)) ∧
    (sl.unit.C < 5 → st ∈ [0, s.build.binErrHdr0, s.build.binErrHdr1, s.build.binErrCount])

/-- R129, R133: the bytes of a valid frame with count n ≤ C - 5, fed to a channel at cursor 0 by any
schedule of arrivals, one POLL each, where an arrival that is no byte does not count, give status 0 on
each POLL but the last and +(4 + n) on the one that takes the (4 + n)-th byte, and `buf[0..4+n)` is
the frame. -/
def Obligations.ValidBinaryFrameIsDelivered : Prop :=
  ∀ (s : State) (ch : Nat) (sl : Slot) (n last : Byte) (body frame : List Byte)
    (early rest : List (Option Byte)),
    s.channels[ch]? = some sl → sl.unit.kind = .bin → sl.unit.cursor = 0 →
    body.length = n.toNat → n.toNat + 5 ≤ sl.unit.C →
    frame = s.build.hdr0 :: s.build.hdr1 :: n :: body ++ [n + sumBytes body] →
    sl.transport.arrivals = early ++ some last :: rest → early.filterMap id ++ [last] = frame →
    ∃ (t : State) (sl' : Slot),
      runOps (List.replicate (early.length + 1) (.pollBin ch)) s = .next t ∧
      t.results =
        s.results ++ List.replicate early.length (.status 0) ++ [.status (4 + (n.toNat : Int))] ∧
      t.channels[ch]? = some sl' ∧ sl'.transport.arrivals = rest ∧
      (∀ i < 4 + n.toNat, sl'.unit.buf.find i = frame[i]?) ∧ ReaderFields sl'.unit 0 0x00#8 0x00#8

/-- R132: change one byte of a valid frame at an index in 3 .. 3 + count to a different value, and the
frame, fed by any schedule of arrivals, yields -(4 + count). -/
def Obligations.CorruptedBinaryFrameIsRejected : Prop :=
  ∀ (s : State) (ch : Nat) (sl : Slot) (n x last : Byte) (body frame : List Byte) (j : Nat)
    (early rest : List (Option Byte)),
    s.channels[ch]? = some sl → sl.unit.kind = .bin → sl.unit.cursor = 0 →
    body.length = n.toNat → n.toNat + 5 ≤ sl.unit.C →
    frame = s.build.hdr0 :: s.build.hdr1 :: n :: body ++ [n + sumBytes body] →
    3 ≤ j → j ≤ 3 + n.toNat → frame[j]? ≠ some x →
    sl.transport.arrivals = early ++ some last :: rest →
    early.filterMap id ++ [last] = frame.set j x →
    ∃ t : State,
      runOps (List.replicate (early.length + 1) (.pollBin ch)) s = .next t ∧
      t.results =
        s.results ++ List.replicate early.length (.status 0) ++ [.status (-(4 + (n.toNat : Int)))]

/-! ## RESET and DATA -/

/-- R104: RESET sets cursor, count and sum to 0 in every state of both kinds of channel; the buffer is
not written, no input is consumed, nothing else changes, and it has no result. -/
def Obligations.ResetDiscardsThePartialFrame : Prop :=
  ∀ (s : State) (ch : Nat) (sl : Slot), s.channels[ch]? = some sl →
    exec (.reset ch) s =
      .next { s with
        channels :=
          s.channels.set ch
            ⟨{ sl.unit with cursor := 0, count := 0x00#8, sum := 0x00#8 }, sl.transport⟩
        results := s.results ++ [.nothing] }

/-- R106: DATA returns `[buf[0], ..., buf[C-1]]`: at each index the byte last written there, or where
none was written the byte the construction drew (R241), which is any value; it writes no state. -/
def Obligations.DataReturnsTheWholeBuffer : Prop :=
  ∀ (s : State) (ch : Nat) (sl : Slot), s.channels[ch]? = some sl →
    ∃ bs : List Byte,
      exec (.data ch) s = .next { s with results := s.results ++ [.bytes bs] } ∧
      bs.length = sl.unit.C ∧
      ∀ i < sl.unit.C,
        (∀ b, sl.unit.buf.find i = some b → bs[i]? = some b) ∧
        (sl.unit.buf.find i = none → bs[i]? = some (Config.bufByte ch i))

/-- R107: no operation but a POLL on the channel that consumes a byte changes a byte of its buffer. -/
def Obligations.BufferIsKeptUntilAByteIsConsumed : Prop :=
  ∀ (i : Instr) (s t : State) (ch : Nat) (sl : Slot),
    exec i s = .next t → s.channels[ch]? = some sl →
    (i ∈ [Instr.pollLine ch, .pollBin ch] → sl.transport.arrivals.head?.join = none) →
    ∃ sl', t.channels[ch]? = some sl' ∧ sl'.unit.buf = sl.unit.buf

/-! ## ENCODE -/

/-- R160: `AsciiChk(m) = (256 - (Σ m[i] mod 256)) mod 256`, and it is the unique byte whose sum with
the bytes of `m` is 0 modulo 256. -/
def Obligations.AsciiChecksumIsTheUniqueComplement : Prop :=
  ∀ m : List Byte,
    (asciiChk m).toNat = (256 - (m.map BitVec.toNat).sum % 256) % 256 ∧
    ∀ k : Byte, ((m.map BitVec.toNat).sum + k.toNat) % 256 = 0 ↔ k = asciiChk m

/-- R161, R83: `hex2(b)` is two uppercase hex digits, high nibble first, and DECODE's reading of the
pair gives the byte back, whether or not lowercase digits are accepted; the hex digits DECODE accepts
and their values are R83's. -/
def Obligations.HexPairsReadBack : Prop :=
  (∀ (b : Byte) (lowerOk : Bool), ∃ h l : Byte, hex2 b = [h, l] ∧
    h.toNat = (if b.toNat / 16 ≤ 9 then 0x30 + b.toNat / 16 else 0x41 + (b.toNat / 16 - 10)) ∧
    l.toNat = (if b.toNat % 16 ≤ 9 then 0x30 + b.toNat % 16 else 0x41 + (b.toNat % 16 - 10)) ∧
    isHex lowerOk h = true ∧ isHex lowerOk l = true ∧ hexPair h l = b) ∧
  (∀ (x : Byte) (lowerOk : Bool),
    (isHex lowerOk x = true ↔
      (0x30 ≤ x.toNat ∧ x.toNat ≤ 0x39) ∨ (0x41 ≤ x.toNat ∧ x.toNat ≤ 0x46) ∨
        (lowerOk = true ∧ 0x61 ≤ x.toNat ∧ x.toNat ≤ 0x66)) ∧
    (0x30 ≤ x.toNat ∧ x.toNat ≤ 0x39 → nib x = x.toNat - 0x30) ∧
    (0x41 ≤ x.toNat ∧ x.toNat ≤ 0x46 → nib x = 10 + (x.toNat - 0x41)) ∧
    (0x61 ≤ x.toNat ∧ x.toNat ≤ 0x66 → nib x = 10 + (x.toNat - 0x61)))

/-- R162: `dec(n)`, for 0 ≤ n ≤ 9999, spells n in base 10, and no digit string that spells n is
shorter; an ASCII digit is a byte 0x30 .. 0x39, its value the byte less 0x30. -/
def Obligations.DecIsTheShortestDecimal : Prop :=
  (∀ n ≤ 9999,
    LengthField (dec n) ∧ numVal (dec n) = n ∧
    ∀ ds : List Byte, ds ≠ [] → (∀ x ∈ ds, isDig x = true) → numVal ds = n →
      (dec n).length ≤ ds.length) ∧
  (∀ x : Byte, (isDig x = true ↔ 0x30 ≤ x.toNat ∧ x.toNat ≤ 0x39) ∧
    (isDig x = true → digVal x = x.toNat - 0x30))

/-- R163: ENCODE.HEX on a channel in hex mode: with operands in range it returns the hex-mode message
and changes nothing else; out of range it is refused, by the first of the checks that fails. -/
def Obligations.EncodeHexReturnsTheMessage : Prop :=
  ∀ (s : State) (ch : Nat) (sl : Slot) (tag : Tag) (sub : Int) (pay : List Byte) (len : Int),
    s.channels[ch]? = some sl → sl.unit.hexmode = true →
    (∀ body : List Byte, 0 ≤ sub → sub ≤ 9 → 0 ≤ len → len ≤ 9999 → len ≤ (pay.length : Int) →
      body =
        [tag.t0, tag.t1, 0x20#8, BitVec.ofNat 8 (0x30 + sub.toNat), 0x20#8, 0x2D#8] ++
          dec len.toNat ++ [0x20#8] ++
          (pay.take len.toNat).flatMap (fun b => hex2 b ++ [0x20#8]) →
      exec (.encodeHex ch tag sub pay len) s =
        .next { s with
          results := s.results ++ [.message (body ++ hex2 (asciiChk body) ++ [0x00#8])] }) ∧
    (¬ (0 ≤ sub ∧ sub ≤ 9) →
      exec (.encodeHex ch tag sub pay len) s = .refused .encodeSubcodeRange) ∧
    (0 ≤ sub → sub ≤ 9 → ¬ (0 ≤ len ∧ len ≤ 9999) →
      exec (.encodeHex ch tag sub pay len) s = .refused .encodeLengthRange) ∧
    (0 ≤ sub → sub ≤ 9 → 0 ≤ len → len ≤ 9999 → (pay.length : Int) < len →
      exec (.encodeHex ch tag sub pay len) s = .refused .encodePayloadShort)

/-- R164: ENCODE.LIT on a channel in literal mode: with operands in range it returns the literal-mode
message, with L - 1 payload bytes, and changes nothing else; out of range it is refused, by the first
of the checks that fails. -/
def Obligations.EncodeLitReturnsTheMessage : Prop :=
  ∀ (s : State) (ch : Nat) (sl : Slot) (tag : Tag) (sub : Int) (pay : List Byte) (len : Int),
    s.channels[ch]? = some sl → sl.unit.hexmode = false →
    (∀ body : List Byte, 0 ≤ sub → sub ≤ 9 → 1 ≤ len → len ≤ 10000 →
      len - 1 ≤ (pay.length : Int) →
      body =
        [tag.t0, tag.t1, 0x20#8, BitVec.ofNat 8 (0x30 + sub.toNat), 0x20#8] ++
          dec (len - 1).toNat ++ [0x20#8] ++ pay.take (len - 1).toNat ++ [0x20#8] →
      exec (.encodeLit ch tag sub pay len) s =
        .next { s with
          results := s.results ++ [.message (body ++ hex2 (asciiChk body) ++ [0x00#8])] }) ∧
    (¬ (0 ≤ sub ∧ sub ≤ 9) →
      exec (.encodeLit ch tag sub pay len) s = .refused .encodeSubcodeRange) ∧
    (0 ≤ sub → sub ≤ 9 → ¬ (1 ≤ len ∧ len ≤ 10000) →
      exec (.encodeLit ch tag sub pay len) s = .refused .encodeLengthRange) ∧
    (0 ≤ sub → sub ≤ 9 → 1 ≤ len → len ≤ 10000 → (pay.length : Int) < len - 1 →
      exec (.encodeLit ch tag sub pay len) s = .refused .encodePayloadShort)

/-- R168: on a constructed channel, in its mode, ENCODE is defined exactly for 0 ≤ sub ≤ 9, a length
field 0 .. 9999 (hex: L; literal: L - 1, so L ≥ 1) and a payload at least as long as the bytes sent;
any other operand is refused. -/
def Obligations.EncodeIsDefinedExactlyInRange : Prop :=
  ∀ (s : State) (ch : Nat) (sl : Slot) (tag : Tag) (sub : Int) (pay : List Byte) (len : Int),
    s.channels[ch]? = some sl →
    (sl.unit.hexmode = true →
      ((∃ t, exec (.encodeHex ch tag sub pay len) s = .next t) ↔
        0 ≤ sub ∧ sub ≤ 9 ∧ 0 ≤ len ∧ len ≤ 9999 ∧ len ≤ (pay.length : Int)) ∧
      ((∃ r, exec (.encodeHex ch tag sub pay len) s = .refused r) ↔
        ¬ (0 ≤ sub ∧ sub ≤ 9 ∧ 0 ≤ len ∧ len ≤ 9999 ∧ len ≤ (pay.length : Int)))) ∧
    (sl.unit.hexmode = false →
      ((∃ t, exec (.encodeLit ch tag sub pay len) s = .next t) ↔
        0 ≤ sub ∧ sub ≤ 9 ∧ 1 ≤ len ∧ len - 1 ≤ 9999 ∧ len - 1 ≤ (pay.length : Int)) ∧
      ((∃ r, exec (.encodeLit ch tag sub pay len) s = .refused r) ↔
        ¬ (0 ≤ sub ∧ sub ≤ 9 ∧ 1 ≤ len ∧ len - 1 ≤ 9999 ∧ len - 1 ≤ (pay.length : Int))))

/-- R169, R165, R166: the only effect of ENCODE is the message it returns; its last byte is NUL, and
what stands before the NUL is text and a checksum pair that makes the text's sum 0 modulo 256; its
length is 10 + d + 3L (hex) or 10 + d + (L - 1) (literal), d the digits of the length field. -/
def Obligations.EncodeOnlyReturnsASealedMessage : Prop :=
  ∀ (i : Instr) (s t : State) (ch : Nat) (tag : Tag) (sub : Int) (pay : List Byte) (len : Int),
    i ∈ [Instr.encodeHex ch tag sub pay len, .encodeLit ch tag sub pay len] →
    exec i s = .next t →
    ∃ (text : List Byte) (k : Byte),
      t = { s with results := s.results ++ [.message (text ++ hex2 k ++ [0x00#8])] } ∧
      ((text.map BitVec.toNat).sum + k.toNat) % 256 = 0 ∧
      (text ++ hex2 k ++ [0x00#8]).length =
        (if i = .encodeHex ch tag sub pay len
         then 10 + (dec len.toNat).length + 3 * len.toNat
         else 10 + (dec (len - 1).toNat).length + (len - 1).toNat)

/-- R249: a hex-mode message holds no terminator before its NUL when its two tag bytes are none, for
every terminator set. -/
def Obligations.HexMessageHoldsNoTerminator : Prop :=
  ∀ (s t : State) (ch : Nat) (tag : Tag) (sub : Int) (pay : List Byte) (len : Int)
    (T : BitVec 3) (m : List Byte),
    exec (.encodeHex ch tag sub pay len) s = .next t →
    t.results = s.results ++ [.message (m ++ [0x00#8])] →
    ¬ InTerminatorSet T tag.t0 → ¬ InTerminatorSet T tag.t1 →
    ∀ x ∈ m, ¬ InTerminatorSet T x

/-! ## DECODE -/

/-- R196, R198 (with R180, R195): on a source that holds a valid message within srcLen, in either mode,
followed by anything, with L ≤ DMAX, DECODE returns L and delivers tag, subcode and payload into the
destinations it is handed; nothing but these destinations and the result changes. -/
def Obligations.DecodeAcceptsEveryValidMessage : Prop :=
  ∀ (s : State) (src : Source) (m tail : List Byte) (srcLen dmax : Nat) (d : Decoded)
    (dst : DestNames),
    SourceText s src srcLen (m ++ tail) →
    ValidMessage s.build.hexLowerOk m d → d.pay.length ≤ dmax → dmax ≤ 9999 →
    exec (.decode src srcLen ⟨dmax, dst⟩) s = .next (decodeSuccess s dst d)

/-- R193, R195, R54, R211: a DECODE that runs ends in one of two ways: it delivers what a valid message
at the start of `src[0..srcLen)` says, with L ≤ DMAX, and returns L; or no such message stands there,
it returns one of the twelve codes and leaves the destinations it was handed unspecified. -/
def Obligations.DecodeAcceptsOnlyValidMessages : Prop :=
  ∀ (s t : State) (src : Source) (bs : List Byte) (srcLen dmax : Nat) (dst : DestNames),
    sourceBytes src s = some bs → exec (.decode src srcLen ⟨dmax, dst⟩) s = .next t →
    (∃ (d : Decoded) (m tail : List Byte), t = decodeSuccess s dst d ∧ bs.take srcLen = m ++ tail ∧
      ValidMessage s.build.hexLowerOk m d ∧ d.pay.length ≤ dmax) ∨
    (∃ st ∈ s.build.decErr.toList, t = decodeFailure s dst st ∧
      ∀ (d : Decoded) (m tail : List Byte), bs.take srcLen = m ++ tail →
        ValidMessage s.build.hexLowerOk m d → dmax < d.pay.length)

/-- Derived from 44_ascii_decode.md, sections 1 and 2: a DECODE that succeeds writes dTag, dSub and
dPay[0..L) of the destinations it is handed and nothing after dPay[L-1]; every dPay byte from L on
reads as before. However it ends, it writes no channel field, consumes no input and returns one result.
That every destination it was not handed reads as before is the model's choice, not a rule of the spec:
destinations under different numbers do not overlap (DESIGN CHOICE, notes/assumptions/3.md). -/
def Obligations.DecodeFrame : Prop :=
  ∀ (s t : State) (src : Source) (srcLen dmax : Int) (dst : DestNames),
    exec (.decode src srcLen ⟨dmax, dst⟩) s = .next t →
    t.channels = s.channels ∧ t.build = s.build ∧ t.pending = s.pending ∧
    (∀ n i, n ≠ dst.tag → t.dests.tagAt n i = s.dests.tagAt n i) ∧
    (∀ n, n ≠ dst.sub → t.dests.subVal n = s.dests.subVal n) ∧
    (∀ n i, n ≠ dst.pay → t.dests.payAt n i = s.dests.payAt n i) ∧
    ∃ (st : Int) (r : Option Decoded), t.results = s.results ++ [.decode st r] ∧
      ∀ d, r = some d →
        st = (d.pay.length : Int) ∧
        t.dests.tagAt dst.tag 0 = d.tag.t0 ∧ t.dests.tagAt dst.tag 1 = d.tag.t1 ∧
        t.dests.subVal dst.sub = d.sub ∧
        (∀ k < d.pay.length, some (t.dests.payAt dst.pay k) = d.pay[k]?) ∧
        (∀ k, d.pay.length ≤ k → t.dests.payAt dst.pay k = s.dests.payAt dst.pay k) ∧
        (∀ k, 2 ≤ k → t.dests.tagAt dst.tag k = s.dests.tagAt dst.tag k)

/-- R199: DECODE is defined exactly for 0 ≤ srcLen ≤ |src| and 0 ≤ DMAX ≤ 9999; other operands are
refused. -/
def Obligations.DecodeRunsExactlyOnOperandsInRange : Prop :=
  ∀ (s : State) (src : Source) (bs : List Byte) (srcLen dmax : Int) (dst : DestNames),
    sourceBytes src s = some bs →
    (0 ≤ srcLen → srcLen ≤ (bs.length : Int) → 0 ≤ dmax → dmax ≤ 9999 →
      ∃ t, exec (.decode src srcLen ⟨dmax, dst⟩) s = .next t) ∧
    (srcLen < 0 ∨ (bs.length : Int) < srcLen ∨ dmax < 0 ∨ 9999 < dmax →
      exec (.decode src srcLen ⟨dmax, dst⟩) s = .refused .decodeOperandRange)

/-- R183, R185 (and R184's check), with R193's values: the first failing check of the tag and subcode
fields gives its code, whatever follows. -/
def Obligations.DecodeHeadErrors : Prop :=
  defaultBuild.decErr.toList = [-1, -2, -3, -4, -5, -6, -7, -8, -9, -10, -11, -12] ∧
  ∀ (s : State) (src : Source) (n : Nat) (t0 t1 x d : Byte) (tail : List Byte) (dmax : Nat)
    (dst : DestNames),
    dmax ≤ 9999 →
    (SourceText s src n ([t0, t1, x] ++ tail) → x ≠ 0x20#8 →
      exec (.decode src n ⟨dmax, dst⟩) s = .next (decodeFailure s dst s.build.decErr.sepTag)) ∧
    (SourceText s src n ([t0, t1, 0x20#8, x] ++ tail) → isDig x = false →
      exec (.decode src n ⟨dmax, dst⟩) s = .next (decodeFailure s dst s.build.decErr.subcode)) ∧
    (SourceText s src n ([t0, t1, 0x20#8, d, x] ++ tail) → isDig d = true → x ≠ 0x20#8 →
      exec (.decode src n ⟨dmax, dst⟩) s = .next (decodeFailure s dst s.build.decErr.sepSub))

/-- R188, R189 (and the checks of R186, R187): the first length byte, the byte after one to four digits,
and a length above DMAX, in either mode, whatever follows. -/
def Obligations.DecodeLengthErrors : Prop :=
  ∀ (s : State) (src : Source) (n : Nat) (tag : Tag) (sub x : Byte) (hex : Bool)
    (digits tail : List Byte) (dmax : Nat) (dst : DestNames),
    isDig sub = true → dmax ≤ 9999 →
    (SourceText s src n (messageStart tag sub hex ++ x :: tail) → isDig x = false →
      (hex = false → x ≠ 0x2D#8) →
      exec (.decode src n ⟨dmax, dst⟩) s = .next (decodeFailure s dst s.build.decErr.lenDigit)) ∧
    (SourceText s src n (messageStart tag sub hex ++ digits ++ x :: tail) →
      LengthField digits → (digits.length < 4 → isDig x = false) → x ≠ 0x20#8 →
      exec (.decode src n ⟨dmax, dst⟩) s = .next (decodeFailure s dst s.build.decErr.sepLen)) ∧
    (SourceText s src n (messageStart tag sub hex ++ digits ++ 0x20#8 :: tail) →
      LengthField digits → dmax < numVal digits →
      exec (.decode src n ⟨dmax, dst⟩) s = .next (decodeFailure s dst s.build.decErr.lenRange))

/-- R191 (and the checks of R190): a bad digit in a hex pair, a bad byte after a pair, a bad byte after
the literal run, each after a valid start, whatever follows. -/
def Obligations.DecodePayloadErrors : Prop :=
  ∀ (s : State) (src : Source) (n : Nat) (tag : Tag) (sub h l x : Byte)
    (digits pay text tail : List Byte) (dmax : Nat) (dst : DestNames),
    isDig sub = true → LengthField digits → numVal digits ≤ dmax → dmax ≤ 9999 →
    (HexText s.build.hexLowerOk pay text → pay.length < numVal digits →
      (SourceText s src n (messageText tag sub true digits text ++ x :: tail) →
        isHex s.build.hexLowerOk x = false →
        exec (.decode src n ⟨dmax, dst⟩) s = .next (decodeFailure s dst s.build.decErr.hex)) ∧
      (SourceText s src n (messageText tag sub true digits text ++ h :: x :: tail) →
        isHex s.build.hexLowerOk h = true → isHex s.build.hexLowerOk x = false →
        exec (.decode src n ⟨dmax, dst⟩) s = .next (decodeFailure s dst s.build.decErr.hex)) ∧
      (SourceText s src n (messageText tag sub true digits text ++ h :: l :: x :: tail) →
        isHex s.build.hexLowerOk h = true → isHex s.build.hexLowerOk l = true → x ≠ 0x20#8 →
        exec (.decode src n ⟨dmax, dst⟩) s = .next (decodeFailure s dst s.build.decErr.sepHex))) ∧
    (pay.length = numVal digits → x ≠ 0x20#8 →
      SourceText s src n (messageText tag sub false digits pay ++ x :: tail) →
      exec (.decode src n ⟨dmax, dst⟩) s = .next (decodeFailure s dst s.build.decErr.sepLit))

/-- R192: an invalid checksum digit, and after two valid ones a sum of the raw bytes before them that
with their value is not 0 modulo 256, in either mode; the sum is checked last (R194). -/
def Obligations.DecodeChecksumErrors : Prop :=
  ∀ (s : State) (src : Source) (n : Nat) (tag : Tag) (sub h x : Byte) (hex : Bool)
    (digits pay text tail : List Byte) (dmax : Nat) (dst : DestNames),
    isDig sub = true → LengthField digits → numVal digits = pay.length → pay.length ≤ dmax →
    dmax ≤ 9999 → PayloadText s.build.hexLowerOk hex pay text →
    (SourceText s src n (messageText tag sub hex digits text ++ x :: tail) →
      isHex s.build.hexLowerOk x = false →
      exec (.decode src n ⟨dmax, dst⟩) s = .next (decodeFailure s dst s.build.decErr.chkHex)) ∧
    (SourceText s src n (messageText tag sub hex digits text ++ h :: x :: tail) →
      isHex s.build.hexLowerOk h = true → isHex s.build.hexLowerOk x = false →
      exec (.decode src n ⟨dmax, dst⟩) s = .next (decodeFailure s dst s.build.decErr.chkHex)) ∧
    (SourceText s src n (messageText tag sub hex digits text ++ h :: x :: tail) →
      isHex s.build.hexLowerOk h = true → isHex s.build.hexLowerOk x = true →
      (((messageText tag sub hex digits text).map BitVec.toNat).sum +
        (16 * nib h + nib x)) % 256 ≠ 0 →
      exec (.decode src n ⟨dmax, dst⟩) s = .next (decodeFailure s dst s.build.decErr.checksum))

/-- R181: DECODE reads only `src[0..srcLen)`: sources that agree there give the same answer; and a
source that ends inside a message gives TRUNCATED, whichever field was being read: anywhere inside a
valid message that fits; before, among or after the length digits, whatever their value and DMAX; and
after a first checksum digit, whatever its value. -/
def Obligations.DecodeReadsOnlyWithinSrcLen : Prop :=
  (∀ (s : State) (src src' : Source) (srcLen : Nat) (dmax : Int) (text : List Byte)
    (dst : DestNames),
    SourceText s src srcLen text → SourceText s src' srcLen text →
    exec (.decode src srcLen ⟨dmax, dst⟩) s = exec (.decode src' srcLen ⟨dmax, dst⟩) s) ∧
  (∀ (s : State) (src : Source) (m : List Byte) (srcLen dmax : Nat) (d : Decoded)
    (dst : DestNames),
    SourceText s src srcLen (m.take srcLen) → srcLen < m.length →
    ValidMessage s.build.hexLowerOk m d → d.pay.length ≤ dmax → dmax ≤ 9999 →
    exec (.decode src srcLen ⟨dmax, dst⟩) s =
      .next (decodeFailure s dst s.build.decErr.truncated)) ∧
  (∀ (s : State) (src : Source) (srcLen dmax : Nat) (tag : Tag) (sub : Byte) (hex : Bool)
    (digits : List Byte) (dst : DestNames),
    SourceText s src srcLen (messageStart tag sub hex ++ digits) →
    isDig sub = true → digits.length ≤ 4 → (∀ x ∈ digits, isDig x = true) → dmax ≤ 9999 →
    exec (.decode src srcLen ⟨dmax, dst⟩) s =
      .next (decodeFailure s dst s.build.decErr.truncated)) ∧
  (∀ (s : State) (src : Source) (srcLen dmax : Nat) (tag : Tag) (sub h : Byte) (hex : Bool)
    (digits pay text : List Byte) (dst : DestNames),
    SourceText s src srcLen (messageText tag sub hex digits text ++ [h]) →
    isDig sub = true → LengthField digits → numVal digits = pay.length →
    PayloadText s.build.hexLowerOk hex pay text → isHex s.build.hexLowerOk h = true →
    pay.length ≤ dmax → dmax ≤ 9999 →
    exec (.decode src srcLen ⟨dmax, dst⟩) s =
      .next (decodeFailure s dst s.build.decErr.truncated))

/-- R200: DECODE of any ENCODE output, without its NUL, with DMAX at least the payload's length, by any
block in any state, returns the original tag, subcode and payload: in hex mode the first L bytes and
the status L, in literal mode the first L - 1 and the status L - 1. -/
def Obligations.DecodeOfEncodeIsTheMessage : Prop :=
  ∀ (s s' : State) (ch : Nat) (sl : Slot) (tag : Tag) (sub : Int) (pay : List Byte) (len : Int)
    (dmax : Nat) (dst : DestNames),
    s.channels[ch]? = some sl → dmax ≤ 9999 →
    (sl.unit.hexmode = true → EncodeHexOk sub pay len → len ≤ (dmax : Int) →
      ∃ (t : State) (m : List Byte), exec (.encodeHex ch tag sub pay len) s = .next t ∧
        t.results = s.results ++ [.message (m ++ [0x00#8])] ∧
        exec (.decode (.bytes m) m.length ⟨dmax, dst⟩) s' =
          .next (decodeSuccess s' dst ⟨tag, BitVec.ofNat 8 sub.toNat, pay.take len.toNat⟩)) ∧
    (sl.unit.hexmode = false → EncodeLitOk sub pay len → len - 1 ≤ (dmax : Int) →
      ∃ (t : State) (m : List Byte), exec (.encodeLit ch tag sub pay len) s = .next t ∧
        t.results = s.results ++ [.message (m ++ [0x00#8])] ∧
        exec (.decode (.bytes m) m.length ⟨dmax, dst⟩) s' =
          .next (decodeSuccess s' dst ⟨tag, BitVec.ofNat 8 sub.toNat, pay.take (len - 1).toNat⟩))
end

