-- ==== Sys2Proof/Laws/Memory.lean ====
section
/-!
SUPPORT. Tables and byte memory: a read after a write, and that every operation keeps the canonical
form.
-/

namespace Sys2Proof.Machine

/-! Tables. -/

section
variable {α : Type}

@[simp] theorem Table.find_nil (a : Nat) : Table.find ([] : Table α) a = none := rfl

@[simp] theorem Table.find_cons (x : Nat) (y : α) (m : Table α) (a : Nat) :
    Table.find ((x, y) :: m) a = if a = x then some y else Table.find m a := rfl

/-- In canonical form a number below every listed one is not listed. -/
theorem Table.find_of_lt (m : Table α) (a : Nat) (h : ∀ p ∈ m, a < p.1) :
    Table.find m a = none := by
  induction m with
  | nil => rfl
  | cons p m ih =>
    obtain ⟨x, y⟩ := p
    have hx := h (x, y) List.mem_cons_self
    rw [Table.find_cons, if_neg (Nat.ne_of_lt hx)]
    exact ih fun q hq => h q (List.mem_cons_of_mem _ hq)

/-- Reading a number after a write: the entry made there, elsewhere what it was. No canonical form
is needed: a write goes to the first place its number may stand in. -/
theorem Table.find_write (m : Table α) (a : Nat) (b : α) (i : Nat) :
    (m.write a b).find i = if i = a then some b else m.find i := by
  induction m with
  | nil => rfl
  | cons p m ih =>
    obtain ⟨x, y⟩ := p
    rw [Table.write]
    split
    · simp
    · split
      · subst_vars
        simp only [Table.find_cons]
        split <;> simp_all
      · simp only [Table.find_cons, ih]
        split <;> split <;> simp_all

@[simp] theorem Table.find_write_self (m : Table α) (a : Nat) (b : α) :
    (m.write a b).find a = some b := by simp [Table.find_write]

theorem Table.find_write_of_ne (m : Table α) (a : Nat) (b : α) (i : Nat) (h : i ≠ a) :
    (m.write a b).find i = m.find i := by simp [Table.find_write, h]

/-- What a write lists: the new entry, or one that was listed. -/
theorem Table.mem_write (m : Table α) (a : Nat) (b : α) (p : Nat × α)
    (h : p ∈ m.write a b) : p = (a, b) ∨ p ∈ m := by
  induction m with
  | nil => simpa [Table.write] using h
  | cons q m ih =>
    obtain ⟨x, y⟩ := q
    rw [Table.write] at h
    split at h
    · simpa using h
    · split at h
      · rcases List.mem_cons.mp h with h | h
        · exact .inl h
        · exact .inr (List.mem_cons_of_mem _ h)
      · rcases List.mem_cons.mp h with h | h
        · exact .inr (h ▸ List.mem_cons_self)
        · rcases ih h with h | h
          · exact .inl h
          · exact .inr (List.mem_cons_of_mem _ h)

/-- An entry that is found is listed. -/
theorem Table.mem_of_find (m : Table α) (a : Nat) (b : α) (h : m.find a = some b) : (a, b) ∈ m := by
  induction m with
  | nil => cases h
  | cons q m ih =>
    obtain ⟨x, y⟩ := q
    rw [Table.find_cons] at h
    split at h
    · cases h
      subst_vars
      exact List.mem_cons_self
    · exact List.mem_cons_of_mem _ (ih h)

/-- A write keeps the canonical form. -/
theorem Table.wf_write (m : Table α) (a : Nat) (b : α) (h : m.wf) : (m.write a b).wf := by
  induction m with
  | nil => simp [Table.write, Table.wf]
  | cons q m ih =>
    obtain ⟨x, y⟩ := q
    obtain ⟨hq, hm⟩ := List.pairwise_cons.mp h
    rw [Table.write]
    split
    · rename_i hax
      refine List.pairwise_cons.mpr ⟨fun p hp => ?_, h⟩
      rcases List.mem_cons.mp hp with rfl | hp
      · exact hax
      · exact Nat.lt_trans hax (hq p hp)
    · split
      · subst_vars
        exact List.pairwise_cons.mpr ⟨hq, hm⟩
      · refine List.pairwise_cons.mpr ⟨fun p hp => ?_, ih hm⟩
        rcases Table.mem_write m a b p hp with rfl | hp
        · show x < a
          omega
        · exact hq p hp

end

/-! Byte memory. -/

/-- A write below `n` keeps every index below `n`. -/
theorem Memory.below_write (m : Memory) (a : Nat) (b : Byte) (n : Nat) (h : m.below n)
    (ha : a < n) : Memory.below (m.write a b) n := by
  intro p hp
  rcases Table.mem_write m a b p hp with rfl | hp
  · exact ha
  · exact h p hp

/-- Reading an index after writing a run of bytes at `a`. -/
theorem Memory.find_writeAll (bs : List Byte) :
    ∀ (m : Memory) (a i : Nat),
      (m.writeAll a bs).find i =
        if a ≤ i ∧ i < a + bs.length then bs[i - a]? else m.find i := by
  induction bs with
  | nil =>
    intro m a i
    rw [Memory.writeAll, if_neg (by rw [List.length_nil]; omega)]
  | cons b bs ih =>
    intro m a i
    rw [Memory.writeAll, ih, Table.find_write]
    simp only [List.length_cons]
    by_cases h1 : a + 1 ≤ i ∧ i < a + 1 + bs.length
    · rw [if_pos h1, if_pos (by omega)]
      obtain ⟨k, rfl⟩ : ∃ k, i = a + 1 + k := ⟨i - (a + 1), by omega⟩
      rw [show a + 1 + k - (a + 1) = k by omega, show a + 1 + k - a = k + 1 by omega]
      simp
    · rw [if_neg h1]
      by_cases h2 : i = a
      · subst h2
        simp
      · rw [if_neg h2, if_neg (by omega)]

/-- Writing a run of bytes keeps the canonical form. -/
theorem Memory.wf_writeAll (bs : List Byte) :
    ∀ (m : Memory) (a : Nat), m.wf → (m.writeAll a bs).wf := by
  induction bs with
  | nil => exact fun _ _ h => h
  | cons b bs ih => exact fun m a h => ih _ _ (Table.wf_write m a b h)

/-- Writing a run of bytes that ends below `n` keeps every index below `n`. -/
theorem Memory.below_writeAll (bs : List Byte) (n : Nat) :
    ∀ (m : Memory) (a : Nat), m.below n → a + bs.length ≤ n → (m.writeAll a bs).below n := by
  induction bs with
  | nil => exact fun _ _ h _ => h
  | cons b bs ih =>
    intro m a h hn
    simp only [List.length_cons] at hn
    exact ih _ _ (Memory.below_write m a b n h (by omega)) (by omega)

end Sys2Proof.Machine
end

