-- ==== Sys2Proof/Laws/State.lean ====
section
/-!
SUPPORT. One lemma per field per update of the state and of a channel unit, true by unfolding once.
-/

namespace Sys2Proof.Machine

/-! `setSlot` writes the channels only. -/

@[simp] theorem State.setSlot_build (s : State) (n : Nat) (sl : Slot) :
    (s.setSlot n sl).build = s.build := rfl
@[simp] theorem State.setSlot_channels (s : State) (n : Nat) (sl : Slot) :
    (s.setSlot n sl).channels = s.channels.set n sl := rfl
@[simp] theorem State.setSlot_dests (s : State) (n : Nat) (sl : Slot) :
    (s.setSlot n sl).dests = s.dests := rfl
@[simp] theorem State.setSlot_pending (s : State) (n : Nat) (sl : Slot) :
    (s.setSlot n sl).pending = s.pending := rfl
@[simp] theorem State.setSlot_results (s : State) (n : Nat) (sl : Slot) :
    (s.setSlot n sl).results = s.results := rfl

/-! `setDests` writes the destinations only. -/

@[simp] theorem State.setDests_build (s : State) (d : Dests) : (s.setDests d).build = s.build := rfl
@[simp] theorem State.setDests_channels (s : State) (d : Dests) :
    (s.setDests d).channels = s.channels := rfl
@[simp] theorem State.setDests_dests (s : State) (d : Dests) : (s.setDests d).dests = d := rfl
@[simp] theorem State.setDests_pending (s : State) (d : Dests) :
    (s.setDests d).pending = s.pending := rfl
@[simp] theorem State.setDests_results (s : State) (d : Dests) :
    (s.setDests d).results = s.results := rfl

/-! `report` appends a result only. -/

@[simp] theorem State.report_build (s : State) (r : Result) : (s.report r).build = s.build := rfl
@[simp] theorem State.report_channels (s : State) (r : Result) :
    (s.report r).channels = s.channels := rfl
@[simp] theorem State.report_dests (s : State) (r : Result) : (s.report r).dests = s.dests := rfl
@[simp] theorem State.report_pending (s : State) (r : Result) :
    (s.report r).pending = s.pending := rfl
@[simp] theorem State.report_results (s : State) (r : Result) :
    (s.report r).results = s.results ++ [r] := rfl

/-! `setPending` writes the host's list only. -/

@[simp] theorem State.setPending_build (s : State) (p : List Interaction) :
    (s.setPending p).build = s.build := rfl
@[simp] theorem State.setPending_channels (s : State) (p : List Interaction) :
    (s.setPending p).channels = s.channels := rfl
@[simp] theorem State.setPending_dests (s : State) (p : List Interaction) :
    (s.setPending p).dests = s.dests := rfl
@[simp] theorem State.setPending_pending (s : State) (p : List Interaction) :
    (s.setPending p).pending = p := rfl
@[simp] theorem State.setPending_results (s : State) (p : List Interaction) :
    (s.setPending p).results = s.results := rfl

/-! The destinations: a delivery and a fresh draw act on one of each kind. -/

@[simp] theorem Dests.deliver_tags (d : Dests) (dst : DestNames) (m : Decoded) :
    (d.deliver dst m).tags = d.tags.deliver dst.tag [m.tag.t0, m.tag.t1] := rfl
@[simp] theorem Dests.deliver_subs (d : Dests) (dst : DestNames) (m : Decoded) :
    (d.deliver dst m).subs = d.subs.deliver dst.sub [m.sub] := rfl
@[simp] theorem Dests.deliver_pays (d : Dests) (dst : DestNames) (m : Decoded) :
    (d.deliver dst m).pays = d.pays.deliver dst.pay m.pay := rfl
@[simp] theorem Dests.unspecified_tags (d : Dests) (dst : DestNames) :
    (d.unspecified dst).tags = d.tags.forget dst.tag := rfl
@[simp] theorem Dests.unspecified_subs (d : Dests) (dst : DestNames) :
    (d.unspecified dst).subs = d.subs.forget dst.sub := rfl
@[simp] theorem Dests.unspecified_pays (d : Dests) (dst : DestNames) :
    (d.unspecified dst).pays = d.pays.forget dst.pay := rfl

/-- The slot of a constructed channel after `setSlot`. -/
theorem State.setSlot_getElem_self (s : State) (n : Nat) (sl sl' : Slot)
    (h : s.channels[n]? = some sl) : (s.setSlot n sl').channels[n]? = some sl' := by
  obtain ⟨hn, -⟩ := List.getElem?_eq_some_iff.mp h
  simp [hn]

/-- The slot of another channel after `setSlot`. -/
theorem State.setSlot_getElem_of_ne (s : State) (n k : Nat) (sl' : Slot) (h : k ≠ n) :
    (s.setSlot n sl').channels[k]? = s.channels[k]? := by
  simp [Ne.symm h]

/-! `resetReader` writes cursor, count and sum only (R104, R242). -/

@[simp] theorem Channel.resetReader_kind (c : Channel) : c.resetReader.kind = c.kind := rfl
@[simp] theorem Channel.resetReader_C (c : Channel) : c.resetReader.C = c.C := rfl
@[simp] theorem Channel.resetReader_id (c : Channel) : c.resetReader.id = c.id := rfl
@[simp] theorem Channel.resetReader_hexmode (c : Channel) : c.resetReader.hexmode = c.hexmode := rfl
@[simp] theorem Channel.resetReader_T (c : Channel) : c.resetReader.T = c.T := rfl
@[simp] theorem Channel.resetReader_cursor (c : Channel) : c.resetReader.cursor = 0 := rfl
@[simp] theorem Channel.resetReader_count (c : Channel) : c.resetReader.count = 0x00#8 := rfl
@[simp] theorem Channel.resetReader_sum (c : Channel) : c.resetReader.sum = 0x00#8 := rfl
@[simp] theorem Channel.resetReader_buf (c : Channel) : c.resetReader.buf = c.buf := rfl

/-! `put` writes the buffer only. -/

@[simp] theorem Channel.put_kind (c : Channel) (i : Nat) (b : Byte) : (c.put i b).kind = c.kind := by
  unfold Channel.put; split <;> rfl
@[simp] theorem Channel.put_C (c : Channel) (i : Nat) (b : Byte) : (c.put i b).C = c.C := by
  unfold Channel.put; split <;> rfl
@[simp] theorem Channel.put_id (c : Channel) (i : Nat) (b : Byte) : (c.put i b).id = c.id := by
  unfold Channel.put; split <;> rfl
@[simp] theorem Channel.put_hexmode (c : Channel) (i : Nat) (b : Byte) :
    (c.put i b).hexmode = c.hexmode := by
  unfold Channel.put; split <;> rfl
@[simp] theorem Channel.put_T (c : Channel) (i : Nat) (b : Byte) : (c.put i b).T = c.T := by
  unfold Channel.put; split <;> rfl
@[simp] theorem Channel.put_cursor (c : Channel) (i : Nat) (b : Byte) :
    (c.put i b).cursor = c.cursor := by
  unfold Channel.put; split <;> rfl
@[simp] theorem Channel.put_count (c : Channel) (i : Nat) (b : Byte) :
    (c.put i b).count = c.count := by
  unfold Channel.put; split <;> rfl
@[simp] theorem Channel.put_sum (c : Channel) (i : Nat) (b : Byte) : (c.put i b).sum = c.sum := by
  unfold Channel.put; split <;> rfl

/-- The buffer after a bounds-checked write. -/
theorem Channel.put_buf (c : Channel) (i : Nat) (b : Byte) :
    (c.put i b).buf = if i < c.C then c.buf.write i b else c.buf := by
  unfold Channel.put; split <;> rfl

end Sys2Proof.Machine
end

