-- ==== Sys2Proof/Laws/Ops.lean ====
section
/-!
SUPPORT. For each shared operation, once, everything it can do: the buffer write, InByte, reaching a
channel, POLL around its automaton, the two automata, the destinations.
-/

namespace Sys2Proof.Machine

/-! The buffer. -/

/-- Reading the buffer after a write inside it. -/
theorem Channel.find_put (c : Channel) (i : Nat) (b : Byte) (k : Nat) (h : i < c.C) :
    (c.put i b).buf.find k = if k = i then some b else c.buf.find k := by
  rw [Channel.put_buf, if_pos h, Table.find_write]

/-- A write changes no byte at another index. -/
theorem Channel.find_put_of_ne (c : Channel) (i : Nat) (b : Byte) (k : Nat) (h : k ≠ i) :
    (c.put i b).buf.find k = c.buf.find k := by
  rw [Channel.put_buf]
  split
  · exact Table.find_write_of_ne _ _ _ _ h
  · rfl

/-- A write keeps the buffer canonical. -/
theorem Channel.put_wf (c : Channel) (i : Nat) (b : Byte) (h : c.buf.wf) : (c.put i b).buf.wf := by
  rw [Channel.put_buf]
  split
  · exact Table.wf_write _ _ _ h
  · exact h

/-- A write keeps the buffer below its capacity. -/
theorem Channel.put_below (c : Channel) (i : Nat) (b : Byte) (h : c.buf.below c.C) :
    (c.put i b).buf.below c.C := by
  rw [Channel.put_buf]
  split
  · exact Memory.below_write _ _ _ _ h ‹_›
  · exact h

/-- A byte that was written reads as it was written last. -/
theorem Channel.byteAt_of_find (n : Nat) (c : Channel) (i : Nat) (b : Byte)
    (h : c.buf.find i = some b) : c.byteAt n i = b := by simp [Channel.byteAt, h]

@[simp] theorem Channel.length_bytes (n : Nat) (c : Channel) : (c.bytes n).length = c.C := by
  simp [Channel.bytes]

/-- Byte `i` of the buffer as DATA returns it. -/
theorem Channel.getElem_bytes (n : Nat) (c : Channel) (i : Nat) (h : i < c.C) :
    (c.bytes n)[i]? = some (c.byteAt n i) := by
  simp [Channel.bytes, h]

/-! The transport. -/

/-- `InByte` consumes the head of the arrivals and nothing else. -/
@[simp] theorem Transport.inByte_snd (t : Transport) :
    t.inByte.2 = { t with arrivals := t.arrivals.tail } := by
  obtain ⟨arr, bg⟩ := t
  cases arr <;> rfl

/-- `InByte` returns the head of the arrivals, or none. -/
@[simp] theorem Transport.inByte_fst (t : Transport) : t.inByte.1 = t.arrivals.head?.join := by
  obtain ⟨arr, bg⟩ := t
  cases arr <;> rfl

/-! Reaching a channel. -/

theorem onChannel_some (n : Nat) (s : State) (sl : Slot) (k : Slot → Answer)
    (h : s.channels[n]? = some sl) : onChannel n s k = k sl := by simp [onChannel, h]

theorem onChannel_none (n : Nat) (s : State) (k : Slot → Answer) (h : s.channels[n]? = none) :
    onChannel n s k = .refused .unconstructedChannel := by simp [onChannel, h]

/-- What answers a next state or a fault went through a constructed channel. -/
theorem onChannel_next (n : Nat) (s t : State) (k : Slot → Answer) (h : onChannel n s k = .next t) :
    ∃ sl, s.channels[n]? = some sl ∧ k sl = .next t := by
  unfold onChannel at h
  split at h
  · cases h
  · exact ⟨_, ‹_›, h⟩

theorem onChannel_fault (n : Nat) (s : State) (k : Slot → Answer) (f : Fault)
    (h : onChannel n s k = .fault f) : ∃ sl, s.channels[n]? = some sl ∧ k sl = .fault f := by
  unfold onChannel at h
  split at h
  · cases h
  · exact ⟨_, ‹_›, h⟩

/-! POLL around its automaton. -/

/-- Everything a POLL that answers a next state can have done (R101): no byte, status 0, the unit as
it was; or one byte and the automaton's step. One arrival is consumed either way. -/
theorem pollWith_next (reader : Channel → Byte → ReaderAnswer) (n : Nat) (sl : Slot) (s t : State)
    (h : pollWith reader n sl s = .next t) :
    ∃ u st,
      (sl.transport.arrivals.head?.join = none ∧ u = sl.unit ∧ st = 0 ∨
        ∃ b, sl.transport.arrivals.head?.join = some b ∧ reader sl.unit b = .ok (u, st)) ∧
      t = (s.setSlot n ⟨u, { sl.transport with arrivals := sl.transport.arrivals.tail }⟩).report
            (.status st) := by
  have h1 := Transport.inByte_fst sl.transport
  have h2 := Transport.inByte_snd sl.transport
  unfold pollWith at h
  generalize sl.transport.inByte = e at h h1 h2
  obtain ⟨o, tr⟩ := e
  simp only at h1 h2
  subst h2
  cases o with
  | none =>
    simp only [Host.Outcome.next.injEq] at h
    exact ⟨sl.unit, 0, .inl ⟨h1.symm, rfl, rfl⟩, h.symm⟩
  | some b =>
    simp only at h
    split at h
    · cases h
    · rename_i u st hr
      simp only [Host.Outcome.next.injEq] at h
      exact ⟨u, st, .inr ⟨b, h1.symm, hr⟩, h.symm⟩

/-- A POLL faults only where its automaton does. -/
theorem pollWith_fault (reader : Channel → Byte → ReaderAnswer) (n : Nat) (sl : Slot) (s : State)
    (f : Fault) (h : pollWith reader n sl s = .fault f) :
    ∃ b, sl.transport.arrivals.head?.join = some b ∧ reader sl.unit b = .error f := by
  have h1 := Transport.inByte_fst sl.transport
  unfold pollWith at h
  generalize sl.transport.inByte = e at h h1
  obtain ⟨o, tr⟩ := e
  cases o with
  | none => cases h
  | some b =>
    simp only at h h1
    split at h
    · rename_i g hr
      cases h
      exact ⟨b, h1.symm, hr⟩
    · cases h

/-- A POLL is never refused once its channel is reached. -/
theorem pollWith_not_refused (reader : Channel → Byte → ReaderAnswer) (n : Nat) (sl : Slot)
    (s : State) (r : Refusal) : pollWith reader n sl s ≠ .refused r := by
  unfold pollWith
  split
  · simp
  · split <;> simp

/-- A POLL without a byte. -/
theorem pollWith_none (reader : Channel → Byte → ReaderAnswer) (n : Nat) (sl : Slot) (s : State)
    (h : sl.transport.arrivals.head?.join = none) :
    pollWith reader n sl s =
      .next ((s.setSlot n
        ⟨sl.unit, { sl.transport with arrivals := sl.transport.arrivals.tail }⟩).report
          (.status 0)) := by
  have h1 := Transport.inByte_fst sl.transport
  have h2 := Transport.inByte_snd sl.transport
  unfold pollWith
  generalize sl.transport.inByte = e at h1 h2
  obtain ⟨o, tr⟩ := e
  simp only at h1 h2
  subst h2
  rw [h] at h1
  subst h1
  rfl

/-- A POLL on a byte its automaton accepts. -/
theorem pollWith_some (reader : Channel → Byte → ReaderAnswer) (n : Nat) (sl : Slot) (s : State)
    (b : Byte) (u : Channel) (st : Int) (h : sl.transport.arrivals.head?.join = some b)
    (hr : reader sl.unit b = .ok (u, st)) :
    pollWith reader n sl s =
      .next ((s.setSlot n
        ⟨u, { sl.transport with arrivals := sl.transport.arrivals.tail }⟩).report
          (.status st)) := by
  have h1 := Transport.inByte_fst sl.transport
  have h2 := Transport.inByte_snd sl.transport
  unfold pollWith
  generalize sl.transport.inByte = e at h1 h2
  obtain ⟨o, tr⟩ := e
  simp only at h1 h2
  subst h2
  rw [h] at h1
  subst h1
  simp only [hr]

/-! The automata. -/

/-- Everything the line reader can do on a byte (R140): complete, overflow or append. -/
theorem lineStep_cases (c u : Channel) (b : Byte) (st : Int) (h : lineStep c b = .ok (u, st)) :
    c.cursor < c.C ∧
    ((isTerminator c.T b = true ∧ u = (c.put c.cursor chNUL).resetReader ∧ st = (c.cursor : Int)) ∨
     (isTerminator c.T b = false ∧ c.cursor + 1 = c.C ∧
        u = (c.put c.cursor b).resetReader ∧ st = -(c.C : Int)) ∨
     (isTerminator c.T b = false ∧ c.cursor + 1 ≠ c.C ∧
        u = { c.put c.cursor b with cursor := c.cursor + 1 } ∧ st = 0)) := by
  unfold lineStep at h
  split at h
  · cases h
  · refine ⟨by omega, ?_⟩
    split at h
    · cases h
      exact .inl ⟨‹_›, rfl, rfl⟩
    · split at h
      · cases h
        exact .inr (.inl ⟨by simpa using ‹¬ isTerminator c.T b = true›, ‹_›, rfl, rfl⟩)
      · cases h
        exact .inr (.inr ⟨by simpa using ‹¬ isTerminator c.T b = true›, ‹_›, rfl, rfl⟩)

/-- The line reader faults only where the cursor is outside the buffer. -/
theorem lineStep_error (c : Channel) (b : Byte) (f : Fault) (h : lineStep c b = .error f) :
    c.C ≤ c.cursor := by
  unfold lineStep at h
  split at h
  · assumption
  · split at h
    · cases h
    · split at h <;> cases h

/-- Everything the binary reader can do on a byte (R120), by the state of R121. -/
theorem binStep_cases (p : Build) (c u : Channel) (b : Byte) (st : Int)
    (h : binStep p c b = .ok (u, st)) :
    (c.cursor = 0 ∧ (u, st) = binHeader0 p c b) ∨
    (c.cursor = 1 ∧ (u, st) = binHeader1 p c b) ∨
    (c.cursor = 2 ∧ (u, st) = binLength p c b) ∨
    (3 ≤ c.cursor ∧ c.cursor < c.C ∧ c.cursor < 3 + c.count.toNat ∧ (u, st) = binBody c b) ∨
    (3 ≤ c.cursor ∧ c.cursor < c.C ∧ 3 + c.count.toNat ≤ c.cursor ∧
      (u, st) = binChecksum c b) := by
  unfold binStep at h
  split at h
  · exact .inl ⟨‹_›, (Except.ok.inj h).symm⟩
  · split at h
    · exact .inr (.inl ⟨‹_›, (Except.ok.inj h).symm⟩)
    · split at h
      · exact .inr (.inr (.inl ⟨‹_›, (Except.ok.inj h).symm⟩))
      · split at h
        · cases h
        · split at h
          · exact .inr (.inr (.inr (.inl ⟨by omega, by omega, ‹_›, (Except.ok.inj h).symm⟩)))
          · exact .inr (.inr (.inr (.inr ⟨by omega, by omega, by omega, (Except.ok.inj h).symm⟩)))

/-- The binary reader faults only where the cursor is outside the buffer, past the header. -/
theorem binStep_error (p : Build) (c : Channel) (b : Byte) (f : Fault)
    (h : binStep p c b = .error f) : 3 ≤ c.cursor ∧ c.C ≤ c.cursor := by
  unfold binStep at h
  split at h
  · cases h
  · split at h
    · cases h
    · split at h
      · cases h
      · split at h
        · exact ⟨by omega, by assumption⟩
        · split at h <;> cases h

/-! The destinations. -/

/-- Reading a destination after a delivery into one of them. -/
theorem DestTable.get_deliver (t : DestTable) (n : Nat) (bs : List Byte) (k : Nat) :
    (t.deliver n bs).get k =
      if k = n then { t.get n with bytes := (t.get n).bytes.writeAll 0 bs } else t.get k := by
  unfold DestTable.deliver
  split
  · subst_vars
    split
    · subst_vars
      rfl
    · rfl
  · simp only [DestTable.get, Table.find_write]
    split <;> rfl

/-- Reading a destination after one of them got a fresh draw. -/
theorem DestTable.get_forget (t : DestTable) (n k : Nat) :
    (t.forget n).get k = if k = n then { draw := (t.get n).draw + 1, bytes := [] } else t.get k := by
  simp only [DestTable.forget, DestTable.get, Table.find_write]
  split <;> rfl

/-- What a delivery lists: the destination written to, or one that was listed. -/
theorem DestTable.mem_deliver (t : DestTable) (n : Nat) (bs : List Byte) (p : Nat × Dest)
    (h : p ∈ t.deliver n bs) :
    (bs ≠ [] ∧ p = (n, { t.get n with bytes := (t.get n).bytes.writeAll 0 bs })) ∨ p ∈ t := by
  unfold DestTable.deliver at h
  split at h
  · exact .inr h
  · rcases Table.mem_write _ _ _ _ h with h | h
    · exact .inl ⟨‹_›, h⟩
    · exact .inr h

/-- What a fresh draw lists: that destination with nothing written, or one that was listed. -/
theorem DestTable.mem_forget (t : DestTable) (n : Nat) (p : Nat × Dest) (h : p ∈ t.forget n) :
    p = (n, { draw := (t.get n).draw + 1, bytes := [] }) ∨ p ∈ t :=
  Table.mem_write _ _ _ _ h

/-- A destination is a listed one, or blank. -/
theorem DestTable.get_mem (t : DestTable) (n : Nat) : (n, t.get n) ∈ t ∨ t.get n = Dest.blank := by
  unfold DestTable.get
  cases h : Table.find t n with
  | none => exact .inr rfl
  | some d => exact .inl (Table.mem_of_find _ _ _ h)

/-- In a canonical table every destination's bytes are canonical. -/
theorem DestTable.get_wf (t : DestTable) (n : Nat) (h : t.wf) : Memory.wf (t.get n).bytes := by
  rcases t.get_mem n with hm | hb
  · exact (h.2 _ hm).2
  · rw [hb]
    exact List.Pairwise.nil

/-- A delivery keeps the table canonical. -/
theorem DestTable.wf_deliver (t : DestTable) (n : Nat) (bs : List Byte) (h : t.wf) :
    (t.deliver n bs).wf := by
  refine ⟨?_, fun p hp => ?_⟩
  · unfold DestTable.deliver
    split
    · exact h.1
    · exact Table.wf_write _ _ _ h.1
  · rcases t.mem_deliver n bs p hp with ⟨hb, rfl⟩ | hp
    · refine ⟨fun he => ?_, Memory.wf_writeAll _ _ _ (t.get_wf n h)⟩
      have hf := congrArg (fun d : Dest => d.bytes.find 0) he
      have hl : 0 < bs.length := List.length_pos_iff.mpr hb
      simp [Memory.find_writeAll, hl, Dest.blank] at hf
    · exact h.2 p hp

/-- A fresh draw keeps the table canonical. -/
theorem DestTable.wf_forget (t : DestTable) (n : Nat) (h : t.wf) : (t.forget n).wf := by
  refine ⟨Table.wf_write _ _ _ h.1, fun p hp => ?_⟩
  rcases t.mem_forget n p hp with rfl | hp
  · exact ⟨by simp [Dest.blank], List.Pairwise.nil⟩
  · exact h.2 p hp

/-- The `dTag` a delivery went to: its two bytes are the tag's, and past them it is what it was. -/
theorem Dests.deliver_tagAt (d : Dests) (dst : DestNames) (m : Decoded) (i : Nat) :
    (d.deliver dst m).tagAt dst.tag i =
      if i = 0 then m.tag.t0 else if i = 1 then m.tag.t1 else d.tagAt dst.tag i := by
  simp only [Dests.tagAt, Dests.deliver_tags, DestTable.get_deliver, if_true, Memory.writeAll,
    Table.find_write]
  split
  · rename_i h
    rw [if_neg (by omega)]
    simp [h]
  · split <;> simp_all

/-- The `dSub` a delivery went to. -/
theorem Dests.deliver_subVal (d : Dests) (dst : DestNames) (m : Decoded) :
    (d.deliver dst m).subVal dst.sub = m.sub := by
  simp [Dests.subVal, DestTable.get_deliver, Memory.writeAll]

/-- The `dPay` a delivery went to: the payload, and past it what it was (R195). -/
theorem Dests.deliver_payAt (d : Dests) (dst : DestNames) (m : Decoded) (i : Nat) :
    (d.deliver dst m).payAt dst.pay i =
      if i < m.pay.length then (m.pay[i]?).getD 0x00#8 else d.payAt dst.pay i := by
  simp only [Dests.payAt, Dests.deliver_pays, DestTable.get_deliver, if_true, Memory.find_writeAll,
    Nat.zero_le, true_and, Nat.zero_add, Nat.sub_zero]
  split
  · rename_i hi
    rw [List.getElem?_eq_getElem hi]
    rfl
  · rfl

/-- A delivery touches no destination but those it went to. -/
theorem Dests.deliver_of_ne (d : Dests) (dst : DestNames) (m : Decoded) (n : Nat) :
    (n ≠ dst.tag → (d.deliver dst m).tags.get n = d.tags.get n) ∧
    (n ≠ dst.sub → (d.deliver dst m).subs.get n = d.subs.get n) ∧
    (n ≠ dst.pay → (d.deliver dst m).pays.get n = d.pays.get n) := by
  refine ⟨fun h => ?_, fun h => ?_, fun h => ?_⟩ <;>
    simp [DestTable.get_deliver, h]

/-- A fresh draw touches no destination but those handed over. -/
theorem Dests.unspecified_of_ne (d : Dests) (dst : DestNames) (n : Nat) :
    (n ≠ dst.tag → (d.unspecified dst).tags.get n = d.tags.get n) ∧
    (n ≠ dst.sub → (d.unspecified dst).subs.get n = d.subs.get n) ∧
    (n ≠ dst.pay → (d.unspecified dst).pays.get n = d.pays.get n) := by
  refine ⟨fun h => ?_, fun h => ?_, fun h => ?_⟩ <;>
    simp [DestTable.get_forget, h]

end Sys2Proof.Machine
end

