-- ==== Sys2Proof/Laws/Step.lean ====
section
/-!
SUPPORT. What one step does, by the host's next interaction, and what each instruction does once its
channel is reached.
-/

namespace Sys2Proof.Machine

theorem step_idle (s : State) (h : s.pending = []) : step s = .next s := by
  unfold step; rw [h]

theorem step_construct (s : State) (c : ChannelInput) (rest : List Interaction)
    (h : s.pending = .construct c :: rest) : step s = constructChannel c (s.setPending rest) := by
  unfold step; rw [h]

theorem step_supply (s : State) (ch : Nat) (arr : List (Option Byte)) (rest : List Interaction)
    (h : s.pending = .supply ch arr :: rest) :
    step s = supplyInput ch arr (s.setPending rest) := by
  unfold step; rw [h]

theorem step_issue_ok (s : State) (r : Request) (rest : List Interaction) (i : Instr)
    (h : s.pending = .issue r :: rest) (hf : fetch r s = .ok i) :
    step s = exec i (s.setPending rest) := by
  unfold step; rw [h]; simp only [hf]

theorem step_issue_error (s : State) (r : Request) (rest : List Interaction) (e : Refusal)
    (h : s.pending = .issue r :: rest) (hf : fetch r s = .error e) : step s = .refused e := by
  unfold step; rw [h]; simp only [hf]

theorem constructChannel_ok (c : ChannelInput) (s : State) (h : ChannelInputOk s.build c) :
    constructChannel c s = .next { s with channels := s.channels ++ [newSlot s.build c] } :=
  if_pos h

theorem constructChannel_refused (c : ChannelInput) (s : State) (h : ¬ ChannelInputOk s.build c) :
    constructChannel c s = .refused .constructionRange :=
  if_neg h

/-- Everything a step that answers a next state can have done. -/
theorem step_cases (s t : State) (h : step s = .next t) :
    (s.pending = [] ∧ t = s) ∨
    (∃ c rest, s.pending = .construct c :: rest ∧ ChannelInputOk s.build c ∧
      t = { s with channels := s.channels ++ [newSlot s.build c], pending := rest }) ∨
    (∃ ch arr rest sl, s.pending = .supply ch arr :: rest ∧ s.channels[ch]? = some sl ∧
      t = (s.setPending rest).setSlot ch
            ⟨sl.unit, { sl.transport with arrivals := sl.transport.arrivals ++ arr }⟩) ∨
    (∃ r rest i, s.pending = .issue r :: rest ∧ fetch r s = .ok i ∧
      exec i (s.setPending rest) = .next t) := by
  unfold step at h
  split at h
  · cases h
    exact .inl ⟨‹_›, rfl⟩
  · rename_i c rest hp
    by_cases hc : ChannelInputOk s.build c
    · rw [constructChannel_ok c (s.setPending rest) hc] at h
      cases h
      exact .inr (.inl ⟨c, rest, hp, hc, rfl⟩)
    · rw [constructChannel_refused c (s.setPending rest) hc] at h
      cases h
  · rename_i ch arr rest hp
    obtain ⟨sl, hs, h⟩ := onChannel_next _ _ _ _ h
    cases h
    exact .inr (.inr (.inl ⟨ch, arr, rest, sl, hp, hs, rfl⟩))
  · rename_i r rest hp
    split at h
    · cases h
    · exact .inr (.inr (.inr ⟨r, rest, _, hp, ‹_›, h⟩))

/-! The meanings on a constructed channel. -/

section
variable {s : State} {ch : Nat} {sl : Slot} (h : s.channels[ch]? = some sl)
include h

theorem execPollLine_eq (hk : sl.unit.kind = .line) :
    execPollLine ch s = pollWith lineStep ch sl s := by
  rw [execPollLine, onChannel_some _ _ _ _ h, if_pos hk]

theorem execPollBin_eq (hk : sl.unit.kind = .bin) :
    execPollBin ch s = pollWith (binStep s.build) ch sl s := by
  rw [execPollBin, onChannel_some _ _ _ _ h, if_pos hk]

theorem execReset_eq :
    execReset ch s =
      .next ((s.setSlot ch ⟨sl.unit.resetReader, sl.transport⟩).report .nothing) := by
  rw [execReset, onChannel_some _ _ _ _ h]

theorem execData_eq : execData ch s = .next (s.report (.bytes (sl.unit.bytes ch))) := by
  rw [execData, onChannel_some _ _ _ _ h]

end

/-- Everything POLL.LINE that answers a next state can have done. -/
theorem execPollLine_next (s t : State) (ch : Nat) (h : execPollLine ch s = .next t) :
    ∃ sl, s.channels[ch]? = some sl ∧ sl.unit.kind = .line ∧
      pollWith lineStep ch sl s = .next t := by
  obtain ⟨sl, hs, h⟩ := onChannel_next _ _ _ _ h
  split at h
  · exact ⟨sl, hs, ‹_›, h⟩
  · cases h

/-- Everything POLL.BIN that answers a next state can have done. -/
theorem execPollBin_next (s t : State) (ch : Nat) (h : execPollBin ch s = .next t) :
    ∃ sl, s.channels[ch]? = some sl ∧ sl.unit.kind = .bin ∧
      pollWith (binStep s.build) ch sl s = .next t := by
  obtain ⟨sl, hs, h⟩ := onChannel_next _ _ _ _ h
  split at h
  · exact ⟨sl, hs, ‹_›, h⟩
  · cases h

/-- Everything RESET that answers a next state can have done. -/
theorem execReset_next (s t : State) (ch : Nat) (h : execReset ch s = .next t) :
    ∃ sl, s.channels[ch]? = some sl ∧
      t = (s.setSlot ch ⟨sl.unit.resetReader, sl.transport⟩).report .nothing := by
  obtain ⟨sl, hs, h⟩ := onChannel_next _ _ _ _ h
  cases h
  exact ⟨sl, hs, rfl⟩

/-- Everything DATA that answers a next state can have done. -/
theorem execData_next (s t : State) (ch : Nat) (h : execData ch s = .next t) :
    ∃ sl, s.channels[ch]? = some sl ∧ t = s.report (.bytes (sl.unit.bytes ch)) := by
  obtain ⟨sl, hs, h⟩ := onChannel_next _ _ _ _ h
  cases h
  exact ⟨sl, hs, rfl⟩

/-- Everything ENCODE.HEX that answers a next state can have done. -/
theorem execEncodeHex_next (s t : State) (ch : Nat) (tag : Tag) (sub : Int) (pay : List Byte)
    (len : Int) (h : execEncodeHex ch tag sub pay len s = .next t) :
    ∃ sl, s.channels[ch]? = some sl ∧ sl.unit.hexmode = true ∧ EncodeHexOk sub pay len ∧
      t = s.report (.message (hexMessage tag sub pay len)) := by
  obtain ⟨sl, hs, h⟩ := onChannel_next _ _ _ _ h
  split at h
  · cases h
  · split at h
    · cases h
    · split at h
      · cases h
      · split at h
        · cases h
        · cases h
          exact ⟨sl, hs, by simpa using ‹¬ sl.unit.hexmode = false›,
            ⟨not_not.mp ‹_›, not_not.mp ‹_›, by omega⟩, rfl⟩

/-- Everything ENCODE.LIT that answers a next state can have done. -/
theorem execEncodeLit_next (s t : State) (ch : Nat) (tag : Tag) (sub : Int) (pay : List Byte)
    (len : Int) (h : execEncodeLit ch tag sub pay len s = .next t) :
    ∃ sl, s.channels[ch]? = some sl ∧ sl.unit.hexmode = false ∧ EncodeLitOk sub pay len ∧
      t = s.report (.message (litMessage tag sub pay len)) := by
  obtain ⟨sl, hs, h⟩ := onChannel_next _ _ _ _ h
  split at h
  · cases h
  · split at h
    · cases h
    · split at h
      · cases h
      · split at h
        · cases h
        · cases h
          exact ⟨sl, hs, by simpa using ‹¬ sl.unit.hexmode = true›,
            ⟨not_not.mp ‹_›, not_not.mp ‹_›, by omega⟩, rfl⟩

/-- ENCODE.HEX on operands in range (R163). -/
theorem execEncodeHex_ok (s : State) (ch : Nat) (sl : Slot) (tag : Tag) (sub : Int)
    (pay : List Byte) (len : Int) (hs : s.channels[ch]? = some sl)
    (hm : sl.unit.hexmode = true) (h : EncodeHexOk sub pay len) :
    execEncodeHex ch tag sub pay len s = .next (s.report (.message (hexMessage tag sub pay len))) := by
  obtain ⟨h1, h2, h3⟩ := h
  rw [execEncodeHex, onChannel_some _ _ _ _ hs, if_neg (by simp [hm]), if_neg (not_not.mpr h1),
    if_neg (not_not.mpr h2), if_neg (by omega)]

/-- ENCODE.LIT on operands in range (R164). -/
theorem execEncodeLit_ok (s : State) (ch : Nat) (sl : Slot) (tag : Tag) (sub : Int)
    (pay : List Byte) (len : Int) (hs : s.channels[ch]? = some sl)
    (hm : sl.unit.hexmode = false) (h : EncodeLitOk sub pay len) :
    execEncodeLit ch tag sub pay len s = .next (s.report (.message (litMessage tag sub pay len))) := by
  obtain ⟨h1, h2, h3⟩ := h
  rw [execEncodeLit, onChannel_some _ _ _ _ hs, if_neg (by simp [hm]), if_neg (not_not.mpr h1),
    if_neg (not_not.mpr h2), if_neg (by omega)]

/-- DECODE on operands in range, by what the scanner answers (R180). -/
theorem execDecode_ok (s : State) (src : Source) (bs : List Byte) (srcLen dmax : Int)
    (dst : DestNames) (hs : sourceBytes src s = some bs) (h : DecodeOk bs.length srcLen dmax) :
    execDecode src srcLen ⟨dmax, dst⟩ s =
      match parseMessage s.build dmax.toNat (bs.take srcLen.toNat) with
      | .error st => .next ((s.setDests (s.dests.unspecified dst)).report (.decode st none))
      | .ok m =>
        .next ((s.setDests (s.dests.deliver dst m)).report
          (.decode (m.pay.length : Int) (some m))) := by
  unfold execDecode
  rw [hs]
  exact if_neg (not_not.mpr h)

/-- Everything DECODE that answers a next state can have done. -/
theorem execDecode_next (s t : State) (src : Source) (srcLen : Int)
    (dst : Destinations) (h : execDecode src srcLen dst s = .next t) :
    ∃ bs, sourceBytes src s = some bs ∧ DecodeOk bs.length srcLen dst.dmax ∧
      ((∃ st, parseMessage s.build dst.dmax.toNat (bs.take srcLen.toNat) = .error st ∧
          t = (s.setDests (s.dests.unspecified dst.names)).report (.decode st none)) ∨
        (∃ m, parseMessage s.build dst.dmax.toNat (bs.take srcLen.toNat) = .ok m ∧
          t = (s.setDests (s.dests.deliver dst.names m)).report
                (.decode (m.pay.length : Int) (some m)))) := by
  unfold execDecode at h
  split at h
  · cases h
  · rename_i bs hs
    split at h
    · cases h
    · rename_i hr
      refine ⟨bs, hs, not_not.mp hr, ?_⟩
      split at h
      · cases h
        exact .inl ⟨_, ‹_›, rfl⟩
      · cases h
        exact .inr ⟨_, ‹_›, rfl⟩

end Sys2Proof.Machine
end

