-- ==== Sys2Proof/Laws/Scan.lean ====
section
/-!
SUPPORT. The scanner of DECODE, one spec lemma per function: what it answers on a field that is well
formed, and what stood in the input when it answers a value.
-/

namespace Sys2Proof.Machine

@[simp] theorem rd_nil (e : DecodeCodes) : rd e [] = .error e.truncated := rfl
@[simp] theorem rd_cons (e : DecodeCodes) (b : Byte) (bs : List Byte) :
    rd e (b :: bs) = .ok (b, bs) := rfl

theorem rd_ok (e : DecodeCodes) (bs rest : List Byte) (b : Byte) (h : rd e bs = .ok (b, rest)) :
    bs = b :: rest := by
  cases bs with
  | nil => cases h
  | cons x xs => cases h; rfl

@[simp] theorem rdIf_nil (e : DecodeCodes) (ok : Byte → Bool) (err : Int) :
    rdIf e ok err [] = .error e.truncated := rfl

theorem rdIf_cons (e : DecodeCodes) (ok : Byte → Bool) (err : Int) (b : Byte) (bs : List Byte) :
    rdIf e ok err (b :: bs) = if ok b then .ok (b, bs) else .error err := rfl

theorem rdIf_ok (e : DecodeCodes) (ok : Byte → Bool) (err : Int) (bs rest : List Byte) (b : Byte)
    (h : rdIf e ok err bs = .ok (b, rest)) : bs = b :: rest ∧ ok b = true := by
  cases bs with
  | nil => cases h
  | cons x xs =>
    rw [rdIf_cons] at h
    split at h
    · cases h; exact ⟨rfl, ‹_›⟩
    · cases h

/-- A read with a check ends with TRUNCATED or the check's own code. -/
theorem rdIf_error (e : DecodeCodes) (ok : Byte → Bool) (err st : Int) (bs : List Byte)
    (h : rdIf e ok err bs = .error st) : st = e.truncated ∨ st = err := by
  cases bs with
  | nil => cases h; exact .inl rfl
  | cons x xs =>
    rw [rdIf_cons] at h
    split at h
    · cases h
    · cases h; exact .inr rfl

theorem rdSpace_cons (e : DecodeCodes) (err : Int) (b : Byte) (bs : List Byte) :
    rdSpace e err (b :: bs) = if b == chSP then .ok (b, bs) else .error err := rfl

@[simp] theorem rdSpace_SP (e : DecodeCodes) (err : Int) (bs : List Byte) :
    rdSpace e err (chSP :: bs) = .ok (chSP, bs) := rfl

theorem rdSpace_ok (e : DecodeCodes) (err : Int) (bs rest : List Byte) (b : Byte)
    (h : rdSpace e err bs = .ok (b, rest)) : bs = chSP :: rest := by
  obtain ⟨h1, h2⟩ := rdIf_ok _ _ _ _ _ _ h
  rw [h1, show b = chSP from by simpa using h2]

/-! Bind of a scanner's answer. -/

/-- A sequence of scans that answers a value: its first scan did, and the rest did on its value. -/
theorem except_bind_ok {α β : Type} (x : Except Int α) (f : α → Except Int β) (b : β)
    (h : (x >>= f) = .ok b) : ∃ a, x = .ok a ∧ f a = .ok b := by
  cases x with
  | error e => cases h
  | ok a => exact ⟨a, rfl, h⟩

/-- A sequence of scans that ends with a status: its first scan did, or the rest did on its value. -/
theorem except_bind_error {α β : Type} (x : Except Int α) (f : α → Except Int β) (st : Int)
    (h : (x >>= f) = .error st) : x = .error st ∨ ∃ a, x = .ok a ∧ f a = .error st := by
  cases x with
  | error e => cases h; exact .inl rfl
  | ok a => exact .inr ⟨a, rfl, h⟩

@[simp] theorem ok_bind {α β : Type} (a : α) (f : α → Except Int β) :
    ((Except.ok a : Except Int α) >>= f) = f a := rfl

@[simp] theorem error_bind {α β : Type} (st : Int) (f : α → Except Int β) :
    ((Except.error st : Except Int α) >>= f) = .error st := rfl

@[simp] theorem pure_ok {α : Type} (a : α) : (pure a : Except Int α) = .ok a := rfl

/-! The tag and subcode. -/

theorem scanHead_ok (e : DecodeCodes) (tag : Tag) (d : Byte) (rest : List Byte)
    (hd : isDig d = true) :
    scanHead e (tag.t0 :: tag.t1 :: chSP :: d :: chSP :: rest) = .ok ((tag, digVal d), rest) := by
  simp [scanHead, rdIf_cons, hd]

theorem scanHead_inv (e : DecodeCodes) (bs rest : List Byte) (tag : Tag) (sub : Nat)
    (h : scanHead e bs = .ok ((tag, sub), rest)) :
    ∃ d, bs = tag.t0 :: tag.t1 :: chSP :: d :: chSP :: rest ∧ isDig d = true ∧ sub = digVal d := by
  unfold scanHead at h
  obtain ⟨⟨t0, b1⟩, h1, h⟩ := except_bind_ok _ _ _ h
  obtain ⟨⟨t1, b2⟩, h2, h⟩ := except_bind_ok _ _ _ h
  obtain ⟨⟨x, b3⟩, h3, h⟩ := except_bind_ok _ _ _ h
  obtain ⟨⟨d, b4⟩, h4, h⟩ := except_bind_ok _ _ _ h
  obtain ⟨⟨y, b5⟩, h5, h⟩ := except_bind_ok _ _ _ h
  cases h
  obtain ⟨rfl, hd⟩ := rdIf_ok _ _ _ _ _ _ h4
  refine ⟨d, ?_, hd, rfl⟩
  rw [rd_ok _ _ _ _ h1, rd_ok _ _ _ _ h2, rdSpace_ok _ _ _ _ _ h3, rdSpace_ok _ _ _ _ _ h5]

theorem scanHead_error (e : DecodeCodes) (bs : List Byte) (st : Int)
    (h : scanHead e bs = .error st) : st ∈ e.toList := by
  have tr : e.truncated ∈ e.toList := by simp [DecodeCodes.toList]
  have rdt : ∀ bs, rd e bs = .error st → st ∈ e.toList := by
    intro bs h
    cases bs with
    | nil => cases h; exact tr
    | cons => cases h
  have rif : ∀ ok err bs, rdIf e ok err bs = .error st → err ∈ e.toList → st ∈ e.toList := by
    intro ok err bs h he
    rcases rdIf_error _ _ _ _ _ h with rfl | rfl
    · exact tr
    · exact he
  unfold scanHead at h
  rcases except_bind_error _ _ _ h with h | ⟨⟨t0, b1⟩, -, h⟩
  · exact rdt _ h
  rcases except_bind_error _ _ _ h with h | ⟨⟨t1, b2⟩, -, h⟩
  · exact rdt _ h
  rcases except_bind_error _ _ _ h with h | ⟨⟨x, b3⟩, -, h⟩
  · exact rif _ _ _ h (by simp [DecodeCodes.toList])
  rcases except_bind_error _ _ _ h with h | ⟨⟨d, b4⟩, -, h⟩
  · exact rif _ _ _ h (by simp [DecodeCodes.toList])
  rcases except_bind_error _ _ _ h with h | ⟨⟨y, b5⟩, -, h⟩
  · exact rif _ _ _ h (by simp [DecodeCodes.toList])
  cases h

/-! The length field. -/

theorem numVal_foldl (ds : List Byte) :
    ∀ L : Nat, ds.foldl (fun n d => 10 * n + digVal d) L = L * 10 ^ ds.length + numVal ds := by
  induction ds with
  | nil => intro L; simp [numVal]
  | cons d ds ih =>
    intro L
    rw [numVal, List.foldl_cons, List.foldl_cons, ih, ih]
    simp [pow_succ]
    ring

/-- A digit is no `-` and no SP. -/
theorem isDig_ne (x : Byte) (h : isDig x = true) : x ≠ chMinus ∧ x ≠ chSP := by
  revert x; decide

theorem scanDigits_ok (e : DecodeCodes) (c : Byte) (rest : List Byte) :
    ∀ (ds : List Byte) (more L : Nat), (∀ x ∈ ds, isDig x = true) → ds.length ≤ more →
      (ds.length < more → isDig c = false) →
      scanDigits e more L (ds ++ c :: rest) =
        .ok ((ds.foldl (fun n d => 10 * n + digVal d) L, c), rest) := by
  intro ds
  induction ds with
  | nil =>
    intro more L _ _ hc
    cases more with
    | zero => simp [scanDigits]
    | succ k => simp [scanDigits, hc (by simp)]
  | cons d ds ih =>
    intro more L hd hl hc
    cases more with
    | zero => simp at hl
    | succ k =>
      rw [List.cons_append, scanDigits, rd_cons, ok_bind]
      simp only [hd d List.mem_cons_self, if_true]
      rw [ih k _ (fun x hx => hd x (List.mem_cons_of_mem _ hx)) (by simpa using hl)
        (fun h => hc (by simpa using h))]
      rfl

theorem scanDigits_inv (e : DecodeCodes) (c : Byte) (rest : List Byte) :
    ∀ (more L M : Nat) (bs : List Byte), scanDigits e more L bs = .ok ((M, c), rest) →
      ∃ ds : List Byte, bs = ds ++ c :: rest ∧ (∀ x ∈ ds, isDig x = true) ∧ ds.length ≤ more ∧
        (ds.length < more → isDig c = false) ∧
        M = ds.foldl (fun n d => 10 * n + digVal d) L := by
  intro more
  induction more with
  | zero =>
    intro L M bs h
    rw [scanDigits] at h
    obtain ⟨⟨b, r⟩, h1, h⟩ := except_bind_ok _ _ _ h
    cases h
    exact ⟨[], rd_ok _ _ _ _ h1, by simp, by simp, by simp, rfl⟩
  | succ k ih =>
    intro L M bs h
    rw [scanDigits] at h
    obtain ⟨⟨b, r⟩, h1, h⟩ := except_bind_ok _ _ _ h
    simp only at h
    split at h
    · rename_i hb
      obtain ⟨ds, rfl, h2, h3, h4, rfl⟩ := ih _ _ _ h
      refine ⟨b :: ds, rd_ok _ _ _ _ h1, ?_, by simpa using h3, fun hl => h4 (by simpa using hl), rfl⟩
      intro x hx
      rcases List.mem_cons.mp hx with rfl | hx
      · exact hb
      · exact h2 x hx
    · rename_i hb
      cases h
      exact ⟨[], rd_ok _ _ _ _ h1, by simp, by simp, fun _ => by simpa using hb, rfl⟩

theorem scanDigits_error (e : DecodeCodes) (st : Int) :
    ∀ (more L : Nat) (bs : List Byte), scanDigits e more L bs = .error st → st = e.truncated := by
  intro more
  induction more with
  | zero =>
    intro L bs h
    cases bs with
    | nil => cases h; rfl
    | cons b bs => cases h
  | succ k ih =>
    intro L bs h
    cases bs with
    | nil => cases h; rfl
    | cons b bs =>
      rw [scanDigits, rd_cons, ok_bind] at h
      simp only at h
      split at h
      · exact ih _ _ h
      · cases h

/-- The bytes of the mode marker (R186). -/
def modeBytes (hex : Bool) : List Byte := if hex then [chMinus] else []

theorem scanMode_ok (e : DecodeCodes) (hex : Bool) (c : Byte) (rest : List Byte)
    (hc : hex = false → c ≠ chMinus) :
    scanMode e (modeBytes hex ++ c :: rest) = .ok ((hex, c), rest) := by
  cases hex with
  | true => simp [scanMode, modeBytes]
  | false => simp [scanMode, modeBytes, hc rfl]

theorem scanMode_inv (e : DecodeCodes) (bs rest : List Byte) (hex : Bool) (c : Byte)
    (h : scanMode e bs = .ok ((hex, c), rest)) : bs = modeBytes hex ++ c :: rest := by
  unfold scanMode at h
  obtain ⟨⟨b, r⟩, h1, h⟩ := except_bind_ok _ _ _ h
  simp only at h
  split at h
  · subst_vars
    obtain ⟨⟨b', r'⟩, h2, h⟩ := except_bind_ok _ _ _ h
    cases h
    rw [rd_ok _ _ _ _ h1, rd_ok _ _ _ _ h2]
    rfl
  · cases h
    exact rd_ok _ _ _ _ h1

/-- The length field of a message (R186..R188). -/
theorem scanLength_ok (e : DecodeCodes) (hex : Bool) (ds rest : List Byte) (h : LengthField ds) :
    scanLength e (modeBytes hex ++ ds ++ chSP :: rest) = .ok ((hex, numVal ds), rest) := by
  obtain ⟨⟨h1, h2⟩, hd⟩ := h
  obtain ⟨d, ds, rfl⟩ : ∃ d ds', ds = d :: ds' := by
    cases ds with
    | nil => simp at h1
    | cons d ds => exact ⟨d, ds, rfl⟩
  have hdd := hd d List.mem_cons_self
  rw [scanLength, List.append_assoc, List.cons_append,
    scanMode_ok e hex d _ fun _ => (isDig_ne d hdd).1, ok_bind]
  simp only [hdd, if_true]
  rw [scanDigits_ok e chSP rest ds 3 _ (fun x hx => hd x (List.mem_cons_of_mem _ hx))
    (by simp only [List.length_cons] at h2; omega) (fun _ => by decide), ok_bind]
  simp [numVal]

theorem scanLength_inv (e : DecodeCodes) (bs rest : List Byte) (hex : Bool) (L : Nat)
    (h : scanLength e bs = .ok ((hex, L), rest)) :
    ∃ ds, bs = modeBytes hex ++ ds ++ chSP :: rest ∧ LengthField ds ∧ L = numVal ds := by
  unfold scanLength at h
  obtain ⟨⟨⟨hx, c⟩, b1⟩, h1, h⟩ := except_bind_ok _ _ _ h
  simp only at h
  split at h
  · rename_i hc
    obtain ⟨⟨⟨M, c'⟩, b2⟩, h2, h⟩ := except_bind_ok _ _ _ h
    simp only at h
    split at h
    · rename_i hsp
      cases h
      subst hsp
      obtain ⟨ds, rfl, h3, h4, -, rfl⟩ := scanDigits_inv _ _ _ _ _ _ _ h2
      refine ⟨c :: ds, ?_, ⟨⟨by simp, by simp only [List.length_cons]; omega⟩, ?_⟩, ?_⟩
      · rw [scanMode_inv _ _ _ _ _ h1]; simp
      · intro x hx
        rcases List.mem_cons.mp hx with rfl | hx
        · exact hc
        · exact h3 x hx
      · simp [numVal]
    · cases h
  · cases h

theorem scanLength_error (e : DecodeCodes) (bs : List Byte) (st : Int)
    (h : scanLength e bs = .error st) : st ∈ e.toList := by
  have tr : e.truncated ∈ e.toList := by simp [DecodeCodes.toList]
  have rdt : ∀ bs, rd e bs = .error st → st ∈ e.toList := by
    intro bs h
    cases bs with
    | nil => cases h; exact tr
    | cons => cases h
  unfold scanLength at h
  rcases except_bind_error _ _ _ h with h | ⟨⟨⟨hx, c⟩, b1⟩, -, h⟩
  · unfold scanMode at h
    rcases except_bind_error _ _ _ h with h | ⟨⟨b, r⟩, -, h⟩
    · exact rdt _ h
    · simp only at h
      split at h
      · rcases except_bind_error _ _ _ h with h | ⟨⟨b', r'⟩, -, h⟩
        · exact rdt _ h
        · cases h
      · cases h
  · simp only at h
    split at h
    · rcases except_bind_error _ _ _ h with h | ⟨⟨⟨M, c'⟩, b2⟩, -, h⟩
      · rw [scanDigits_error _ _ _ _ _ h]; exact tr
      · simp only at h
        split at h
        · cases h
        · cases h; simp [DecodeCodes.toList]
    · cases h; simp [DecodeCodes.toList]

/-! The payload. -/

theorem scanPair_ok (p : Build) (err : Int) (h l : Byte) (rest : List Byte)
    (hh : isHex p.hexLowerOk h = true) (hl : isHex p.hexLowerOk l = true) :
    scanPair p err (h :: l :: rest) = .ok (hexPair h l, rest) := by
  simp [scanPair, rdIf_cons, hh, hl]

theorem scanPair_inv (p : Build) (err : Int) (bs rest : List Byte) (b : Byte)
    (h : scanPair p err bs = .ok (b, rest)) :
    ∃ h l, bs = h :: l :: rest ∧ isHex p.hexLowerOk h = true ∧ isHex p.hexLowerOk l = true ∧
      b = hexPair h l := by
  unfold scanPair at h
  obtain ⟨⟨x, b1⟩, h1, h⟩ := except_bind_ok _ _ _ h
  obtain ⟨⟨y, b2⟩, h2, h⟩ := except_bind_ok _ _ _ h
  cases h
  obtain ⟨rfl, h3⟩ := rdIf_ok _ _ _ _ _ _ h1
  obtain ⟨rfl, h4⟩ := rdIf_ok _ _ _ _ _ _ h2
  exact ⟨x, y, rfl, h3, h4, rfl⟩

theorem scanPair_error (p : Build) (err st : Int) (bs : List Byte)
    (h : scanPair p err bs = .error st) : st = p.decErr.truncated ∨ st = err := by
  unfold scanPair at h
  rcases except_bind_error _ _ _ h with h | ⟨⟨x, b1⟩, -, h⟩
  · exact rdIf_error _ _ _ _ _ h
  · rcases except_bind_error _ _ _ h with h | ⟨⟨y, b2⟩, -, h⟩
    · exact rdIf_error _ _ _ _ _ h
    · cases h

/-- A hex payload, then more of it: what the scanner reads first is the payload (R190). -/
theorem scanHexPayload_append (p : Build) (rest : List Byte) (n : Nat) :
    ∀ (pay text : List Byte), HexText p.hexLowerOk pay text →
      scanHexPayload p (pay.length + n) (text ++ rest) =
        (scanHexPayload p n rest).map (fun r => (pay ++ r.1, r.2)) := by
  intro pay
  induction pay with
  | nil =>
    intro text h
    obtain rfl : text = [] := h
    simp only [List.length_nil, Nat.zero_add, List.nil_append]
    cases scanHexPayload p n rest <;> rfl
  | cons b bs ih =>
    intro text h
    match text, h with
    | hh :: l :: sp :: text, h =>
      obtain ⟨h1, h2, rfl, rfl, h3⟩ := h
      rw [List.length_cons, show bs.length + 1 + n = bs.length + n + 1 by omega]
      simp only [List.cons_append, scanHexPayload, scanPair_ok p _ hh l _ h1 h2, ok_bind,
        rdSpace_SP]
      rw [ih text h3]
      cases scanHexPayload p n rest <;> rfl

theorem scanHexPayload_ok (p : Build) (rest pay text : List Byte)
    (h : HexText p.hexLowerOk pay text) :
    scanHexPayload p pay.length (text ++ rest) = .ok (pay, rest) := by
  have := scanHexPayload_append p rest 0 pay text h
  simpa [scanHexPayload, Except.map] using this

theorem scanHexPayload_inv (p : Build) (rest : List Byte) :
    ∀ (L : Nat) (bs pay : List Byte), scanHexPayload p L bs = .ok (pay, rest) →
      pay.length = L ∧ ∃ text, bs = text ++ rest ∧ HexText p.hexLowerOk pay text := by
  intro L
  induction L with
  | zero =>
    intro bs pay h
    cases h
    exact ⟨rfl, [], rfl, rfl⟩
  | succ L ih =>
    intro bs pay h
    rw [scanHexPayload] at h
    obtain ⟨⟨b, b1⟩, h1, h⟩ := except_bind_ok _ _ _ h
    obtain ⟨⟨x, b2⟩, h2, h⟩ := except_bind_ok _ _ _ h
    obtain ⟨⟨ps, b3⟩, h3, h⟩ := except_bind_ok _ _ _ h
    cases h
    obtain ⟨hl, text, rfl, ht⟩ := ih _ _ h3
    obtain ⟨hh, l, rfl, h4, h5, rfl⟩ := scanPair_inv _ _ _ _ _ h1
    refine ⟨by simp [hl], hh :: l :: chSP :: text, ?_, h4, h5, rfl, rfl, ht⟩
    rw [rdSpace_ok _ _ _ _ _ h2]
    rfl

theorem scanHexPayload_error (p : Build) (st : Int) :
    ∀ (L : Nat) (bs : List Byte), scanHexPayload p L bs = .error st → st ∈ p.decErr.toList := by
  intro L
  induction L with
  | zero => intro bs h; cases h
  | succ L ih =>
    intro bs h
    rw [scanHexPayload] at h
    rcases except_bind_error _ _ _ h with h | ⟨⟨b, b1⟩, -, h⟩
    · rcases scanPair_error _ _ _ _ h with rfl | rfl <;> simp [DecodeCodes.toList]
    rcases except_bind_error _ _ _ h with h | ⟨⟨x, b2⟩, -, h⟩
    · rcases rdIf_error _ _ _ _ _ h with rfl | rfl <;> simp [DecodeCodes.toList]
    rcases except_bind_error _ _ _ h with h | ⟨⟨ps, b3⟩, -, h⟩
    · exact ih _ h
    cases h

theorem scanRaw_ok (e : DecodeCodes) (rest : List Byte) :
    ∀ pay : List Byte, scanRaw e pay.length (pay ++ rest) = .ok (pay, rest) := by
  intro pay
  induction pay with
  | nil => rfl
  | cons b bs ih => simp [scanRaw, ih]

theorem scanRaw_inv (e : DecodeCodes) (rest : List Byte) :
    ∀ (L : Nat) (bs pay : List Byte), scanRaw e L bs = .ok (pay, rest) →
      pay.length = L ∧ bs = pay ++ rest := by
  intro L
  induction L with
  | zero => intro bs pay h; cases h; exact ⟨rfl, rfl⟩
  | succ L ih =>
    intro bs pay h
    rw [scanRaw] at h
    obtain ⟨⟨b, b1⟩, h1, h⟩ := except_bind_ok _ _ _ h
    obtain ⟨⟨ps, b2⟩, h2, h⟩ := except_bind_ok _ _ _ h
    cases h
    obtain ⟨hl, rfl⟩ := ih _ _ h2
    exact ⟨by simp [hl], rd_ok _ _ _ _ h1⟩

theorem scanRaw_error (e : DecodeCodes) (st : Int) :
    ∀ (L : Nat) (bs : List Byte), scanRaw e L bs = .error st → st = e.truncated := by
  intro L
  induction L with
  | zero => intro bs h; cases h
  | succ L ih =>
    intro bs h
    rw [scanRaw] at h
    rcases except_bind_error _ _ _ h with h | ⟨⟨b, b1⟩, -, h⟩
    · cases bs with
      | nil => cases h; rfl
      | cons => cases h
    rcases except_bind_error _ _ _ h with h | ⟨⟨ps, b2⟩, -, h⟩
    · exact ih _ h
    cases h

/-- The payload of a message, in its mode (R190, R191). -/
theorem scanPayload_ok (p : Build) (hex : Bool) (pay text rest : List Byte)
    (h : PayloadText p.hexLowerOk hex pay text) :
    scanPayload p hex pay.length (text ++ rest) = .ok (pay, rest) := by
  cases hex with
  | true => exact scanHexPayload_ok p rest pay text h
  | false =>
    obtain rfl : text = pay ++ [chSP] := h
    simp [scanPayload, scanRaw_ok]

theorem scanPayload_inv (p : Build) (hex : Bool) (L : Nat) (bs pay rest : List Byte)
    (h : scanPayload p hex L bs = .ok (pay, rest)) :
    pay.length = L ∧ ∃ text, bs = text ++ rest ∧ PayloadText p.hexLowerOk hex pay text := by
  cases hex with
  | true => exact scanHexPayload_inv p rest L bs pay h
  | false =>
    unfold scanPayload at h
    simp only [Bool.false_eq_true, if_false] at h
    obtain ⟨⟨ps, b1⟩, h1, h⟩ := except_bind_ok _ _ _ h
    obtain ⟨⟨x, b2⟩, h2, h⟩ := except_bind_ok _ _ _ h
    cases h
    obtain ⟨hl, hbs⟩ := scanRaw_inv _ _ _ _ _ h1
    have hsp : b1 = chSP :: b2 := rdSpace_ok _ _ _ _ _ h2
    exact ⟨hl, ps ++ [chSP], by rw [hbs, hsp]; simp, rfl⟩

theorem scanPayload_error (p : Build) (hex : Bool) (L : Nat) (bs : List Byte) (st : Int)
    (h : scanPayload p hex L bs = .error st) : st ∈ p.decErr.toList := by
  cases hex with
  | true => exact scanHexPayload_error p st L bs h
  | false =>
    unfold scanPayload at h
    simp only [Bool.false_eq_true, if_false] at h
    rcases except_bind_error _ _ _ h with h | ⟨⟨ps, b1⟩, -, h⟩
    · rw [scanRaw_error _ _ _ _ h]; simp [DecodeCodes.toList]
    rcases except_bind_error _ _ _ h with h | ⟨⟨x, b2⟩, -, h⟩
    · rcases rdIf_error _ _ _ _ _ h with rfl | rfl <;> simp [DecodeCodes.toList]
    cases h

/-! The checksum. -/

/-- The sum check covers the bytes before the checksum pair (R192). -/
theorem scanChecksum_ok (p : Build) (text tail : List Byte) (kh kl : Byte)
    (hh : isHex p.hexLowerOk kh = true) (hl : isHex p.hexLowerOk kl = true) :
    scanChecksum p (text ++ kh :: kl :: tail) (kh :: kl :: tail) =
      if sumBytes text + hexPair kh kl = 0x00#8 then .ok () else .error p.decErr.checksum := by
  rw [scanChecksum, scanPair_ok p _ kh kl tail hh hl, ok_bind]
  have : (text ++ kh :: kl :: tail).length - (kh :: kl :: tail).length = text.length := by simp
  simp only [this, List.take_left, sumCheck, beq_iff_eq, pure_ok]

theorem scanChecksum_inv (p : Build) (all bs : List Byte) (u : Unit)
    (h : scanChecksum p all bs = .ok u) :
    ∃ kh kl tail, bs = kh :: kl :: tail ∧ isHex p.hexLowerOk kh = true ∧
      isHex p.hexLowerOk kl = true ∧
      sumBytes (all.take (all.length - bs.length)) + hexPair kh kl = 0x00#8 := by
  unfold scanChecksum at h
  obtain ⟨⟨k, b1⟩, h1, h⟩ := except_bind_ok _ _ _ h
  obtain ⟨kh, kl, rfl, h2, h3, rfl⟩ := scanPair_inv _ _ _ _ _ h1
  simp only at h
  split at h
  · rename_i hs
    exact ⟨kh, kl, b1, rfl, h2, h3, by simpa [sumCheck] using hs⟩
  · cases h

theorem scanChecksum_error (p : Build) (all bs : List Byte) (st : Int)
    (h : scanChecksum p all bs = .error st) : st ∈ p.decErr.toList := by
  unfold scanChecksum at h
  rcases except_bind_error _ _ _ h with h | ⟨⟨k, b1⟩, -, h⟩
  · rcases scanPair_error _ _ _ _ h with rfl | rfl <;> simp [DecodeCodes.toList]
  simp only at h
  split at h
  · cases h
  · cases h; simp [DecodeCodes.toList]

/-! The whole message. -/

/-- The text of a message, as the scanner meets it. -/
theorem messageText_eq (tag : Tag) (sub : Byte) (hex : Bool) (digits text rest : List Byte) :
    messageText tag sub hex digits text ++ rest =
      tag.t0 :: tag.t1 :: chSP :: sub :: chSP ::
        (modeBytes hex ++ digits ++ chSP :: (text ++ rest)) := by
  simp [messageText, messageStart, modeBytes]

theorem parseMessage_error (p : Build) (dmax : Nat) (all : List Byte) (st : Int)
    (h : parseMessage p dmax all = .error st) : st ∈ p.decErr.toList := by
  unfold parseMessage at h
  rcases except_bind_error _ _ _ h with h | ⟨⟨⟨tag, sub⟩, b1⟩, -, h⟩
  · exact scanHead_error _ _ _ h
  rcases except_bind_error _ _ _ h with h | ⟨⟨⟨hex, L⟩, b2⟩, -, h⟩
  · exact scanLength_error _ _ _ h
  simp only at h
  split at h
  · cases h; simp [DecodeCodes.toList]
  rcases except_bind_error _ _ _ h with h | ⟨⟨pay, b3⟩, -, h⟩
  · exact scanPayload_error _ _ _ _ _ h
  rcases except_bind_error _ _ _ h with h | ⟨u, -, h⟩
  · exact scanChecksum_error _ _ _ _ h
  cases h

end Sys2Proof.Machine
end

