-- ==== Sys2Proof/Laws/Codec.lean ====
section
/-!
SUPPORT. The codec's shared pieces: sums, digits, the hex payload, and what DECODE does with a text
whose head and length field are valid.
-/

namespace Sys2Proof.Machine

/-- The checksum's sum is the sum of the bytes modulo 256 (R10). -/
theorem sumBytes_toNat (m : List Byte) : (sumBytes m).toNat = (m.map BitVec.toNat).sum % 256 := by
  induction m with
  | nil => rfl
  | cons b bs ih => simp [sumBytes, ih]

theorem sumBytes_append (a b : List Byte) : sumBytes (a ++ b) = sumBytes a + sumBytes b := by
  induction a with
  | nil => simp [sumBytes]
  | cons x a ih => simp [sumBytes, ih, BitVec.add_assoc]

/-- A hex digit's value is a nibble. -/
theorem nib_lt (lowerOk : Bool) (x : Byte) (h : isHex lowerOk x = true) : nib x < 16 := by
  revert x lowerOk; decide

/-- One more digit at the end of a decimal field (R84). -/
theorem numVal_concat (ds : List Byte) (d : Byte) :
    numVal (ds ++ [d]) = 10 * numVal ds + digVal d := by simp [numVal]

/-- The digit ENCODE writes for a value 0..9 is one DECODE reads as that value (R85). -/
theorem decDigit_spec (v : Nat) (h : v < 10) :
    isDig (decDigit v) = true ∧ digVal (decDigit v) = v := by
  revert v; decide

theorem hexPayload_eq_flatMap (pay : List Byte) :
    hexPayload pay = pay.flatMap (fun b => hex2 b ++ [chSP]) := by
  induction pay with
  | nil => rfl
  | cons b bs ih => simp [hexPayload, ih]

@[simp] theorem length_hexPayload (pay : List Byte) :
    (hexPayload pay).length = 3 * pay.length := by
  induction pay with
  | nil => rfl
  | cons b bs ih =>
    simp only [hexPayload, hex2, List.length_append, List.length_cons, List.length_nil, ih]
    omega

theorem messageText_split (tag : Tag) (sub : Byte) (hex : Bool) (digits text : List Byte) :
    messageText tag sub hex digits text = messageText tag sub hex digits [] ++ text := by
  simp [messageText]

/-- DECODE on a text with a valid head and length field: the bound, then the payload, then the
checksum (R189..R192). -/
theorem parseMessage_start (p : Build) (dmax : Nat) (tag : Tag) (sub : Byte) (hex : Bool)
    (digits rest : List Byte) (hs : isDig sub = true) (hd : LengthField digits) :
    parseMessage p dmax (messageText tag sub hex digits [] ++ rest) =
      (if dmax < numVal digits then .error p.decErr.lenRange
      else do
        let (pay, bs) ← scanPayload p hex (numVal digits) rest
        let _ ← scanChecksum p (messageText tag sub hex digits [] ++ rest) bs
        pure ⟨tag, BitVec.ofNat 8 (digVal sub), pay⟩) := by
  conv_lhs => unfold parseMessage
  rw [messageText_eq, scanHead_ok _ _ _ _ hs, ok_bind]
  simp only []
  rw [scanLength_ok _ _ _ _ hd, ok_bind]
  rfl

/-- DECODE on a text that is valid up to its checksum is the checksum's verdict (R192). -/
theorem parseMessage_text (p : Build) (dmax : Nat) (tag : Tag) (sub : Byte) (hex : Bool)
    (digits text pay rest : List Byte) (hs : isDig sub = true) (hd : LengthField digits)
    (hn : numVal digits = pay.length) (hl : pay.length ≤ dmax)
    (ht : PayloadText p.hexLowerOk hex pay text) :
    parseMessage p dmax (messageText tag sub hex digits text ++ rest) =
      (scanChecksum p (messageText tag sub hex digits text ++ rest) rest).map
        (fun _ => ⟨tag, BitVec.ofNat 8 (digVal sub), pay⟩) := by
  rw [messageText_split, List.append_assoc, parseMessage_start _ _ _ _ _ _ _ hs hd,
    if_neg (by omega), hn, scanPayload_ok _ _ _ _ _ ht, ok_bind]
  simp only []
  cases scanChecksum p (messageText tag sub hex digits [] ++ (text ++ rest)) rest <;> rfl

end Sys2Proof.Machine
end

