-- ==== Sys2Proof/Laws/Decode.lean ====
section
/-!
SUPPORT. The key table: an instruction's key selects its row whatever its free bits, and no two rows
share a key (R70).
-/

namespace Sys2Proof

/-- The key of a row, with any free bits, selects that row. -/
theorem selectOpcode_pattern (o : Opcode) (free : Key) :
    selectOpcode ((keyRow o).pattern ||| (free &&& ~~~(keyRow o).mask)) = some o := by
  revert free
  cases o <;> decide

theorem selectOpcode_encodeKey (i : Instr) (free : Key) :
    selectOpcode (encodeKey i free) = some i.opcode := selectOpcode_pattern i.opcode free

/-- A key that fits a row is that row's pattern with the key's own free bits. -/
theorem pattern_of_fits (o : Opcode) (k : Key) (h : o.fits k = true) :
    (keyRow o).pattern ||| (k &&& ~~~(keyRow o).mask) = k := by
  revert k
  cases o <;> decide

/-- The row a key selects is one it fits. -/
theorem fits_of_selectOpcode (k : Key) (o : Opcode) (h : selectOpcode k = some o) :
    o.fits k = true := by
  revert k
  cases o <;> decide

/-- No key fits two rows. -/
theorem fits_unique (k : Key) (o o' : Opcode) (h : o.fits k = true) (h' : o'.fits k = true) :
    o = o' := by
  revert k
  cases o <;> cases o' <;> decide

/-- The key of an instruction, whatever its free bits, fits the instruction's row and no other. -/
theorem fits_encodeKey (i : Instr) (free : Key) (o : Opcode) :
    o.fits (encodeKey i free) = true ↔ o = i.opcode := by
  have h := fits_of_selectOpcode _ _ (selectOpcode_encodeKey i free)
  exact ⟨fun ho => fits_unique _ _ _ ho h, fun ho => ho ▸ h⟩

end Sys2Proof
end

