-- ==== Sys2Proof/Laws/Exec.lean ====
section
/-!
SUPPORT. What one automaton step keeps, and what one instruction does to the channels.
-/

namespace Sys2Proof.Machine

/-- The guard the line reader uses is R22's terminator set. -/
theorem isTerminator_iff (T : BitVec 3) (b : Byte) :
    isTerminator T b = true ↔ InTerminatorSet T b := by
  simp [isTerminator, InTerminatorSet, chNUL, chLF, chCR, or_assoc]

/-- A step of the line reader: the configuration stays, no byte but the one at the cursor changes,
and a status other than 0 comes with a reset reader. -/
theorem lineStep_frame (c u : Channel) (b : Byte) (st : Int) (h : lineStep c b = .ok (u, st)) :
    SameConfig c u ∧ (∀ k, k ≠ c.cursor → u.buf.find k = c.buf.find k) ∧
      (st ≠ 0 → ReaderFields u 0 0x00#8 0x00#8) := by
  obtain ⟨-, h | h | h⟩ := lineStep_cases _ _ _ _ h
  · obtain ⟨-, rfl, rfl⟩ := h
    exact ⟨by simp [SameConfig], fun k hk => Channel.find_put_of_ne _ _ _ _ hk,
      fun _ => ⟨rfl, rfl, rfl⟩⟩
  · obtain ⟨-, -, rfl, rfl⟩ := h
    exact ⟨by simp [SameConfig], fun k hk => Channel.find_put_of_ne _ _ _ _ hk,
      fun _ => ⟨rfl, rfl, rfl⟩⟩
  · obtain ⟨-, -, rfl, rfl⟩ := h
    exact ⟨by simp [SameConfig], fun k hk => Channel.find_put_of_ne _ _ _ _ hk,
      fun h => absurd rfl h⟩

/-- A step of the binary reader: the configuration stays, no byte but the one at the cursor changes,
and a status other than 0 comes with a reset reader. -/
theorem binStep_frame (p : Build) (c u : Channel) (b : Byte) (st : Int)
    (h : binStep p c b = .ok (u, st)) :
    SameConfig c u ∧ (∀ k, k ≠ c.cursor → u.buf.find k = c.buf.find k) ∧
      (st ≠ 0 → ReaderFields u 0 0x00#8 0x00#8) := by
  rcases binStep_cases _ _ _ _ _ h with ⟨hc, h⟩ | ⟨hc, h⟩ | ⟨hc, h⟩ | ⟨_, _, _, h⟩ | ⟨_, _, _, h⟩
  · unfold binHeader0 at h
    split at h <;> cases h
    · exact ⟨by simp [SameConfig], fun k hk => rfl, fun _ => ⟨rfl, rfl, rfl⟩⟩
    · exact ⟨by simp [SameConfig], fun k hk => Channel.find_put_of_ne _ _ _ _ (hc ▸ hk),
        fun h => absurd rfl h⟩
  · unfold binHeader1 at h
    split at h <;> cases h
    · exact ⟨by simp [SameConfig], fun k hk => rfl, fun _ => ⟨rfl, rfl, rfl⟩⟩
    · exact ⟨by simp [SameConfig], fun k hk => Channel.find_put_of_ne _ _ _ _ (hc ▸ hk),
        fun h => absurd rfl h⟩
  · unfold binLength at h
    split at h <;> cases h
    · exact ⟨by simp [SameConfig], fun k hk => rfl, fun _ => ⟨rfl, rfl, rfl⟩⟩
    · exact ⟨by simp [SameConfig], fun k hk => Channel.find_put_of_ne _ _ _ _ (hc ▸ hk),
        fun h => absurd rfl h⟩
  · cases h
    exact ⟨by simp [SameConfig], fun k hk => Channel.find_put_of_ne _ _ _ _ hk,
      fun h => absurd rfl h⟩
  · cases h
    exact ⟨by simp [SameConfig], fun k hk => Channel.find_put_of_ne _ _ _ _ hk,
      fun _ => ⟨rfl, rfl, rfl⟩⟩

theorem Channel.resetReader_inv (p : Build) (c : Channel) (hi : c.Inv p) :
    c.resetReader.Inv p := by
  obtain ⟨hc, hw, hb, -, -⟩ := hi
  exact ⟨hc, hw, hb, fun _ => ⟨by simp; omega, rfl, rfl⟩, fun _ => .inl ⟨by simp, rfl, rfl⟩⟩

/-- A step of the line reader keeps the channel's invariant and its status is within -C..C. -/
theorem lineStep_inv (p : Build) (c u : Channel) (b : Byte) (st : Int) (hk : c.kind = .line)
    (h : lineStep c b = .ok (u, st)) (hi : c.Inv p) :
    u.Inv p ∧ (-(c.C : Int) ≤ st ∧ st ≤ (c.C : Int)) := by
  obtain ⟨hc, hw, hb, hl, -⟩ := hi
  obtain ⟨-, hcount, hsum⟩ := hl hk
  have wf : ∀ (i : Nat) (x : Byte), (c.put i x).buf.wf := fun i x => Channel.put_wf _ _ _ hw
  have bl : ∀ (i : Nat) (x : Byte), (c.put i x).buf.below c.C := fun i x => by
    simpa using Channel.put_below _ _ _ hb
  obtain ⟨hcc, h | h | h⟩ := lineStep_cases _ _ _ _ h
  · obtain ⟨-, rfl, rfl⟩ := h
    exact ⟨⟨by simpa [Channel.ConfigOk] using hc, wf _ _, by simpa using bl _ _,
      fun _ => ⟨by simp; omega, rfl, rfl⟩, fun _ => .inl ⟨by simp, rfl, rfl⟩⟩, by omega⟩
  · obtain ⟨-, -, rfl, rfl⟩ := h
    exact ⟨⟨by simpa [Channel.ConfigOk] using hc, wf _ _, by simpa using bl _ _,
      fun _ => ⟨by simp; omega, rfl, rfl⟩, fun _ => .inl ⟨by simp, rfl, rfl⟩⟩, by omega⟩
  · obtain ⟨-, _, rfl, rfl⟩ := h
    exact ⟨⟨by simpa [Channel.ConfigOk] using hc, wf _ _, by simpa using bl _ _,
      fun _ => ⟨by simp; omega, by simpa using hcount, by simpa using hsum⟩,
      fun h => by simp [hk] at h⟩, by omega⟩

/-- A step of the binary reader keeps the channel's invariant and its status is in R12's range. -/
theorem binStep_inv (p : Build) (hp : p.Ok) (c u : Channel) (b : Byte) (st : Int)
    (hk : c.kind = .bin) (h : binStep p c b = .ok (u, st)) (hi : c.Inv p) :
    u.Inv p ∧ StatusOk st := by
  have reset := Channel.resetReader_inv p c hi
  obtain ⟨hc, hw, hb, -, hbn⟩ := hi
  obtain ⟨hp1, hp2, hp3, -⟩ := hp
  have hbn := hbn hk
  have wf : ∀ (i : Nat) (x : Byte), (c.put i x).buf.wf := fun i x => Channel.put_wf _ _ _ hw
  have bl : ∀ (i : Nat) (x : Byte), (c.put i x).buf.below c.C := fun i x => by
    simpa using Channel.put_below _ _ _ hb
  rcases binStep_cases _ _ _ _ _ h with ⟨hcu, h⟩ | ⟨hcu, h⟩ | ⟨hcu, h⟩ | ⟨_, _, _, h⟩ |
    ⟨_, _, _, h⟩
  · unfold binHeader0 at h
    split at h <;> cases h
    · exact ⟨reset, by unfold BinCode at *; omega⟩
    · obtain ⟨-, h1, h2⟩ := hbn.resolve_right (by omega)
      exact ⟨⟨by simpa [Channel.ConfigOk] using hc, wf _ _, by simpa using bl _ _,
        fun h => by simp [hk] at h,
        fun _ => .inl ⟨by simp, by simpa using h1, by simpa using h2⟩⟩, by omega⟩
  · unfold binHeader1 at h
    split at h <;> cases h
    · exact ⟨reset, by unfold BinCode at *; omega⟩
    · obtain ⟨-, h1, h2⟩ := hbn.resolve_right (by omega)
      exact ⟨⟨by simpa [Channel.ConfigOk] using hc, wf _ _, by simpa using bl _ _,
        fun h => by simp [hk] at h,
        fun _ => .inl ⟨by simp, by simpa using h1, by simpa using h2⟩⟩, by omega⟩
  · unfold binLength at h
    split at h <;> cases h
    · exact ⟨reset, by unfold BinCode at *; omega⟩
    · exact ⟨⟨by simpa [Channel.ConfigOk] using hc, wf _ _, by simpa using bl _ _,
        fun h => by simp [hk] at h, fun _ => .inr ⟨by simp, by simp, by simp; omega⟩⟩, by omega⟩
  · cases h
    obtain ⟨_, h1, h2⟩ := hbn.resolve_left (by omega)
    exact ⟨⟨by simpa [Channel.ConfigOk] using hc, wf _ _, by simpa using bl _ _,
      fun h => by simp [hk] at h,
      fun _ => .inr ⟨by simp; omega, by simp; omega, by simp; omega⟩⟩, by omega⟩
  · cases h
    refine ⟨⟨by simpa [Channel.ConfigOk] using hc, wf _ _, by simpa using bl _ _,
      fun h => by simp [hk] at h, fun _ => .inl ⟨by simp, rfl, rfl⟩⟩, ?_⟩
    have := c.count.isLt
    split <;> omega

/-- A POLL of either kind that answers a next state is `pollWith` of its channel's automaton. -/
theorem poll_next (i : Instr) (s t : State) (ch : Nat)
    (hi : i ∈ [Instr.pollLine ch, .pollBin ch]) (h : exec i s = .next t) :
    ∃ (sl : Slot) (reader : Channel → Byte → ReaderAnswer), s.channels[ch]? = some sl ∧
      ((reader = lineStep ∧ i = .pollLine ch ∧ sl.unit.kind = .line) ∨
        (reader = binStep s.build ∧ i = .pollBin ch ∧ sl.unit.kind = .bin)) ∧
      pollWith reader ch sl s = .next t := by
  simp only [List.mem_cons, List.not_mem_nil, or_false] at hi
  rcases hi with rfl | rfl
  · obtain ⟨sl, h1, h2, h3⟩ := execPollLine_next _ _ _ h
    exact ⟨sl, _, h1, .inl ⟨rfl, rfl, h2⟩, h3⟩
  · obtain ⟨sl, h1, h2, h3⟩ := execPollBin_next _ _ _ h
    exact ⟨sl, _, h1, .inr ⟨rfl, rfl, h2⟩, h3⟩

/-- Everything one instruction can do to the channels: nothing, or one channel's unit is reset or
took one automaton step (or none, without a byte), one arrival consumed. -/
theorem exec_channels (i : Instr) (s t : State) (h : exec i s = .next t) :
    t.build = s.build ∧ t.pending = s.pending ∧
    (t.channels = s.channels ∨
      ∃ ch sl u tr, s.channels[ch]? = some sl ∧ t.channels = s.channels.set ch ⟨u, tr⟩ ∧
        tr.begins = sl.transport.begins ∧
        ((i = .reset ch ∧ u = sl.unit.resetReader ∧ tr = sl.transport) ∨
          (i ∈ [Instr.pollLine ch, .pollBin ch] ∧
            ((sl.transport.arrivals.head?.join = none ∧ u = sl.unit) ∨
              ∃ b st, sl.transport.arrivals.head?.join = some b ∧
                ((sl.unit.kind = .line ∧ lineStep sl.unit b = .ok (u, st)) ∨
                  (sl.unit.kind = .bin ∧ binStep s.build sl.unit b = .ok (u, st))))))) := by
  have poll : ∀ ch, i ∈ [Instr.pollLine ch, .pollBin ch] →
      t.build = s.build ∧ t.pending = s.pending ∧
      ∃ sl u tr, s.channels[ch]? = some sl ∧ t.channels = s.channels.set ch ⟨u, tr⟩ ∧
        tr.begins = sl.transport.begins ∧
        ((sl.transport.arrivals.head?.join = none ∧ u = sl.unit) ∨
          ∃ b st, sl.transport.arrivals.head?.join = some b ∧
            ((sl.unit.kind = .line ∧ lineStep sl.unit b = .ok (u, st)) ∨
              (sl.unit.kind = .bin ∧ binStep s.build sl.unit b = .ok (u, st)))) := by
    intro ch hi
    obtain ⟨sl, reader, hs, hr, h⟩ := poll_next i s t ch hi h
    obtain ⟨u, st, hu, rfl⟩ := pollWith_next _ _ _ _ _ h
    refine ⟨rfl, rfl, sl, u, _, hs, rfl, rfl, ?_⟩
    rcases hu with ⟨hn, rfl, rfl⟩ | ⟨b, hb, hst⟩
    · exact .inl ⟨hn, rfl⟩
    · refine .inr ⟨b, st, hb, ?_⟩
      rcases hr with ⟨rfl, -, hk⟩ | ⟨rfl, -, hk⟩
      · exact .inl ⟨hk, hst⟩
      · exact .inr ⟨hk, hst⟩
  cases i with
  | pollLine ch =>
    obtain ⟨h1, h2, sl, u, tr, h3, h4, h5, h6⟩ := poll ch (by simp)
    exact ⟨h1, h2, .inr ⟨ch, sl, u, tr, h3, h4, h5, .inr ⟨by simp, h6⟩⟩⟩
  | pollBin ch =>
    obtain ⟨h1, h2, sl, u, tr, h3, h4, h5, h6⟩ := poll ch (by simp)
    exact ⟨h1, h2, .inr ⟨ch, sl, u, tr, h3, h4, h5, .inr ⟨by simp, h6⟩⟩⟩
  | reset ch =>
    obtain ⟨sl, hs, rfl⟩ := execReset_next _ _ _ h
    exact ⟨rfl, rfl, .inr ⟨ch, sl, _, _, hs, rfl, rfl, .inl ⟨rfl, rfl, rfl⟩⟩⟩
  | data ch =>
    obtain ⟨sl, hs, rfl⟩ := execData_next _ _ _ h
    exact ⟨rfl, rfl, .inl rfl⟩
  | encodeHex ch tag sub pay len =>
    obtain ⟨sl, hs, -, -, rfl⟩ := execEncodeHex_next _ _ _ _ _ _ _ h
    exact ⟨rfl, rfl, .inl rfl⟩
  | encodeLit ch tag sub pay len =>
    obtain ⟨sl, hs, -, -, rfl⟩ := execEncodeLit_next _ _ _ _ _ _ _ h
    exact ⟨rfl, rfl, .inl rfl⟩
  | decode src srcLen dst =>
    obtain ⟨bs, -, -, ⟨st, -, rfl⟩ | ⟨m, -, rfl⟩⟩ := execDecode_next _ _ _ _ _ h
    · exact ⟨rfl, rfl, .inl rfl⟩
    · exact ⟨rfl, rfl, .inl rfl⟩

end Sys2Proof.Machine
end

