-- ==== Sys2Proof/Laws/PerInstr.lean ====
section
/-!
SUPPORT. Statements about every instruction, one lemma per constructor. Family KeyRow: the key of an
instruction belongs to the instruction's row of R70's table and to no other row.
-/

namespace Sys2Proof.Laws.KeyRow

/-- Whatever its free bits, the instruction's key fits its own row and no other. -/
def Statement (i : Instr) : Prop :=
  ∀ (free : Key) (o : Opcode), o.fits (encodeKey i free) = true ↔ o = i.opcode

theorem pollLine (ch : Nat) : Statement (.pollLine ch) := fits_encodeKey _

theorem pollBin (ch : Nat) : Statement (.pollBin ch) := fits_encodeKey _

theorem reset (ch : Nat) : Statement (.reset ch) := fits_encodeKey _

theorem data (ch : Nat) : Statement (.data ch) := fits_encodeKey _

theorem encodeLit (ch : Nat) (tag : Tag) (sub : Int) (pay : List Byte) (len : Int) :
    Statement (.encodeLit ch tag sub pay len) := fits_encodeKey _

theorem encodeHex (ch : Nat) (tag : Tag) (sub : Int) (pay : List Byte) (len : Int) :
    Statement (.encodeHex ch tag sub pay len) := fits_encodeKey _

theorem decode (src : Source) (srcLen : Int) (dst : Destinations) :
    Statement (.decode src srcLen dst) := fits_encodeKey _

end Sys2Proof.Laws.KeyRow
end

