-- ==== Sys2Proof/Tests/Slice0.lean ====
section
/-!
SUPPORT. The model's own tests: ill-formed terms refused, keys written out from R70's table, one step
of each instruction against a vector of spec/95_test_vectors.md, and for every obligation that has
hypotheses a state and operands that meet them (`witness_<obligation>`), at the ends of their ranges.
-/

namespace Sys2Proof.Tests

open Sys2Proof.Machine

/-! Small states. -/

/-- A channel in the middle of a frame. -/
def slot (k : Kind) (C cursor : Nat) (count sum : Byte) (buf : Memory)
    (arrivals : List (Option Byte)) : Slot :=
  { unit :=
      { kind := k, C := C, id := 0, hexmode := false, T := 0b111#3, cursor := cursor,
        count := count, sum := sum, buf := buf }
    transport := { arrivals := arrivals, begins := [9600] } }

/-- A LINE channel with `cursor` content bytes and these bytes waiting. -/
def lineSlot (C cursor : Nat) (arrivals : List (Option Byte)) : Slot :=
  slot .line C cursor 0x00#8 0x00#8 [] arrivals

/-- The BIN channel of V-B1 after `FF 00 03 10 20 30` (sum 0x63), C = 16. -/
def binSlot (arrivals : List (Option Byte)) : Slot :=
  slot .bin 16 6 0x03#8 0x63#8
    [(0, 0xFF#8), (1, 0x00#8), (2, 0x03#8), (3, 0x10#8), (4, 0x20#8), (5, 0x30#8)] arrivals

/-- A LINE channel in hex mode. -/
def hexSlot : Slot :=
  { lineSlot 8 0 [] with unit := { (lineSlot 8 0 []).unit with hexmode := true } }

/-- The state with one channel. -/
def one (sl : Slot) : State := { State.reset with channels := [sl] }

/-- The state with one channel and one interaction to perform. -/
def doing (sl : Slot) (i : Interaction) : State := { one sl with pending := [i] }

/-- The results an answer's next state holds. -/
def resultsOf : Answer → List Result
  | .next s => s.results
  | .fault _ => []
  | .refused _ => []

/-- The buffer and the dynamic fields of channel 0 in an answer's next state. -/
def unitOf : Answer → Option (Memory × Nat × Byte × Byte)
  | .next s => (s.channels[0]?).map fun sl =>
      (sl.unit.buf, sl.unit.cursor, sl.unit.count, sl.unit.sum)
  | .fault _ => none
  | .refused _ => none

/-- Why an answer is refused. -/
def refusalOf : Answer → Option Refusal
  | .next _ => none
  | .fault _ => none
  | .refused r => some r

/-- The bytes of a string of ASCII characters. -/
def ascii (s : String) : List Byte := s.toList.map fun c => BitVec.ofNat 8 c.toNat

/-- The caller's first destinations. -/
def d0 : DestNames := ⟨0, 0, 0⟩

/-- The destinations an answer's next state holds. -/
def destsOf : Answer → Option Dests
  | .next s => some s.dests
  | .fault _ => none
  | .refused _ => none

/-- The message of W1, without its NUL. -/
def w1 : List Byte :=
  [0x52#8, 0x52#8, 0x20#8, 0x31#8, 0x20#8, 0x2D#8, 0x32#8, 0x20#8,
   0x30#8, 0x31#8, 0x20#8, 0x46#8, 0x46#8, 0x20#8, 0x33#8, 0x46#8]

/-- What W1 says. -/
def w1Says : Decoded := ⟨⟨0x52#8, 0x52#8⟩, 0x01#8, [0x01#8, 0xFF#8]⟩

/-- The message of V-E3, without its NUL. -/
def vE3 : List Byte :=
  [0x55#8, 0x53#8, 0x20#8, 0x32#8, 0x20#8, 0x32#8, 0x20#8, 0x68#8, 0x69#8, 0x20#8, 0x41#8, 0x33#8]

/-- What V-E3 says. -/
def vE3Says : Decoded := ⟨⟨0x55#8, 0x53#8⟩, 0x02#8, [0x68#8, 0x69#8]⟩

/-! Ill-formed terms, one for each check of R168 and R199. -/

theorem test_illformed_encodeLit :
    Instr.WellFormed (.encodeLit 0 ⟨0x55#8, 0x53#8⟩ 10 [0x00#8] 1) = false ∧
    Instr.WellFormed (.encodeLit 0 ⟨0x55#8, 0x53#8⟩ (-1) [0x00#8] 1) = false ∧
    Instr.WellFormed (.encodeLit 0 ⟨0x55#8, 0x53#8⟩ 2 [] 0) = false ∧
    Instr.WellFormed (.encodeLit 0 ⟨0x55#8, 0x53#8⟩ 2 [] 2) = false ∧
    Instr.WellFormed (.encodeLit 0 ⟨0x55#8, 0x53#8⟩ 2 [] 1) = true := by decide

theorem test_illformed_encodeLit_length (pay : List Byte) :
    Instr.WellFormed (.encodeLit 0 ⟨0x55#8, 0x53#8⟩ 2 pay 10001) = false := by
  simp [Instr.WellFormed]

theorem test_illformed_encodeHex :
    Instr.WellFormed (.encodeHex 0 ⟨0x52#8, 0x52#8⟩ 10 [] 0) = false ∧
    Instr.WellFormed (.encodeHex 0 ⟨0x52#8, 0x52#8⟩ (-1) [] 0) = false ∧
    Instr.WellFormed (.encodeHex 0 ⟨0x52#8, 0x52#8⟩ 1 [] (-1)) = false ∧
    Instr.WellFormed (.encodeHex 0 ⟨0x52#8, 0x52#8⟩ 1 [] 1) = false ∧
    Instr.WellFormed (.encodeHex 0 ⟨0x52#8, 0x52#8⟩ 9 [] 0) = true := by decide

theorem test_illformed_encodeHex_length (pay : List Byte) :
    Instr.WellFormed (.encodeHex 0 ⟨0x52#8, 0x52#8⟩ 1 pay 10000) = false := by
  simp [Instr.WellFormed]

theorem test_illformed_decode_bytes :
    Instr.WellFormed (.decode (.bytes [0x52#8]) (-1) ⟨0, d0⟩) = false ∧
    Instr.WellFormed (.decode (.bytes [0x52#8]) 2 ⟨0, d0⟩) = false ∧
    Instr.WellFormed (.decode (.bytes [0x52#8]) 1 ⟨-1, d0⟩) = false ∧
    Instr.WellFormed (.decode (.bytes [0x52#8]) 1 ⟨10000, d0⟩) = false ∧
    Instr.WellFormed (.decode (.bytes [0x52#8]) 1 ⟨9999, d0⟩) = true := by decide

theorem test_illformed_decode_buffer :
    Instr.WellFormed (.decode (.buffer 0) (-1) ⟨0, d0⟩) = false ∧
    Instr.WellFormed (.decode (.buffer 0) 1 ⟨-1, d0⟩) = false ∧
    Instr.WellFormed (.decode (.buffer 0) 1 ⟨10000, d0⟩) = false ∧
    Instr.WellFormed (.decode (.buffer 0) 32767 ⟨9999, d0⟩) = true := by decide

/-! Keys written out bit by bit from R70's table: K[4] HEXMODE, K[3] KIND, K[2:0] OP. -/

theorem test_key_pollLine : decodeTableWord 8 0b10000 = some (.pollLine 0) := by decide
theorem test_key_pollBin : decodeTableWord 8 0b11000 = some (.pollBin 0) := by decide
theorem test_key_reset : decodeTableWord 8 0b01001 = some (.reset 0) := by decide
theorem test_key_data : decodeTableWord 8 0b10010 = some (.data 0) := by decide
theorem test_key_encodeLit :
    decodeKey 0b00011#5 (.channel 3) { blankOperands with sub := 7 } =
      .ok (.encodeLit 3 ⟨0x00#8, 0x00#8⟩ 7 [0x00#8] 1) := by decide
theorem test_key_encodeHex :
    decodeKey 0b11011#5 (.channel 3) { blankOperands with sub := 7 } =
      .ok (.encodeHex 3 ⟨0x00#8, 0x00#8⟩ 7 [0x00#8] 1) := by decide
theorem test_key_decode :
    decodeKey 0b00100#5 .codec { blankOperands with dst := ⟨64, ⟨1, 2, 3⟩⟩ } =
      .ok (.decode (.bytes []) 0 ⟨64, ⟨1, 2, 3⟩⟩) := by decide

/-- R87: OP 101, 110 and 111 under every HEXMODE and KIND. -/
theorem test_key_reserved :
    ∀ k : Key, 5 ≤ (k.setWidth 3).toNat →
      decodeKey k (.channel 0) blankOperands = .error .reservedOp := by decide

/-- R70: a channel operation addressed to the codec unit. -/
theorem test_key_codec_target :
    decodeKey 0b00000#5 .codec blankOperands = .error .targetIsCodec := by decide

/-- No two rows of R70's table share a key. -/
theorem test_rows_disjoint :
    Opcode.all.Pairwise (fun o o' => ∀ k : Key, ¬ (o.fits k = true ∧ o'.fits k = true)) := by
  decide

/-- A number with a bit above the key's five is no key; RESET's key placed by `withFetchWord` runs as
the first instruction. -/
theorem test_placed_key :
    decodeTableWord 8 0b100001 = none ∧
    resultsOf (step (State.reset.withFetchWord 8 0b00001)) = [.nothing] := by decide

/-! One step against the spec's vectors. -/

/-- V-L1 (W2): the CR after "hello" gives +5, and buf[5] becomes 00. -/
theorem test_pollLine_completes :
    resultsOf (exec (.pollLine 0) (one (lineSlot 128 5 [some 0x0D#8]))) = [.status 5] ∧
    unitOf (exec (.pollLine 0) (one (lineSlot 128 5 [some 0x0D#8]))) =
      some ([(5, 0x00#8)], 0, 0x00#8, 0x00#8) := by decide

/-- V-L5: the eighth content byte of a channel with C = 8 is stored and gives -8. -/
theorem test_pollLine_overflows :
    resultsOf (exec (.pollLine 0) (one (lineSlot 8 7 [some 0x68#8]))) = [.status (-8)] ∧
    unitOf (exec (.pollLine 0) (one (lineSlot 8 7 [some 0x68#8]))) =
      some ([(7, 0x68#8)], 0, 0x00#8, 0x00#8) := by decide

/-- V-B1 and V-B3: the checksum byte 63 gives +7, the byte 64 gives -7 and is stored too. -/
theorem test_pollBin_checksum :
    resultsOf (exec (.pollBin 0) (one (binSlot [some 0x63#8]))) = [.status 7] ∧
    resultsOf (exec (.pollBin 0) (one (binSlot [some 0x64#8]))) = [.status (-7)] ∧
    unitOf (exec (.pollBin 0) (one (binSlot [some 0x64#8]))) =
      some ([(0, 0xFF#8), (1, 0x00#8), (2, 0x03#8), (3, 0x10#8), (4, 0x20#8), (5, 0x30#8),
        (6, 0x64#8)], 0, 0x00#8, 0x00#8) := by decide

/-- V-B4 and V-B5: with C = 16 the count 12 is refused without a store, the count 11 accepted. -/
theorem test_pollBin_count :
    resultsOf (exec (.pollBin 0) (one (slot .bin 16 2 0x00#8 0x00#8 [] [some 0x0C#8]))) =
      [.status (-3)] ∧
    unitOf (exec (.pollBin 0) (one (slot .bin 16 2 0x00#8 0x00#8 [] [some 0x0C#8]))) =
      some ([], 0, 0x00#8, 0x00#8) ∧
    unitOf (exec (.pollBin 0) (one (slot .bin 16 2 0x00#8 0x00#8 [] [some 0x0B#8]))) =
      some ([(2, 0x0B#8)], 3, 0x0B#8, 0x0B#8) := by decide

/-- V-R2: RESET in the middle of a frame keeps the buffer. -/
theorem test_reset_keeps_buffer :
    resultsOf (exec (.reset 0)
      (one (slot .bin 16 4 0x03#8 0x13#8
        [(0, 0xFF#8), (1, 0x00#8), (2, 0x03#8), (3, 0x10#8)] []))) = [.nothing] ∧
    unitOf (exec (.reset 0)
      (one (slot .bin 16 4 0x03#8 0x13#8
        [(0, 0xFF#8), (1, 0x00#8), (2, 0x03#8), (3, 0x10#8)] []))) =
      some ([(0, 0xFF#8), (1, 0x00#8), (2, 0x03#8), (3, 0x10#8)], 0, 0x00#8, 0x00#8) := by decide

/-- V-R6: the whole buffer, C bytes, what was written first and then what the construction drew. -/
theorem test_data_returns_buffer :
    resultsOf (exec (.data 0)
      (one (slot .line 4 0 0x00#8 0x00#8 [(0, 0x68#8), (1, 0x69#8), (2, 0x00#8)] []))) =
      [.bytes [0x68#8, 0x69#8, 0x00#8, Config.bufByte 0 3]] := rfl

/-- V-E3. -/
theorem test_encodeLit :
    resultsOf (exec (.encodeLit 0 ⟨0x55#8, 0x53#8⟩ 2 [0x68#8, 0x69#8, 0x00#8] 3)
      (one (lineSlot 8 0 []))) = [.message (vE3 ++ [0x00#8])] := by decide

/-- V-E8: SP and NUL in a literal payload are sent raw, the byte at L - 1 is not. -/
theorem test_encodeLit_raw :
    resultsOf (exec (.encodeLit 0 ⟨0x58#8, 0x59#8⟩ 3 [0x20#8, 0x00#8, 0x41#8, 0x00#8] 4)
      (one (lineSlot 8 0 []))) =
      [.message [0x58#8, 0x59#8, 0x20#8, 0x33#8, 0x20#8, 0x33#8, 0x20#8, 0x20#8, 0x00#8, 0x41#8,
        0x20#8, 0x30#8, 0x38#8, 0x00#8]] := by decide

/-- V-E1 and V-E13 (W1): bytes of `pay` beyond L are ignored. -/
theorem test_encodeHex :
    resultsOf (exec (.encodeHex 0 ⟨0x52#8, 0x52#8⟩ 1 [0x01#8, 0xFF#8, 0x33#8] 2) (one hexSlot)) =
      [.message (w1 ++ [0x00#8])] := by decide

/-- V-E12: a length of two digits. -/
theorem test_encodeHex_two_digits :
    resultsOf (exec (.encodeHex 0 ⟨0x5A#8, 0x5A#8⟩ 7
      [0x00#8, 0x01#8, 0x02#8, 0x03#8, 0x04#8, 0x05#8, 0x06#8, 0x07#8, 0x08#8, 0x09#8] 10)
      (one hexSlot)) =
      [.message (ascii "ZZ 7 -10 00 01 02 03 04 05 06 07 08 09 FA" ++ [0x00#8])] := by decide

/-- W1 and W10: both modes read back; dPay past the payload is left as it was. -/
theorem test_decode :
    resultsOf (exec (.decode (.bytes w1) 16 ⟨64, d0⟩) State.reset) = [.decode 2 (some w1Says)] ∧
    resultsOf (exec (.decode (.bytes vE3) 12 ⟨64, d0⟩) State.reset) =
      [.decode 2 (some vE3Says)] := by
  decide

/-- 93 I9: after W1 went into the destinations 0, a DECODE that fails (R54) takes the contents of the
three it was handed and of no other: `dTag` 0 and `dPay` 1 here, not `dSub` 0 and `dPay` 0. -/
theorem test_decode_destinations :
    (destsOf (exec (.decode (.bytes w1) 15 ⟨64, ⟨0, 1, 1⟩⟩)
      { State.reset with dests := State.reset.dests.deliver d0 w1Says })).map
        (fun d => (d.tags, d.subVal 0, d.payAt 0 0, d.payAt 0 1, d.pays.get 1)) =
      some ([(0, ⟨1, []⟩)], 0x01#8, 0x01#8, 0xFF#8, ⟨1, []⟩) := by decide

/-- V-D20 (W8): no single-bit flip of W1 is accepted. -/
theorem test_decode_rejects_flips :
    ∀ i : Fin 16, ∀ k : Fin 8,
      (parseMessage defaultBuild 64
        (w1.set i.val (w1.getD i.val 0x00#8 ^^^ (0x01#8 <<< k.val)))).isOk = false := by
  decide

/-! Witnesses: for each obligation with hypotheses, states and operands that meet them. -/

/-- One request to channel 0. -/
def request (op : Op) : Request := ⟨op, .channel 0, blankOperands⟩

/-- The construction inputs of a LINE channel. -/
def input (C id : Nat) : ChannelInput := ⟨.line, C, id, false, none, []⟩

theorem witness_ConstructionLeavesResetValues :
    (doing hexSlot (.construct (input 1 0))).pending = [.construct (input 1 0)] ∧
    (1 ≤ (input 1 0).C ∧ (input 1 0).C ≤ 32767 ∧ (input 1 0).id < 2 ^ defaultBuild.idWidth) ∧
    (1 ≤ (input 32767 65535).C ∧ (input 32767 65535).C ≤ 32767 ∧
      (input 32767 65535).id < 2 ^ defaultBuild.idWidth) ∧ (input 1 0).kind = .line := by decide

theorem witness_ConstructionOutOfRangeIsRefused :
    (doing hexSlot (.construct (input 0 0))).pending = [.construct (input 0 0)] ∧
    (input 0 0).C < 1 ∧ 32767 < (input 32768 0).C ∧
    2 ^ defaultBuild.idWidth ≤ (input 1 65536).id := by decide

theorem witness_UnconstructedChannelIsRefused :
    State.reset.channels.length ≤ 0 ∧
    (doing hexSlot (.issue (request 0b000#3))).channels.length ≤ 1 ∧
    (doing hexSlot (.issue ⟨0b000#3, .channel 1, blankOperands⟩)).pending =
      [.issue ⟨0b000#3, .channel 1, blankOperands⟩] ∧
    Instr.decode (.buffer 1) 0 ⟨0, d0⟩ ∈ [Instr.pollLine 1, .decode (.buffer 1) 0 ⟨0, d0⟩] := by
  decide

theorem witness_SupplyAppendsInOrder :
    (doing hexSlot (.supply 0 [some 0x41#8])).pending = [.supply 0 [some 0x41#8]] ∧
    (doing hexSlot (.supply 0 [some 0x41#8])).channels[0]? = some hexSlot := by decide

theorem witness_StepRunsTheDecodedInstruction :
    (doing hexSlot (.issue (request 0b001#3))).pending = [.issue (request 0b001#3)] ∧
    requestKey (request 0b001#3) (doing hexSlot (.issue (request 0b001#3))) = .ok 0b10001#5 ∧
    decodeKey 0b10001#5 (request 0b001#3).target (request 0b001#3).args = .ok (.reset 0) ∧
    State.reset.pending = [] := by decide

theorem witness_OperationKeySelectsTheRow :
    requestKey (request 0b011#3) (one hexSlot) = .ok 0b10011#5 ∧
    requestKey ⟨0b100#3, .codec, blankOperands⟩ (one hexSlot) = .ok 0b00100#5 ∧
    (one hexSlot).channels[0]? = some hexSlot ∧
    decodeKey 0b00100#5 .codec blankOperands = .ok (.decode (.bytes []) 0 ⟨0, d0⟩) := by decide

theorem witness_EncodeOfDecodeIsTheKey :
    decodeKey 0b11100#5 (.channel 0) blankOperands = .ok (.decode (.bytes []) 0 ⟨0, d0⟩) := by decide

theorem witness_ReservedOperationsAreRefused :
    (doing hexSlot (.issue (request 0b101#3))).pending = [.issue (request 0b101#3)] ∧
    5 ≤ (request 0b101#3).op.toNat ∧ 5 ≤ (request 0b111#3).op.toNat ∧
    0 < (doing hexSlot (.issue (request 0b101#3))).channels.length := by decide

theorem witness_PollIsDispatchedByKind :
    (doing (binSlot []) (.issue (request 0b000#3))).pending = [.issue (request 0b000#3)] ∧
    (doing (binSlot []) (.issue (request 0b000#3))).channels[0]? = some (binSlot []) ∧
    (doing hexSlot (.issue (request 0b000#3))).channels[0]? = some hexSlot ∧
    (binSlot []).unit.kind = .bin ∧ hexSlot.unit.kind = .line := by decide

theorem witness_EncodeModeIsTheChannels :
    (doing (binSlot []) (.issue (request 0b011#3))).pending = [.issue (request 0b011#3)] ∧
    (doing (binSlot []) (.issue (request 0b011#3))).channels[0]? = some (binSlot []) ∧
    (doing hexSlot (.issue (request 0b011#3))).channels[0]? = some hexSlot ∧
    (binSlot []).unit.hexmode = false ∧ hexSlot.unit.hexmode = true := by decide

/-- An instruction that answers a next state on a constructed channel (the hypotheses of the second
clauses of PollIsDispatchedByKind and EncodeModeIsTheChannels, and of ConfigurationIsReadOnly). -/
theorem witness_ConfigurationIsReadOnly :
    (∃ t, exec (.reset 0) (one (binSlot [])) = .next t) ∧
    (one (binSlot [])).channels[0]? = some (binSlot []) := ⟨⟨_, rfl⟩, by decide⟩

theorem witness_StepKeepsInvariant :
    (doing (binSlot [some 0x63#8]) (.issue (request 0b000#3))).Inv ∧
    ∃ t, step (doing (binSlot [some 0x63#8]) (.issue (request 0b000#3))) = .next t :=
  ⟨⟨by decide, by decide, by decide⟩, _, rfl⟩

/-- The frame of V-B1, one byte before its end, meets both invariants. -/
theorem witness_StepKeepsFrameSoFar :
    (doing (binSlot [some 0x63#8]) (.issue (request 0b000#3))).Inv ∧
    (∀ sl ∈ (doing (binSlot [some 0x63#8]) (.issue (request 0b000#3))).channels,
      sl.unit.kind = .bin → 2 ≤ sl.unit.C → sl.unit.FrameSoFar defaultBuild) ∧
    ∃ t, step (doing (binSlot [some 0x63#8]) (.issue (request 0b000#3))) = .next t := by
  refine ⟨⟨by decide, by decide, by decide⟩, fun sl h => ?_, _, rfl⟩
  obtain rfl := List.mem_singleton.mp h
  exact fun _ _ => ⟨by decide, by decide,
    fun _ => ⟨by decide, [0x10#8, 0x20#8, 0x30#8], by decide⟩⟩

/-- After power-on, with a channel, and with destinations written to. -/
theorem witness_StepNeverFaults :
    State.reset.Inv ∧ (one (lineSlot 1 0 [])).Inv ∧
    ({ State.reset with dests := State.reset.dests.deliver d0 w1Says } : State).Inv :=
  ⟨⟨by decide, by decide, by decide⟩, ⟨by decide, by decide, by decide⟩, by decide, by decide,
    by decide⟩

theorem witness_OnlyPollAndResetWriteAChannel :
    (∃ t, exec (.pollLine 0) (one hexSlot) = .next t) ∧ Instr.pollLine 0 ≠ .pollLine 1 ∧
    Instr.pollLine 0 ≠ .pollBin 1 ∧ Instr.pollLine 0 ≠ .reset 1 ∧
    (∃ t, exec (.data 0) (one hexSlot) = .next t) :=
  ⟨⟨_, rfl⟩, by decide, by decide, by decide, _, rfl⟩

/-- The same LINE channel, alone and beside a neighbour, with different destinations. -/
theorem witness_ChannelsAreIndependent :
    (Instr.pollLine 0).target = .channel 0 ∧ (Instr.data 0).target = .channel 0 ∧
    (one (lineSlot 8 2 [some 0x0D#8])).channels[0]? = some (lineSlot 8 2 [some 0x0D#8]) ∧
    ({ one (lineSlot 8 2 [some 0x0D#8]) with
      channels := [lineSlot 8 2 [some 0x0D#8, none], binSlot []]
      dests := State.reset.dests.unspecified d0 } : State).channels[0]? =
        some (lineSlot 8 2 [some 0x0D#8, none]) ∧
    (lineSlot 8 2 [some 0x0D#8]).unit = (lineSlot 8 2 [some 0x0D#8, none]).unit ∧
    (∃ t, exec (.pollLine 0) (one (lineSlot 8 2 [some 0x0D#8])) = .next t) ∧
    (∃ t, exec (.pollLine 0) ({ one (lineSlot 8 2 [some 0x0D#8]) with
      channels := [lineSlot 8 2 [some 0x0D#8, none], binSlot []]
      dests := State.reset.dests.unspecified d0 }) = .next t) :=
  ⟨by decide, by decide, by decide, by decide, by decide, ⟨_, rfl⟩, _, rfl⟩

/-- Two literal-mode channels that differ in everything else; one source in two states. -/
theorem witness_CodecIsStateless :
    ((one (lineSlot 8 0 [])).channels[0]? = some (lineSlot 8 0 []) ∧
      (one (binSlot [])).channels[0]? = some (binSlot []) ∧
      (lineSlot 8 0 []).unit.hexmode = (binSlot []).unit.hexmode ∧
      (∃ t, exec (.encodeLit 0 ⟨0x55#8, 0x53#8⟩ 2 [] 1) (one (lineSlot 8 0 [])) = .next t) ∧
      (∃ t, exec (.encodeLit 0 ⟨0x55#8, 0x53#8⟩ 2 [] 1) (one (binSlot [])) = .next t)) ∧
    (sourceBytes (.bytes w1) (one hexSlot) = some w1 ∧
      (one hexSlot).build = State.reset.build ∧
      (∃ t, exec (.decode (.bytes w1) 16 ⟨64, d0⟩) (one hexSlot) = .next t) ∧
      (∃ t, exec (.decode (.bytes w1) 16 ⟨64, ⟨7, 7, 7⟩⟩) State.reset = .next t)) :=
  ⟨⟨by decide, by decide, by decide, ⟨_, rfl⟩, _, rfl⟩, rfl, by decide, ⟨_, rfl⟩, _, rfl⟩

theorem witness_StatusesDoNotWrap :
    (doing (lineSlot 32767 32766 [some 0x41#8]) (.issue (request 0b000#3))).Inv ∧
    (doing (lineSlot 32767 32766 [some 0x41#8]) (.issue (request 0b000#3))).results = [] ∧
    ∃ t, step (doing (lineSlot 32767 32766 [some 0x41#8]) (.issue (request 0b000#3))) = .next t ∧
      .status (-32767) ∈ t.results :=
  ⟨⟨by decide, by decide, by decide⟩, by decide, _, rfl, by decide⟩

theorem witness_PollTakesOneByteAtMost :
    (one hexSlot).channels[0]? = some hexSlot ∧ hexSlot.transport.arrivals = [] ∧
    hexSlot.unit.kind = .line ∧ (∃ t, exec (.pollLine 0) (one hexSlot) = .next t) ∧
    (one (binSlot [none])).channels[0]? = some (binSlot [none]) ∧
    (binSlot [none]).transport.arrivals.head? = some none ∧ (binSlot [none]).unit.kind = .bin ∧
    (∃ t, exec (.pollBin 0) (one (binSlot [some 0x63#8])) = .next t) :=
  ⟨by decide, by decide, by decide, ⟨_, rfl⟩, by decide, by decide, by decide, _, rfl⟩

theorem witness_PollAlwaysEndsWithAStatus :
    (one (lineSlot 1 0 [])).channels[0]? = some (lineSlot 1 0 []) ∧
    (lineSlot 1 0 []).unit.Inv defaultBuild ∧
    (one (binSlot [])).channels[0]? = some (binSlot []) ∧
    (binSlot []).unit.Inv defaultBuild := by decide

theorem witness_PollResetsOnNonzeroStatus :
    (∃ t, exec (.pollLine 0) (one (lineSlot 8 7 [some 0x0A#8])) = .next t ∧
      t.results = [.status 7]) ∧
    (∃ t, exec (.pollBin 0) (one (binSlot [some 0x64#8])) = .next t ∧
      t.results = [.status (-7)]) := ⟨⟨_, rfl, by decide⟩, _, rfl, by decide⟩

theorem witness_PollFrame :
    (∃ t, exec (.pollLine 0) (one (lineSlot 8 7 [some 0x0A#8])) = .next t) ∧
    (one (lineSlot 8 7 [some 0x0A#8])).channels[0]? = some (lineSlot 8 7 [some 0x0A#8]) ∧
    (∃ t, exec (.pollBin 0) (one (binSlot [some 0x64#8])) = .next t) ∧
    (one (binSlot [some 0x64#8])).channels[0]? = some (binSlot [some 0x64#8]) :=
  ⟨⟨_, rfl⟩, by decide, ⟨_, rfl⟩, by decide⟩

/-- Each terminator, at cursor 0 and at the last index. -/
theorem witness_LineTerminatorCompletesTheLine :
    (∀ b ∈ [0x00#8, 0x0A#8, 0x0D#8],
      Receives (one (lineSlot 1 0 [some b])) 0 (lineSlot 1 0 [some b]) .line b ∧
      Receives (one (lineSlot 8 7 [some b])) 0 (lineSlot 8 7 [some b]) .line b) ∧
    (lineSlot 1 0 []).unit.cursor < (lineSlot 1 0 []).unit.C ∧
    (lineSlot 8 7 []).unit.cursor < (lineSlot 8 7 []).unit.C ∧
    (∀ b ∈ [0x00#8, 0x0A#8, 0x0D#8], InTerminatorSet (lineSlot 1 0 []).unit.T b) := by decide

/-- A byte at the last index but one, R141's "any byte ≥ 0x80" among them, and a NUL where T has only
LF and CR. -/
theorem witness_LineContentIsAppended :
    (∀ b ∈ [0x41#8, 0x80#8, 0xFF#8],
      Receives (one (lineSlot 8 6 [some b])) 0 (lineSlot 8 6 [some b]) .line b ∧
      ¬ InTerminatorSet (lineSlot 8 6 [some b]).unit.T b) ∧
    (lineSlot 8 6 []).unit.cursor + 1 < (lineSlot 8 6 []).unit.C ∧
    ¬ InTerminatorSet 0b110#3 0x00#8 := by decide

theorem witness_LineOverflowReportsCapacity :
    (Receives (one (lineSlot 8 7 [some 0x80#8])) 0 (lineSlot 8 7 [some 0x80#8]) .line 0x80#8 ∧
      (lineSlot 8 7 [some 0x80#8]).unit.cursor + 1 = (lineSlot 8 7 [some 0x80#8]).unit.C ∧
      ¬ InTerminatorSet (lineSlot 8 7 [some 0x80#8]).unit.T 0x80#8) ∧
    (Receives (one (lineSlot 1 0 [some 0x41#8])) 0 (lineSlot 1 0 [some 0x41#8]) .line 0x41#8 ∧
      (lineSlot 1 0 [some 0x41#8]).unit.cursor + 1 = (lineSlot 1 0 [some 0x41#8]).unit.C ∧
      ¬ InTerminatorSet (lineSlot 1 0 [some 0x41#8]).unit.T 0x41#8) := by decide

theorem witness_LineStatusesAreExactly :
    (one (lineSlot 8 7 [some 0x0A#8])).channels[0]? = some (lineSlot 8 7 [some 0x0A#8]) ∧
    (∃ t, exec (.pollLine 0) (one (lineSlot 8 7 [some 0x0A#8])) = .next t ∧
      t.results = [.status 7]) ∧
    ((1 : Int) ≤ 7 ∧ (7 : Int) ≤ ((8 : Nat) : Int) - 1) := ⟨by decide, ⟨_, rfl, by decide⟩, by decide⟩

/-- Three content bytes with no byte yet before, between and after them. -/
def early3 : List (Option Byte) := [none, some 0x61#8, none, some 0x62#8, some 0xE3#8, none]

/-- The longest line of a channel with C = 4 and its overflow, with gaps in the arrivals; the empty line
and the overflow of one with C = 1. -/
theorem witness_LineFrameIsDelivered :
    (∀ b ∈ [0x0A#8, 0x64#8],
      (one (lineSlot 4 0 (early3 ++ [some b]))).channels[0]? =
        some (lineSlot 4 0 (early3 ++ [some b]))) ∧
    (early3.filterMap id = [0x61#8, 0x62#8, 0xE3#8] ∧
      ([0x61#8, 0x62#8, 0xE3#8] : List Byte).length + 1 = (lineSlot 4 0 []).unit.C) ∧
    (∀ x ∈ ([0x61#8, 0x62#8, 0xE3#8] : List Byte),
      ¬ InTerminatorSet (lineSlot 4 0 []).unit.T x) ∧
    InTerminatorSet (lineSlot 4 0 []).unit.T 0x0A#8 ∧
    ¬ InTerminatorSet (lineSlot 4 0 []).unit.T 0x64#8 ∧
    (lineSlot 4 0 []).unit.kind = .line ∧ (lineSlot 4 0 []).unit.cursor = 0 ∧
    (one (lineSlot 1 0 [some 0x0A#8])).channels[0]? = some (lineSlot 1 0 [some 0x0A#8]) ∧
    ([] : List Byte).length + 1 = (lineSlot 1 0 []).unit.C := by decide

/-- The BIN channel of capacity C at the given cursor of its header phase, with one byte waiting. -/
def headSlot (C cursor : Nat) (b : Byte) : Slot := slot .bin C cursor 0x00#8 0x00#8 [] [some b]

theorem witness_BinHeader0 :
    (Receives (one (headSlot 1 0 0x00#8)) 0 (headSlot 1 0 0x00#8) .bin 0x00#8 ∧
      (headSlot 1 0 0x00#8).unit.cursor = 0 ∧ (0x00#8 : Byte) ≠ defaultBuild.hdr0) ∧
    (Receives (one (headSlot 1 0 0xFF#8)) 0 (headSlot 1 0 0xFF#8) .bin 0xFF#8 ∧
      0xFF#8 = defaultBuild.hdr0 ∧ 1 ≤ (headSlot 1 0 0xFF#8).unit.C) := by decide

theorem witness_BinHeader1 :
    (Receives (one (headSlot 2 1 0xFF#8)) 0 (headSlot 2 1 0xFF#8) .bin 0xFF#8 ∧
      (headSlot 2 1 0xFF#8).unit.cursor = 1 ∧ (0xFF#8 : Byte) ≠ defaultBuild.hdr1) ∧
    (Receives (one (headSlot 2 1 0x00#8)) 0 (headSlot 2 1 0x00#8) .bin 0x00#8 ∧
      0x00#8 = defaultBuild.hdr1 ∧ 2 ≤ (headSlot 2 1 0x00#8).unit.C) := by decide

theorem witness_BinHeader1WithoutASlot :
    (Receives (one (headSlot 1 1 0x00#8)) 0 (headSlot 1 1 0x00#8) .bin 0x00#8 ∧
      (headSlot 1 1 0x00#8).unit.C = 1 ∧ (headSlot 1 1 0x00#8).unit.cursor = 1 ∧
      0x00#8 = defaultBuild.hdr1) ∧
    (Receives (one (headSlot 1 2 0x00#8)) 0 (headSlot 1 2 0x00#8) .bin 0x00#8 ∧
      (headSlot 1 2 0x00#8).unit.C = 1 ∧ (headSlot 1 2 0x00#8).unit.cursor = 2) := by decide

/-- At C = 16 the counts 12 and 11, at C = 4 the count 0. -/
theorem witness_BinCountIsBounded :
    (Receives (one (headSlot 16 2 0x0C#8)) 0 (headSlot 16 2 0x0C#8) .bin 0x0C#8 ∧
      (headSlot 16 2 0x0C#8).unit.cursor = 2 ∧ (16 : Int) - 5 < ((0x0C#8).toNat : Int)) ∧
    (Receives (one (headSlot 16 2 0x0B#8)) 0 (headSlot 16 2 0x0B#8) .bin 0x0B#8 ∧
      ((0x0B#8).toNat : Int) ≤ (16 : Int) - 5) ∧
    (Receives (one (headSlot 4 2 0x00#8)) 0 (headSlot 4 2 0x00#8) .bin 0x00#8 ∧
      (4 : Int) - 5 < ((0x00#8).toNat : Int)) := by decide

/-- The first body byte of a frame of count 3, and its last. -/
theorem witness_BinBodyIsStoredAndSummed :
    (Receives (one (slot .bin 16 3 0x03#8 0x03#8 [] [some 0x10#8])) 0
        (slot .bin 16 3 0x03#8 0x03#8 [] [some 0x10#8]) .bin 0x10#8 ∧
      3 < 3 + (0x03#8).toNat) ∧
    (Receives (one (slot .bin 16 5 0x03#8 0x33#8 [] [some 0x30#8])) 0
        (slot .bin 16 5 0x03#8 0x33#8 [] [some 0x30#8]) .bin 0x30#8 ∧
      5 < 3 + (0x03#8).toNat ∧ 5 < 16) := by decide

theorem witness_BinChecksumDecides :
    (Receives (one (binSlot [some 0x63#8])) 0 (binSlot [some 0x63#8]) .bin 0x63#8 ∧
      (binSlot [some 0x63#8]).unit.cursor = 3 + (binSlot [some 0x63#8]).unit.count.toNat ∧
      (binSlot [some 0x63#8]).unit.cursor < (binSlot [some 0x63#8]).unit.C ∧
      0x63#8 = (binSlot [some 0x63#8]).unit.sum) ∧
    (Receives (one (binSlot [some 0x64#8])) 0 (binSlot [some 0x64#8]) .bin 0x64#8 ∧
      0x64#8 ≠ (binSlot [some 0x64#8]).unit.sum) := by decide

theorem witness_BinStatuses :
    (one (binSlot [some 0x63#8])).channels[0]? = some (binSlot [some 0x63#8]) ∧
    (binSlot [some 0x63#8]).unit.Inv defaultBuild ∧
    (∃ t, exec (.pollBin 0) (one (binSlot [some 0x63#8])) = .next t ∧ t.results = [.status 7]) ∧
    (headSlot 4 2 0x00#8).unit.Inv defaultBuild ∧ (headSlot 4 2 0x00#8).unit.C < 5 ∧
    (∃ t, exec (.pollBin 0) (one (headSlot 4 2 0x00#8)) = .next t ∧
      t.results = [.status (-3)]) :=
  ⟨by decide, by decide, ⟨_, rfl, by decide⟩, by decide, by decide, _, rfl, by decide⟩

/-- A BIN channel of capacity C at cursor 0, with these arrivals, the byte `last` and two more. -/
def frameSlot (C : Nat) (early : List (Option Byte)) (last : Byte) : Slot :=
  slot .bin C 0 0x00#8 0x00#8 [] (early ++ some last :: [none, some 0xFF#8])

/-- The frame of V-B1. -/
def vB1 : List Byte := [0xFF#8, 0x00#8, 0x03#8, 0x10#8, 0x20#8, 0x30#8, 0x63#8]

/-- The arrivals of V-B1 before its last byte, with no byte yet in the header, in the body and before
the checksum; the first body byte is `x`. -/
def vB1Early (x : Byte) : List (Option Byte) :=
  [none, some 0xFF#8, none, none, some 0x00#8, some 0x03#8, none, some x, some 0x20#8, none,
    some 0x30#8, none]

/-- The empty frame in the smallest channel that takes it (V-B16), and V-B1 with gaps. -/
theorem witness_ValidBinaryFrameIsDelivered :
    ((one (frameSlot 5 [some 0xFF#8, some 0x00#8, some 0x00#8] 0x00#8)).channels[0]? =
        some (frameSlot 5 [some 0xFF#8, some 0x00#8, some 0x00#8] 0x00#8) ∧
      (frameSlot 5 [] 0x00#8).unit.kind = .bin ∧ (frameSlot 5 [] 0x00#8).unit.cursor = 0 ∧
      [some 0xFF#8, some 0x00#8, some 0x00#8].filterMap id ++ [0x00#8] =
        defaultBuild.hdr0 :: defaultBuild.hdr1 :: 0x00#8 :: [] ++ [0x00#8 + sumBytes []] ∧
      ([] : List Byte).length = (0x00#8).toNat ∧
      (0x00#8).toNat + 5 ≤ (frameSlot 5 [] 0x00#8).unit.C) ∧
    ((one (frameSlot 16 (vB1Early 0x10#8) 0x63#8)).channels[0]? =
        some (frameSlot 16 (vB1Early 0x10#8) 0x63#8) ∧
      (frameSlot 16 (vB1Early 0x10#8) 0x63#8).transport.arrivals =
        vB1Early 0x10#8 ++ some 0x63#8 :: [none, some 0xFF#8] ∧
      (vB1Early 0x10#8).filterMap id ++ [0x63#8] = vB1 ∧
      ([0x10#8, 0x20#8, 0x30#8] : List Byte).length = (0x03#8).toNat ∧
      (0x03#8).toNat + 5 ≤ (frameSlot 16 [] 0x63#8).unit.C ∧
      vB1 = defaultBuild.hdr0 :: defaultBuild.hdr1 :: 0x03#8 :: [0x10#8, 0x20#8, 0x30#8] ++
        [0x03#8 + sumBytes [0x10#8, 0x20#8, 0x30#8]]) := by decide

/-- The first body byte of V-B1 changed, and its checksum byte (V-B3), each with gaps. -/
theorem witness_CorruptedBinaryFrameIsRejected :
    ((one (frameSlot 16 (vB1Early 0x11#8) 0x63#8)).channels[0]? =
        some (frameSlot 16 (vB1Early 0x11#8) 0x63#8) ∧
      (frameSlot 16 (vB1Early 0x11#8) 0x63#8).unit.kind = .bin ∧
      (frameSlot 16 (vB1Early 0x11#8) 0x63#8).unit.cursor = 0 ∧
      (vB1Early 0x11#8).filterMap id ++ [0x63#8] = vB1.set 3 0x11#8 ∧ 3 ≤ 3 ∧
      vB1[3]? ≠ some 0x11#8) ∧
    ((one (frameSlot 16 (vB1Early 0x10#8) 0x64#8)).channels[0]? =
        some (frameSlot 16 (vB1Early 0x10#8) 0x64#8) ∧
      (vB1Early 0x10#8).filterMap id ++ [0x64#8] = vB1.set 6 0x64#8 ∧
      6 ≤ 3 + (0x03#8).toNat ∧ vB1[6]? ≠ some 0x64#8 ∧
      ([0x10#8, 0x20#8, 0x30#8] : List Byte).length = (0x03#8).toNat ∧
      (0x03#8).toNat + 5 ≤ (frameSlot 16 [] 0x64#8).unit.C) := by decide

/-- The hypothesis of ResetDiscardsThePartialFrame and of DataReturnsTheWholeBuffer; and a byte that
was written, and one that was not. -/
theorem witness_ResetDiscardsThePartialFrame :
    (one (binSlot [])).channels[0]? = some (binSlot []) ∧
    (one hexSlot).channels[0]? = some hexSlot := by decide

theorem witness_DataReturnsTheWholeBuffer :
    (one (binSlot [])).channels[0]? = some (binSlot []) ∧
    (binSlot []).unit.buf.find 5 = some 0x30#8 ∧ (binSlot []).unit.buf.find 6 = none ∧
    15 < (binSlot []).unit.C := by decide

theorem witness_BufferIsKeptUntilAByteIsConsumed :
    (∃ t, exec (.pollBin 0) (one (binSlot [none])) = .next t) ∧
    (binSlot [none]).transport.arrivals.head?.join = none ∧
    (∃ t, exec (.reset 0) (one (binSlot [some 0x63#8])) = .next t) ∧
    Instr.reset 0 ∉ [Instr.pollLine 0, .pollBin 0] :=
  ⟨⟨_, rfl⟩, by decide, ⟨_, rfl⟩, by decide⟩

/-- A digit string that spells 7 with a leading zero. -/
theorem witness_DecIsTheShortestDecimal :
    (7 ≤ 9999) ∧ ([0x30#8, 0x37#8] : List Byte) ≠ [] ∧
    (∀ x ∈ ([0x30#8, 0x37#8] : List Byte), isDig x = true) ∧ numVal [0x30#8, 0x37#8] = 7 := by
  decide

/-- The least operands and the greatest, and an operand that fails each check. -/
theorem witness_EncodeHexReturnsTheMessage :
    ((one hexSlot).channels[0]? = some hexSlot ∧ hexSlot.unit.hexmode = true) ∧
    EncodeHexOk 0 [] 0 ∧ EncodeHexOk 9 (List.replicate 9999 0x41#8) 9999 ∧
    ¬ ((0 : Int) ≤ 10 ∧ (10 : Int) ≤ 9) ∧ ¬ ((0 : Int) ≤ 10000 ∧ (10000 : Int) ≤ 9999) ∧
    ¬ ((0 : Int) ≤ -1 ∧ (-1 : Int) ≤ 9999) ∧ (([0x41#8] : List Byte).length : Int) < 2 := by
  refine ⟨by decide, by decide, ⟨by decide, by decide, ?_⟩, by decide, by decide, by decide,
    by decide⟩
  rw [List.length_replicate]
  decide

/-- The least operands and the greatest, and an operand that fails each check. -/
theorem witness_EncodeLitReturnsTheMessage :
    ((one (lineSlot 8 0 [])).channels[0]? = some (lineSlot 8 0 []) ∧
      (lineSlot 8 0 []).unit.hexmode = false) ∧
    EncodeLitOk 0 [] 1 ∧ EncodeLitOk 9 (List.replicate 9999 0x41#8) 10000 ∧
    ¬ ((0 : Int) ≤ -1 ∧ (-1 : Int) ≤ 9) ∧ ¬ ((1 : Int) ≤ 0 ∧ (0 : Int) ≤ 10000) ∧
    ¬ ((1 : Int) ≤ 10001 ∧ (10001 : Int) ≤ 10000) ∧
    (([0x41#8] : List Byte).length : Int) < 3 - 1 := by
  refine ⟨by decide, by decide, ⟨by decide, by decide, ?_⟩, by decide, by decide, by decide,
    by decide⟩
  rw [List.length_replicate]
  decide

/-- In each mode an operand at an end of its range, and one past it. -/
theorem witness_EncodeIsDefinedExactlyInRange :
    ((one hexSlot).channels[0]? = some hexSlot ∧ hexSlot.unit.hexmode = true ∧
      (∃ t, exec (.encodeHex 0 ⟨0x52#8, 0x52#8⟩ 9 [] 0) (one hexSlot) = .next t) ∧
      (∃ r, exec (.encodeHex 0 ⟨0x52#8, 0x52#8⟩ 9 [] 1) (one hexSlot) = .refused r)) ∧
    ((one (lineSlot 8 0 [])).channels[0]? = some (lineSlot 8 0 []) ∧
      (lineSlot 8 0 []).unit.hexmode = false ∧
      (∃ t, exec (.encodeLit 0 ⟨0x55#8, 0x53#8⟩ 0 [] 1) (one (lineSlot 8 0 [])) = .next t) ∧
      (∃ r, exec (.encodeLit 0 ⟨0x55#8, 0x53#8⟩ 0 [] 0) (one (lineSlot 8 0 [])) = .refused r)) :=
  ⟨⟨by decide, by decide, ⟨_, rfl⟩, _, rfl⟩, by decide, by decide, ⟨_, rfl⟩, _, rfl⟩

theorem witness_EncodeOnlyReturnsASealedMessage :
    (∃ t, exec (.encodeHex 0 ⟨0x52#8, 0x52#8⟩ 1 [] 0) (one hexSlot) = .next t) ∧
    (∃ t, exec (.encodeLit 0 ⟨0x55#8, 0x53#8⟩ 2 [] 1) (one (lineSlot 8 0 [])) = .next t) :=
  ⟨⟨_, rfl⟩, _, rfl⟩

theorem witness_HexMessageHoldsNoTerminator :
    (∃ t, exec (.encodeHex 0 ⟨0x52#8, 0x52#8⟩ 1 [0x01#8, 0xFF#8] 2) (one hexSlot) = .next t ∧
      t.results = [.message (w1 ++ [0x00#8])]) ∧
    ¬ InTerminatorSet 0b111#3 0x52#8 := ⟨⟨_, rfl, by decide⟩, by decide⟩

/-- W1 is a valid message. -/
theorem w1_valid : ValidMessage false w1 w1Says :=
  ⟨0x31#8, true, [0x32#8], [0x30#8, 0x31#8, 0x20#8, 0x46#8, 0x46#8, 0x20#8], 0x33#8, 0x46#8,
    by decide, by decide, by decide, by decide, by decide, ⟨by decide, by decide, rfl, by decide,
      by decide, by decide, rfl, by decide, rfl⟩, by decide, by decide, by decide⟩

/-- V-E3 is a valid message. -/
theorem vE3_valid : ValidMessage false vE3 vE3Says :=
  ⟨0x32#8, false, [0x32#8], [0x68#8, 0x69#8, 0x20#8], 0x41#8, 0x33#8,
    by decide, by decide, by decide, by decide, by decide, rfl, by decide, by decide, by decide⟩

/-- A LINE channel whose buffer holds these bytes. -/
def bufferOf (bs : List Byte) : Slot :=
  slot .line bs.length 0 0x00#8 0x00#8 (Memory.writeAll [] 0 bs) []

/-- W1 with its NUL after it, and V-E3 in a channel's buffer. -/
theorem witness_DecodeAcceptsEveryValidMessage :
    SourceText State.reset (.bytes (w1 ++ [0x00#8])) 17 (w1 ++ [0x00#8]) ∧
    SourceText (one (bufferOf vE3)) (.buffer 0) 12 (vE3 ++ []) ∧
    ValidMessage defaultBuild.hexLowerOk w1 w1Says ∧
    ValidMessage defaultBuild.hexLowerOk vE3 vE3Says ∧ w1Says.pay.length ≤ 2 ∧ 2 ≤ 9999 :=
  ⟨⟨_, rfl, by decide, by decide⟩, ⟨_, rfl, by decide, rfl⟩, w1_valid, vE3_valid, by decide,
    by decide⟩

/-- A DECODE that delivers, and one that ends with a code. -/
theorem witness_DecodeAcceptsOnlyValidMessages :
    sourceBytes (.bytes w1) State.reset = some w1 ∧
    (∃ t, exec (.decode (.bytes w1) (16 : Nat) ⟨(64 : Nat), d0⟩) State.reset = .next t) ∧
    (∃ t, exec (.decode (.bytes w1) (0 : Nat) ⟨(0 : Nat), d0⟩) State.reset = .next t) :=
  ⟨rfl, ⟨_, rfl⟩, _, rfl⟩

/-- A DECODE that delivers, and one of a buffer that ends with a code; another `dPay` beside it. -/
theorem witness_DecodeFrame :
    d0.pay ≠ 1 ∧ (∃ t, exec (.decode (.bytes w1) 16 ⟨2, d0⟩) State.reset = .next t ∧
      t.results = [.decode 2 (some w1Says)]) ∧
    (∃ t, exec (.decode (.buffer 0) 0 ⟨9999, d0⟩) (one hexSlot) = .next t) :=
  ⟨by decide, ⟨_, rfl, by decide⟩, _, rfl⟩

/-- Both ends of each range, and a value past each. -/
theorem witness_DecodeRunsExactlyOnOperandsInRange :
    sourceBytes (.bytes w1) State.reset = some w1 ∧
    ((0 : Int) ≤ 16 ∧ (16 : Int) ≤ (w1.length : Int) ∧ (0 : Int) ≤ 9999 ∧ (9999 : Int) ≤ 9999) ∧
    ((0 : Int) ≤ 0 ∧ (0 : Int) ≤ (w1.length : Int)) ∧
    (-1 : Int) < 0 ∧ (w1.length : Int) < 17 ∧ (9999 : Int) < 10000 := by decide

/-- V-D3, V-D4, V-D5 stopped at the byte that fails; the digits' neighbours. -/
theorem witness_DecodeHeadErrors :
    SourceText State.reset (.bytes (ascii "RRX1 -2")) 7 (ascii "RRX" ++ ascii "1 -2") ∧
    SourceText State.reset (.bytes (ascii "RR x")) 4 (ascii "RR x" ++ []) ∧
    SourceText State.reset (.bytes (ascii "RR 1x")) 5 (ascii "RR 1x" ++ []) ∧
    (0x58#8 : Byte) ≠ 0x20#8 ∧ isDig 0x2F#8 = false ∧ isDig 0x3A#8 = false ∧
    isDig 0x39#8 = true := by
  refine ⟨⟨_, rfl, by decide, by decide⟩, ⟨_, rfl, by decide, by decide⟩,
    ⟨_, rfl, by decide, by decide⟩, ?_⟩
  decide

/-- A first length byte that is no digit in each mode, a fifth digit, a length above DMAX. -/
theorem witness_DecodeLengthErrors :
    SourceText State.reset (.bytes (ascii "RR 1 +2")) 7
      (messageStart ⟨0x52#8, 0x52#8⟩ 0x31#8 false ++ 0x2B#8 :: ascii "2") ∧
    SourceText State.reset (.bytes (ascii "RR 1 -00002")) 11
      (messageStart ⟨0x52#8, 0x52#8⟩ 0x31#8 true ++ ascii "0000" ++ 0x32#8 :: []) ∧
    SourceText State.reset (.bytes (ascii "RR 1 -2 ")) 8
      (messageStart ⟨0x52#8, 0x52#8⟩ 0x31#8 true ++ ascii "2" ++ 0x20#8 :: []) ∧
    isDig 0x31#8 = true ∧ isDig 0x2B#8 = false ∧ (0x2B#8 : Byte) ≠ 0x2D#8 ∧
    LengthField (ascii "0000") ∧ (0x32#8 : Byte) ≠ 0x20#8 ∧
    LengthField (ascii "2") ∧ 1 < numVal (ascii "2") := by
  refine ⟨⟨_, rfl, by decide, by decide⟩, ⟨_, rfl, by decide, by decide⟩,
    ⟨_, rfl, by decide, by decide⟩, ?_⟩
  decide

/-- The payload `01 FF` of W1, stopped at its second byte; and the literal payload of V-E3. -/
theorem witness_DecodePayloadErrors :
    (SourceText State.reset (.bytes (ascii "RR 1 -2 01 0G")) 13
        (messageText ⟨0x52#8, 0x52#8⟩ 0x31#8 true [0x32#8] [0x30#8, 0x31#8, 0x20#8] ++
          0x30#8 :: 0x47#8 :: []) ∧
      isDig 0x31#8 = true ∧ LengthField [0x32#8] ∧ numVal [0x32#8] ≤ 2 ∧
      HexText false [0x01#8] [0x30#8, 0x31#8, 0x20#8] ∧
      ([0x01#8] : List Byte).length < numVal [0x32#8] ∧ isHex false 0x47#8 = false ∧
      isHex false 0x30#8 = true ∧ isHex false 0x46#8 = true ∧ (0x2C#8 : Byte) ≠ 0x20#8) ∧
    SourceText State.reset (.bytes (ascii "US 2 2 hiX")) 10
      (messageText ⟨0x55#8, 0x53#8⟩ 0x32#8 false [0x32#8] [0x68#8, 0x69#8] ++ 0x58#8 :: []) ∧
    ([0x68#8, 0x69#8] : List Byte).length = numVal [0x32#8] :=
  ⟨⟨⟨_, rfl, by decide, by decide⟩, by decide, by decide, by decide,
    ⟨by decide, by decide, rfl, by decide, rfl⟩, by decide, by decide, by decide, by decide,
    by decide⟩, ⟨_, rfl, by decide, by decide⟩, by decide⟩

/-- W1 with a checksum digit `G`, and with the checksum `3E`. -/
theorem witness_DecodeChecksumErrors :
    SourceText State.reset (.bytes (ascii "RR 1 -2 01 FF 3G")) 16
      (messageText ⟨0x52#8, 0x52#8⟩ 0x31#8 true [0x32#8]
        [0x30#8, 0x31#8, 0x20#8, 0x46#8, 0x46#8, 0x20#8] ++ 0x33#8 :: 0x47#8 :: []) ∧
    isDig 0x31#8 = true ∧ LengthField [0x32#8] ∧
    numVal [0x32#8] = ([0x01#8, 0xFF#8] : List Byte).length ∧
    PayloadText false true [0x01#8, 0xFF#8]
      [0x30#8, 0x31#8, 0x20#8, 0x46#8, 0x46#8, 0x20#8] ∧
    isHex false 0x47#8 = false ∧ isHex false 0x33#8 = true ∧ isHex false 0x45#8 = true ∧
    (((w1.take 14).map BitVec.toNat).sum + (16 * nib 0x33#8 + nib 0x45#8)) % 256 ≠ 0 :=
  ⟨⟨_, rfl, by decide, by decide⟩, by decide, by decide, by decide, ⟨by decide, by decide, rfl,
    by decide, by decide, by decide, rfl, by decide, rfl⟩, by decide, by decide, by decide,
    by decide⟩

/-- W1 cut before its first byte and before its last; the length digit 9 of `RR 1 -9`, and no digit,
with DMAX 0; W1 cut after a first checksum digit that is not its own. -/
theorem witness_DecodeReadsOnlyWithinSrcLen :
    (SourceText State.reset (.bytes w1) 15 (w1.take 15) ∧
      SourceText State.reset (.bytes (w1.take 15)) 15 (w1.take 15)) ∧
    (SourceText State.reset (.bytes []) 0 (w1.take 0) ∧ 0 < w1.length ∧ 15 < w1.length ∧
      ValidMessage defaultBuild.hexLowerOk w1 w1Says ∧ w1Says.pay.length ≤ 2) ∧
    (SourceText State.reset (.bytes (ascii "RR 1 -9")) 7
        (messageStart ⟨0x52#8, 0x52#8⟩ 0x31#8 true ++ ascii "9") ∧
      SourceText State.reset (.bytes (ascii "RR 1 ")) 5
        (messageStart ⟨0x52#8, 0x52#8⟩ 0x31#8 false ++ []) ∧
      isDig 0x31#8 = true ∧ (ascii "9").length ≤ 4 ∧ (∀ x ∈ ascii "9", isDig x = true) ∧
      0 < numVal (ascii "9")) ∧
    (SourceText State.reset (.bytes (ascii "RR 1 -2 01 FF 4")) 15
        (messageText ⟨0x52#8, 0x52#8⟩ 0x31#8 true [0x32#8]
          [0x30#8, 0x31#8, 0x20#8, 0x46#8, 0x46#8, 0x20#8] ++ [0x34#8]) ∧
      LengthField [0x32#8] ∧ numVal [0x32#8] = ([0x01#8, 0xFF#8] : List Byte).length ∧
      PayloadText false true [0x01#8, 0xFF#8]
        [0x30#8, 0x31#8, 0x20#8, 0x46#8, 0x46#8, 0x20#8] ∧
      isHex defaultBuild.hexLowerOk 0x34#8 = true) :=
  ⟨⟨⟨_, rfl, by decide, by decide⟩, _, rfl, by decide, by decide⟩,
    ⟨⟨_, rfl, by decide, by decide⟩, by decide, by decide, w1_valid, by decide⟩,
    ⟨⟨_, rfl, by decide, by decide⟩, ⟨_, rfl, by decide, by decide⟩, by decide, by decide,
      by decide, by decide⟩,
    ⟨_, rfl, by decide, by decide⟩, by decide, by decide,
    ⟨by decide, by decide, rfl, by decide, by decide, by decide, rfl, by decide, rfl⟩, by decide⟩

/-- Both modes, with DMAX the payload's length and nothing more. -/
theorem witness_DecodeOfEncodeIsTheMessage :
    ((one hexSlot).channels[0]? = some hexSlot ∧ hexSlot.unit.hexmode = true ∧
      EncodeHexOk 1 [0x01#8, 0xFF#8] 2 ∧ (2 : Int) ≤ ((2 : Nat) : Int)) ∧
    ((one (lineSlot 8 0 [])).channels[0]? = some (lineSlot 8 0 []) ∧
      (lineSlot 8 0 []).unit.hexmode = false ∧ EncodeLitOk 2 [0x68#8, 0x69#8, 0x00#8] 3 ∧
      (3 : Int) - 1 ≤ ((2 : Nat) : Int)) := by decide

end Sys2Proof.Tests
end

/-!
PROOF. The statuses an operation can return (00_scope R12): a LINE channel's lie within -C..C, a BIN
channel's are 0, the header and count codes or ±(4 + count), and DECODE's are its codes or a length
that DMAX bounds. What an instruction returns is one result, so a step adds at most one.
-/

namespace Sys2Proof.Machine

/-- A length DECODE answers was checked against DMAX (R189). -/
theorem parseMessage_length_le (p : Build) (dmax : Nat) (all : List Byte) (m : Decoded)
    (h : parseMessage p dmax all = .ok m) : m.pay.length ≤ dmax := by
  unfold parseMessage at h
  obtain ⟨⟨⟨tag, sub⟩, b1⟩, -, h⟩ := except_bind_ok _ _ _ h
  obtain ⟨⟨⟨hex, L⟩, b2⟩, -, h⟩ := except_bind_ok _ _ _ h
  simp only at h
  split at h
  · cases h
  · obtain ⟨⟨pay, b3⟩, hpay, h⟩ := except_bind_ok _ _ _ h
    obtain ⟨u, -, h⟩ := except_bind_ok _ _ _ h
    cases h
    have hlen : pay.length = L := (scanPayload_inv _ _ _ _ _ _ hpay).1
    simp only
    omega

/-- A DECODE error code of a proper block is in R12's range. -/
theorem statusOk_of_mem_decErr (p : Build) (hp : p.Ok) (st : Int) (h : st ∈ p.decErr.toList) :
    StatusOk st := by
  obtain ⟨-, -, -, -, -, -, hdec, -⟩ := hp
  have := hdec st h
  omega

/-- A POLL of either kind returns one status, in R12's range. -/
theorem poll_status_inRange (i : Instr) (s t : State) (ch : Nat)
    (hi : i ∈ [Instr.pollLine ch, .pollBin ch]) (hs : s.Inv) (h : exec i s = .next t) :
    ∃ st, t.results = s.results ++ [.status st] ∧ StatusOk st := by
  obtain ⟨hp, hch, -⟩ := hs
  obtain ⟨sl, reader, hsl, hr, h⟩ := poll_next i s t ch hi h
  obtain ⟨hu, -⟩ := hch sl (List.mem_of_getElem? hsl)
  obtain ⟨u, st, hst, rfl⟩ := pollWith_next _ _ _ _ _ h
  refine ⟨st, rfl, ?_⟩
  rcases hst with ⟨-, -, rfl⟩ | ⟨b, -, hstep⟩
  · decide
  rcases hr with ⟨rfl, -, hk⟩ | ⟨rfl, -, hk⟩
  · obtain ⟨-, hst⟩ := lineStep_inv s.build _ _ _ _ hk hstep hu
    obtain ⟨⟨hC, -⟩, -⟩ := hu
    omega
  · exact (binStep_inv s.build hp _ _ _ _ hk hstep hu).2

/-- DECODE returns one status, in R12's range: a code, or a length of at most DMAX ≤ 9999. -/
theorem execDecode_inRange (s t : State) (src : Source) (srcLen : Int) (dst : Destinations)
    (hp : s.build.Ok) (h : execDecode src srcLen dst s = .next t) :
    ∃ st d, t.results = s.results ++ [.decode st d] ∧ StatusOk st := by
  obtain ⟨bs, -, ⟨-, hdmax⟩, ⟨st, herr, rfl⟩ | ⟨m, hok, rfl⟩⟩ := execDecode_next _ _ _ _ _ h
  · exact ⟨st, none, rfl, statusOk_of_mem_decErr _ hp _ (parseMessage_error _ _ _ _ herr)⟩
  · have hlen := parseMessage_length_le _ _ _ _ hok
    exact ⟨_, some m, rfl, by omega⟩

/-- An instruction that answers a next state returns one result, its status in R12's range. -/
theorem exec_result_inRange (i : Instr) (s t : State) (hs : s.Inv) (h : exec i s = .next t) :
    ∃ r, t.results = s.results ++ [r] ∧ r.InRange := by
  cases i with
  | pollLine ch =>
    obtain ⟨st, hr, hst⟩ := poll_status_inRange _ s t ch (by simp) hs h
    exact ⟨_, hr, hst⟩
  | pollBin ch =>
    obtain ⟨st, hr, hst⟩ := poll_status_inRange _ s t ch (by simp) hs h
    exact ⟨_, hr, hst⟩
  | reset ch =>
    obtain ⟨sl, -, rfl⟩ := execReset_next _ _ _ h
    exact ⟨_, rfl, trivial⟩
  | data ch =>
    obtain ⟨sl, -, rfl⟩ := execData_next _ _ _ h
    exact ⟨_, rfl, trivial⟩
  | encodeLit ch tag sub pay len =>
    obtain ⟨sl, -, -, -, rfl⟩ := execEncodeLit_next _ _ _ _ _ _ _ h
    exact ⟨_, rfl, trivial⟩
  | encodeHex ch tag sub pay len =>
    obtain ⟨sl, -, -, -, rfl⟩ := execEncodeHex_next _ _ _ _ _ _ _ h
    exact ⟨_, rfl, trivial⟩
  | decode src srcLen dst =>
    obtain ⟨st, d, hr, hst⟩ := execDecode_inRange _ _ _ _ _ hs.1 h
    exact ⟨_, hr, hst⟩

/-- A step keeps the results it found, and adds at most one, its status in R12's range. -/
theorem step_result_inRange (s t : State) (hs : s.Inv) (h : step s = .next t) :
    t.results = s.results ∨ ∃ r, t.results = s.results ++ [r] ∧ r.InRange := by
  obtain ⟨-, rfl⟩ | ⟨c, rest, -, -, rfl⟩ | ⟨ch, arr, rest, sl, -, -, rfl⟩ |
    ⟨r, rest, i, -, -, hx⟩ := step_cases s t h
  · exact .inl rfl
  · exact .inl rfl
  · exact .inl rfl
  · exact .inr (exec_result_inRange i (s.setPending rest) t hs hx)

/-- A status in R12's range is the value of its 16-bit two's-complement form. -/
theorem StatusOk.toInt_ofInt {st : Int} (h : StatusOk st) : (BitVec.ofInt 16 st).toInt = st :=
  BitVec.toInt_ofInt_eq_self (by decide) (by omega) (by omega)

/-- Settles O21: a step adds at most one result, and its status is in R12's range, which lies within
the 16-bit signed integers. -/
theorem statusesDoNotWrap : Obligations.StatusesDoNotWrap := by
  unfold Obligations.StatusesDoNotWrap
  intro s t hs h hold
  have hall : ∀ r ∈ t.results, r.InRange := by
    intro r hr
    rcases step_result_inRange s t hs h with heq | ⟨r', heq, hr'⟩
    · exact hold r (heq ▸ hr)
    · rw [heq, List.mem_append, List.mem_singleton] at hr
      rcases hr with hr | rfl
      · exact hold r hr
      · exact hr'
  refine ⟨hall, ?_⟩
  rintro st d (hm | hm)
  · exact StatusOk.toInt_ofInt (hall _ hm)
  · exact StatusOk.toInt_ofInt (hall _ hm)

end Sys2Proof.Machine

/-!
PROOF. Which operations write a channel, and what the codec's results depend on (10_state R24, R25):
an operation that changes a channel is a POLL or a RESET addressed to it; the result of an ENCODE is
the message its operands spell, and that of a DECODE the scanner's verdict on the source's bytes.
-/

namespace Sys2Proof.Machine

/-- A channel that no POLL and no RESET is addressed to keeps its whole slot. -/
theorem exec_channel_of_not_addressed (i : Instr) (s t : State) (n : Nat) (h : exec i s = .next t)
    (hp : i ∉ [Instr.pollLine n, .pollBin n]) (hr : i ≠ .reset n) :
    t.channels[n]? = s.channels[n]? := by
  obtain ⟨-, -, heq | ⟨ch, sl, u, tr, -, hset, -, hwho⟩⟩ := exec_channels i s t h
  · rw [heq]
  · have hne : ch ≠ n := by
      rintro rfl
      rcases hwho with ⟨hi, -⟩ | ⟨hi, -⟩
      · exact hr hi
      · exact hp hi
    rw [hset, List.getElem?_set_ne hne]

/-- Settles O18: the channel that an instruction writes is the one its POLL or RESET is addressed to. -/
theorem onlyPollAndResetWriteAChannel : Obligations.OnlyPollAndResetWriteAChannel := by
  unfold Obligations.OnlyPollAndResetWriteAChannel
  intro i s t ch h hl hb hr
  exact exec_channel_of_not_addressed i s t ch h (by simp [hl, hb]) hr

/-- What DECODE returns (R180, R195), as a function of the parameters, the source's bytes and its
operands: the error code, or the length and the message. -/
def decodeResult (p : Build) (bs : List Byte) (srcLen dmax : Int) : Result :=
  match parseMessage p dmax.toNat (bs.take srcLen.toNat) with
  | .error st => .decode st none
  | .ok m => .decode (m.pay.length : Int) (some m)

/-- DECODE of a source with the bytes `bs` returns `decodeResult`, whatever its destinations. -/
theorem execDecode_results (s t : State) (src : Source) (bs : List Byte) (srcLen : Int)
    (dst : Destinations) (hs : sourceBytes src s = some bs)
    (h : execDecode src srcLen dst s = .next t) :
    t.results = s.results ++ [decodeResult s.build bs srcLen dst.dmax] := by
  obtain ⟨bs', hs', -, hres⟩ := execDecode_next s t src srcLen dst h
  obtain rfl : bs = bs' := Option.some.inj (hs.symm.trans hs')
  rcases hres with ⟨st, hparse, rfl⟩ | ⟨m, hparse, rfl⟩
  · simp [decodeResult, hparse]
  · simp [decodeResult, hparse]

/-- An ENCODE returns a message that its operands alone determine, in every state where it runs. -/
theorem encode_result_of_operands (i : Instr) (ch : Nat) (tag : Tag) (sub : Int) (pay : List Byte)
    (len : Int) (hi : i ∈ [Instr.encodeHex ch tag sub pay len, .encodeLit ch tag sub pay len]) :
    ∃ r, ∀ s t : State, exec i s = .next t → t.results = s.results ++ [r] := by
  simp only [List.mem_cons, List.not_mem_nil, or_false] at hi
  rcases hi with rfl | rfl
  · refine ⟨.message (hexMessage tag sub pay len), fun s t h => ?_⟩
    obtain ⟨sl, -, -, -, rfl⟩ := execEncodeHex_next _ _ _ _ _ _ _ h
    rfl
  · refine ⟨.message (litMessage tag sub pay len), fun s t h => ?_⟩
    obtain ⟨sl, -, -, -, rfl⟩ := execEncodeLit_next _ _ _ _ _ _ _ h
    rfl

/-- Settles O20: an ENCODE's result is fixed by its operands (its mode is part of the instruction),
and a DECODE's by the parameters, the source's bytes and its operands but the destinations' names. -/
theorem codecIsStateless : Obligations.CodecIsStateless := by
  unfold Obligations.CodecIsStateless
  refine ⟨?encode, ?decode⟩
  case encode =>
    intro s s' t t' ch sl sl' i tag sub pay len hi _ _ _ h h'
    obtain ⟨r, hr⟩ := encode_result_of_operands i ch tag sub pay len hi
    exact ⟨r, hr s t h, hr s' t' h'⟩
  case decode =>
    intro s s' t t' src bs srcLen dmax dst dst' hs hs' hbuild h h'
    refine ⟨decodeResult s.build bs srcLen dmax, execDecode_results s t src bs srcLen _ hs h, ?_⟩
    rw [hbuild]
    exact execDecode_results s' t' src bs srcLen _ hs' h'

end Sys2Proof.Machine

/-!
PROOF. The frame reader contract (40_frame_reader_contract R100..R106): which POLL a request runs,
what every POLL does around its automaton whichever it is, and RESET and DATA.
-/

namespace Sys2Proof.Machine

/-! ## POLL around its automaton -/

/-- The channel's slot in the state after a POLL. -/
theorem afterPoll_getElem_self (s : State) (ch : Nat) (sl : Slot) (u : Channel) (st : Int)
    (hs : s.channels[ch]? = some sl) :
    (afterPoll s ch sl u st).channels[ch]? =
      some ⟨u, { sl.transport with arrivals := sl.transport.arrivals.tail }⟩ :=
  State.setSlot_getElem_self s ch sl _ hs

/-- The frame of a POLL of either kind: it ends in `afterPoll` with a unit that has its
configuration and, but at the cursor, its buffer as they were, and that was reset if the status is
not 0. -/
theorem poll_frame (i : Instr) (s t : State) (ch : Nat)
    (hi : i ∈ [Instr.pollLine ch, .pollBin ch]) (h : exec i s = .next t) :
    ∃ (sl : Slot) (u : Channel) (st : Int), s.channels[ch]? = some sl ∧ t = afterPoll s ch sl u st ∧
      SameConfig sl.unit u ∧ (∀ k, k ≠ sl.unit.cursor → u.buf.find k = sl.unit.buf.find k) ∧
      (st ≠ 0 → ReaderFields u 0 0x00#8 0x00#8) := by
  obtain ⟨sl, reader, hs, hr, hpoll⟩ := poll_next i s t ch hi h
  obtain ⟨u, st, hu, rfl⟩ := pollWith_next _ _ _ _ _ hpoll
  refine ⟨sl, u, st, hs, rfl, ?_⟩
  rcases hu with ⟨-, rfl, rfl⟩ | ⟨b, -, hstep⟩
  · exact ⟨⟨rfl, rfl, rfl, rfl, rfl⟩, fun _ _ => rfl, fun h0 => absurd rfl h0⟩
  · rcases hr with ⟨rfl, -, -⟩ | ⟨rfl, -, -⟩
    · exact lineStep_frame _ _ _ _ hstep
    · exact binStep_frame _ _ _ _ _ hstep

/-- A POLL whose automaton has no fault on its channel ends with a status, byte or no byte. -/
theorem pollWith_answers (reader : Channel → Byte → ReaderAnswer) (ch : Nat) (sl : Slot) (s : State)
    (hr : ∀ b f, reader sl.unit b ≠ .error f) :
    ∃ u st, pollWith reader ch sl s = .next (afterPoll s ch sl u st) := by
  cases hb : sl.transport.arrivals.head?.join with
  | none => exact ⟨sl.unit, 0, pollWith_none reader ch sl s hb⟩
  | some b =>
    cases hstep : reader sl.unit b with
    | error f => exact absurd hstep (hr b f)
    | ok r => exact ⟨r.1, r.2, pollWith_some reader ch sl s b r.1 r.2 hb hstep⟩

/-- R146's bounds keep the line reader's cursor inside its buffer. -/
theorem lineStep_ne_error (c : Channel) (hc : c.LineOk) (b : Byte) (f : Fault) :
    lineStep c b ≠ .error f := by
  intro h
  have hout := lineStep_error c b f h
  obtain ⟨hin, -, -⟩ := hc
  omega

/-- R31's bounds keep the binary reader's cursor inside its buffer once the header is past. -/
theorem binStep_ne_error (p : Build) (c : Channel) (hc : c.BinOk) (b : Byte) (f : Fault) :
    binStep p c b ≠ .error f := by
  intro h
  obtain ⟨hpast, hout⟩ := binStep_error p c b f h
  rcases hc with ⟨hhead, -, -⟩ | ⟨-, hbody, hcount⟩ <;> omega

/-- Settles O23: on a channel that meets its invariant neither automaton faults, so the POLL around
it answers a status. -/
theorem pollAlwaysEndsWithAStatus : Obligations.PollAlwaysEndsWithAStatus := by
  unfold Obligations.PollAlwaysEndsWithAStatus
  rintro s ch sl hs ⟨-, -, -, hline, hbin⟩
  refine ⟨fun hk => ?line, fun hk => ?bin⟩
  case line =>
    obtain ⟨u, st, h⟩ := pollWith_answers lineStep ch sl s (lineStep_ne_error _ (hline hk))
    exact ⟨u, st, (execPollLine_eq hs hk).trans h⟩
  case bin =>
    obtain ⟨u, st, h⟩ :=
      pollWith_answers (binStep s.build) ch sl s (binStep_ne_error _ _ (hbin hk))
    exact ⟨u, st, (execPollBin_eq hs hk).trans h⟩

/-- Settles O24: both automata answer a nonzero status only with a reset reader, and a POLL without
a byte answers 0. -/
theorem pollResetsOnNonzeroStatus : Obligations.PollResetsOnNonzeroStatus := by
  unfold Obligations.PollResetsOnNonzeroStatus
  intro i s t ch st hi h hres hst
  obtain ⟨sl, u, st', hs, rfl, -, -, hreset⟩ := poll_frame i s t ch hi h
  obtain rfl : st' = st := by simpa using hres
  exact ⟨_, afterPoll_getElem_self s ch sl u st' hs, hreset hst⟩

/-- Settles O22: a POLL takes the head off the arrivals whatever it is, and where that is no byte
the automaton does not run. -/
theorem pollTakesOneByteAtMost : Obligations.PollTakesOneByteAtMost := by
  unfold Obligations.PollTakesOneByteAtMost
  intro s ch sl hs
  refine ⟨?oneArrival, ?noByte⟩
  case oneArrival =>
    intro i t hi h
    obtain ⟨sl', u, st, hs', rfl, -⟩ := poll_frame i s t ch hi h
    obtain rfl : sl = sl' := Option.some.inj (hs.symm.trans hs')
    exact ⟨u, afterPoll_getElem_self s ch sl u st hs⟩
  case noByte =>
    intro hnone
    have hb : sl.transport.arrivals.head?.join = none := by
      rcases hnone with h | h <;> simp [h]
    exact ⟨fun hk => (execPollLine_eq hs hk).trans (pollWith_none _ _ _ _ hb),
      fun hk => (execPollBin_eq hs hk).trans (pollWith_none _ _ _ _ hb)⟩

/-! ## Dispatch by KIND -/

/-- The key of a POLL selects POLL.LINE on a LINE channel, in either mode. -/
theorem selectOpcode_poll_line (hexmode : Bool) :
    selectOpcode (operationKey hexmode .line 0b000#3) = some .pollLine := by
  cases hexmode <;> decide

/-- The key of a POLL selects POLL.BIN on a BIN channel, in either mode. -/
theorem selectOpcode_poll_bin (hexmode : Bool) :
    selectOpcode (operationKey hexmode .bin 0b000#3) = some .pollBin := by
  cases hexmode <;> decide

/-- A request to a constructed channel runs the operation that the channel's key selects (R70). -/
theorem step_issue_channel (s : State) (r : Request) (rest : List Interaction) (ch : Nat)
    (sl : Slot) (o : Opcode) (hp : s.pending = .issue r :: rest) (ht : r.target = .channel ch)
    (hs : s.channels[ch]? = some sl)
    (ho : selectOpcode (operationKey sl.unit.hexmode sl.unit.kind r.op) = some o) :
    step s = exec (channelInstr o ch r.args) (s.setPending rest) := by
  have hfetch : fetch r s = .ok (channelInstr o ch r.args) := by
    simp [fetch, requestKey, decodeKey, ht, hs, ho]
  exact step_issue_ok s r rest _ hp hfetch

/-- No instruction writes a channel's configuration (R23). -/
theorem exec_sameConfig (i : Instr) (s t : State) (ch : Nat) (sl : Slot) (h : exec i s = .next t)
    (hs : s.channels[ch]? = some sl) :
    ∃ sl', t.channels[ch]? = some sl' ∧ SameConfig sl.unit sl'.unit := by
  by_cases hpoll : i ∈ [Instr.pollLine ch, .pollBin ch]
  · obtain ⟨sl', u, st, hs', rfl, hcfg, -⟩ := poll_frame i s t ch hpoll h
    obtain rfl : sl = sl' := Option.some.inj (hs.symm.trans hs')
    exact ⟨_, afterPoll_getElem_self s ch sl u st hs, hcfg⟩
  by_cases hreset : i = .reset ch
  · subst hreset
    cases (execReset_eq hs).symm.trans h
    exact ⟨_, State.setSlot_getElem_self s ch sl _ hs, rfl, rfl, rfl, rfl, rfl⟩
  · exact ⟨sl, (exec_channel_of_not_addressed i s t ch h hpoll hreset).trans hs,
      rfl, rfl, rfl, rfl, rfl⟩

/-- Settles O12: the KIND bit of the key picks the POLL, and KIND is configuration, which no
instruction writes. -/
theorem pollIsDispatchedByKind : Obligations.PollIsDispatchedByKind := by
  unfold Obligations.PollIsDispatchedByKind
  refine ⟨?dispatch, ?kind⟩
  case dispatch =>
    intro s r rest ch sl hp hop ht hs
    cases hk : sl.unit.kind with
    | line =>
      exact step_issue_channel s r rest ch sl .pollLine hp ht hs
        (by rw [hop, hk]; exact selectOpcode_poll_line _)
    | bin =>
      exact step_issue_channel s r rest ch sl .pollBin hp ht hs
        (by rw [hop, hk]; exact selectOpcode_poll_bin _)
  case kind =>
    intro i s t ch sl h hs
    obtain ⟨sl', hs', hkind, -⟩ := exec_sameConfig i s t ch sl h hs
    exact ⟨sl', hs', hkind⟩

/-! ## RESET and DATA -/

/-- Settles O40: RESET is `resetReader` on the unit, the transport kept. -/
theorem resetDiscardsThePartialFrame : Obligations.ResetDiscardsThePartialFrame := by
  unfold Obligations.ResetDiscardsThePartialFrame
  intro s ch sl hs
  exact execReset_eq hs

/-- A byte that was never written reads as the construction draw (R241). -/
theorem Channel.byteAt_of_find_none (n : Nat) (c : Channel) (i : Nat) (h : c.buf.find i = none) :
    c.byteAt n i = Config.bufByte n i := by simp [Channel.byteAt, h]

/-- Settles O41: what DATA returns is `Channel.bytes`, which reads each index below C. That two
reads of an unwritten index draw the same byte is the model's choice (log entry 2). -/
theorem dataReturnsTheWholeBuffer : Obligations.DataReturnsTheWholeBuffer := by
  unfold Obligations.DataReturnsTheWholeBuffer
  intro s ch sl hs
  refine ⟨sl.unit.bytes ch, execData_eq hs, Channel.length_bytes _ _, fun i hi => ?_⟩
  rw [Channel.getElem_bytes ch sl.unit i hi]
  exact ⟨fun b hb => congrArg some (Channel.byteAt_of_find _ _ _ _ hb),
    fun hn => congrArg some (Channel.byteAt_of_find_none _ _ _ hn)⟩

end Sys2Proof.Machine

/-!
PROOF. POLL.BIN byte by byte (41_binary_frame_reader R122..R126), and what a whole frame with one
changed byte yields (R132): any schedule of arrivals brings the reader to the checksum byte with
`n + sumBytes body` as its running sum, and no single change keeps that sum equal to the last byte.
-/

namespace Sys2Proof.Machine

/-! ## The binary reader on a byte, by the state of R121 and the check of that state -/

section
variable {p : Build} {c : Channel} {b : Byte}

theorem binStep_header0_reject (hc : c.cursor = 0) (hb : b ≠ p.hdr0) :
    binStep p c b = .ok (c.resetReader, p.binErrHdr0) := by
  rw [binStep, if_pos hc, binHeader0, if_pos hb]

theorem binStep_header0_accept (hc : c.cursor = 0) (hb : b = p.hdr0) :
    binStep p c b = .ok ({ c.put 0 b with cursor := 1 }, 0) := by
  rw [binStep, if_pos hc, binHeader0, if_neg (not_not_intro hb)]

theorem binStep_header1_reject (hc : c.cursor = 1) (hb : b ≠ p.hdr1) :
    binStep p c b = .ok (c.resetReader, p.binErrHdr1) := by
  rw [binStep, if_neg (by omega), if_pos hc, binHeader1, if_pos hb]

theorem binStep_header1_accept (hc : c.cursor = 1) (hb : b = p.hdr1) :
    binStep p c b = .ok ({ c.put 1 b with cursor := 2 }, 0) := by
  rw [binStep, if_neg (by omega), if_pos hc, binHeader1, if_neg (not_not_intro hb)]

theorem binStep_length_reject (hc : c.cursor = 2) (hb : (c.C : Int) - 5 < b.toNat) :
    binStep p c b = .ok (c.resetReader, p.binErrCount) := by
  rw [binStep, if_neg (by omega), if_neg (by omega), if_pos hc, binLength, if_pos hb]

theorem binStep_length_accept (hc : c.cursor = 2) (hb : (b.toNat : Int) ≤ (c.C : Int) - 5) :
    binStep p c b = .ok ({ c.put 2 b with count := b, sum := b, cursor := 3 }, 0) := by
  rw [binStep, if_neg (by omega), if_neg (by omega), if_pos hc, binLength, if_neg (by omega)]

theorem binStep_body (h3 : 3 ≤ c.cursor) (hcount : c.cursor < 3 + c.count.toNat)
    (hC : c.cursor < c.C) :
    binStep p c b =
      .ok ({ c.put c.cursor b with sum := c.sum + b, cursor := c.cursor + 1 }, 0) := by
  rw [binStep, if_neg (by omega), if_neg (by omega), if_neg (by omega), if_neg (by omega),
    if_pos hcount, binBody, addSum]

theorem binStep_checksum (hc : c.cursor = 3 + c.count.toNat) (hC : c.cursor < c.C) :
    binStep p c b =
      .ok ((c.put c.cursor b).resetReader,
        if b = c.sum then 4 + (c.count.toNat : Int) else -(4 + (c.count.toNat : Int))) := by
  rw [binStep, if_neg (by omega), if_neg (by omega), if_neg (by omega), if_neg (by omega),
    if_neg (by omega), binChecksum]

end

/-! ## The unit after a store and after a reset -/

theorem sameConfig_put (c : Channel) (i : Nat) (b : Byte) : SameConfig c (c.put i b) := by
  simp [SameConfig]

/-- A write inside the buffer stores its byte and no other. -/
theorem storedAt_put (c : Channel) (i : Nat) (b : Byte) (h : i < c.C) :
    StoredAt c (c.put i b) i b :=
  ⟨by rw [Channel.find_put c i b i h, if_pos rfl], fun k hk => Channel.find_put_of_ne c i b k hk⟩

/-- What a rejected header or count byte leaves: the buffer as it was, a reset reader (R104). -/
theorem resetReader_effect (c : Channel) :
    SameConfig c c.resetReader ∧ c.resetReader.buf = c.buf ∧
      ReaderFields c.resetReader 0 0x00#8 0x00#8 :=
  ⟨⟨rfl, rfl, rfl, rfl, rfl⟩, rfl, rfl, rfl, rfl⟩

/-- POLL.BIN on a byte is the automaton's step on it. -/
theorem exec_pollBin_of_binStep {s : State} {ch : Nat} {sl : Slot} {b : Byte} {u : Channel}
    {st : Int} (hr : Receives s ch sl .bin b) (hstep : binStep s.build sl.unit b = .ok (u, st)) :
    exec (.pollBin ch) s = .next (afterPoll s ch sl u st) := by
  obtain ⟨hs, hk, hb⟩ := hr
  exact (execPollBin_eq hs hk).trans (pollWith_some _ ch sl s b u st (by simp [hb]) hstep)

/-! ## One byte -/

/-- Settles O31: the two outcomes of AwaitHeader0. -/
theorem pollBin_binHeader0 : Obligations.BinHeader0 := by
  unfold Obligations.BinHeader0
  refine ⟨rfl, rfl, fun s ch sl b hr hc => ⟨fun hb => ?reject, fun hb hC => ?accept⟩⟩
  case reject =>
    exact ⟨_, exec_pollBin_of_binStep hr (binStep_header0_reject hc hb), resetReader_effect _⟩
  case accept =>
    exact ⟨_, exec_pollBin_of_binStep hr (binStep_header0_accept hc hb), sameConfig_put _ 0 b,
      storedAt_put _ 0 b hC, rfl, Channel.put_count _ _ _, Channel.put_sum _ _ _⟩

/-- Settles O32: the two outcomes of AwaitHeader1, where `buf[1]` exists. -/
theorem pollBin_binHeader1 : Obligations.BinHeader1 := by
  unfold Obligations.BinHeader1
  refine ⟨rfl, rfl, fun s ch sl b hr hc => ⟨fun hb => ?reject, fun hb hC => ?accept⟩⟩
  case reject =>
    exact ⟨_, exec_pollBin_of_binStep hr (binStep_header1_reject hc hb), resetReader_effect _⟩
  case accept =>
    exact ⟨_, exec_pollBin_of_binStep hr (binStep_header1_accept hc hb), sameConfig_put _ 1 b,
      storedAt_put _ 1 b hC, rfl, Channel.put_count _ _ _, Channel.put_sum _ _ _⟩

/-- Settles O34: the two outcomes of AwaitLength; a count within the bound makes C at least 5, so
`buf[2]` exists. -/
theorem binCountIsBounded : Obligations.BinCountIsBounded := by
  unfold Obligations.BinCountIsBounded
  refine ⟨rfl, fun s ch sl b hr hc => ⟨fun hb => ?reject, fun hb => ?accept⟩⟩
  case reject =>
    exact ⟨_, exec_pollBin_of_binStep hr (binStep_length_reject hc hb), resetReader_effect _⟩
  case accept =>
    exact ⟨_, exec_pollBin_of_binStep hr (binStep_length_accept hc hb), sameConfig_put _ 2 b,
      storedAt_put _ 2 b (by omega), rfl, rfl, rfl⟩

/-- Settles O35: AwaitCommand and AwaitPayload; the sum of two bytes is their sum modulo 256. -/
theorem binBodyIsStoredAndSummed : Obligations.BinBodyIsStoredAndSummed := by
  unfold Obligations.BinBodyIsStoredAndSummed
  intro s ch sl b hr h3 hcount hC
  exact ⟨_, exec_pollBin_of_binStep hr (binStep_body h3 hcount hC), sameConfig_put _ _ b,
    storedAt_put _ _ b hC, rfl, Channel.put_count _ _ _, BitVec.toNat_add _ _⟩

/-- Settles O36: AwaitChecksum compares the byte with the running sum after storing it. -/
theorem binChecksumDecides : Obligations.BinChecksumDecides := by
  unfold Obligations.BinChecksumDecides
  intro s ch sl b hr hc hC
  exact ⟨_, _, exec_pollBin_of_binStep hr (binStep_checksum hc hC), fun hb => if_pos hb,
    fun hb => if_neg hb, sameConfig_put _ _ b, storedAt_put _ _ b hC, rfl, rfl, rfl⟩

/-! ## A schedule of arrivals, one POLL each -/

/-- The automaton takes the bytes of the list one by one, each with status 0, from the unit `c` to
the unit `d`. -/
def Takes (reader : Channel → Byte → ReaderAnswer) : Channel → List Byte → Channel → Prop
  | c, [], d => d = c
  | c, b :: bs, d => ∃ u, reader c b = .ok (u, 0) ∧ Takes reader u bs d

theorem runOps_cons_next {i : Instr} {is : List Instr} {s t : State} (h : exec i s = .next t) :
    runOps (i :: is) s = runOps is t := by rw [runOps, h]

/-- One more operation at the end of a run that answered a next state. -/
theorem runOps_replicate_succ {i : Instr} {n : Nat} {s t u : State}
    (h : runOps (List.replicate n i) s = .next t) (hlast : exec i t = .next u) :
    runOps (List.replicate (n + 1) i) s = .next u := by
  induction n generalizing s with
  | zero =>
    cases h
    exact runOps_cons_next hlast
  | succ n ih =>
    rw [List.replicate_succ, runOps] at h ⊢
    split at h
    · exact ih h
    · cases h
    · cases h

/-- A POLL of either kind under any schedule of arrivals (R101, R133): where the automaton takes the
bytes among them with status 0, every POLL returns 0 and the unit ends where the automaton does. -/
theorem runOps_poll_of_takes {i : Instr} {ch : Nat} {k : Kind}
    {reader : Build → Channel → Byte → ReaderAnswer}
    (hexec : ∀ (s : State) (sl : Slot), s.channels[ch]? = some sl → sl.unit.kind = k →
      exec i s = pollWith (reader s.build) ch sl s)
    (hkind : ∀ p c b u st, reader p c b = .ok (u, st) → u.kind = c.kind)
    (early rest : List (Option Byte)) (d : Channel) (s : State) (sl : Slot)
    (hs : s.channels[ch]? = some sl) (hk : sl.unit.kind = k)
    (harr : sl.transport.arrivals = early ++ rest)
    (htakes : Takes (reader s.build) sl.unit (early.filterMap id) d) :
    ∃ (t : State) (tr : Transport),
      runOps (List.replicate early.length i) s = .next t ∧ t.build = s.build ∧
      t.results = s.results ++ List.replicate early.length (.status 0) ∧
      t.channels[ch]? = some ⟨d, tr⟩ ∧ d.kind = k ∧ tr.arrivals = rest := by
  induction early generalizing s sl with
  | nil =>
    obtain rfl : d = sl.unit := htakes
    exact ⟨s, sl.transport, rfl, rfl, by simp, hs, hk, harr⟩
  | cons e early ih =>
    have hstep : ∃ u, exec i s = .next (afterPoll s ch sl u 0) ∧ u.kind = k ∧
        Takes (reader s.build) u (early.filterMap id) d := by
      rw [hexec s sl hs hk]
      cases e with
      | none => exact ⟨sl.unit, pollWith_none _ ch sl s (by simp [harr]), hk, htakes⟩
      | some b =>
        obtain ⟨u, hu, htakes⟩ := htakes
        exact ⟨u, pollWith_some _ ch sl s b u 0 (by simp [harr]) hu,
          (hkind _ _ _ _ _ hu).trans hk, htakes⟩
    obtain ⟨u, hnext, huk, htakes⟩ := hstep
    obtain ⟨t, tr, hrun, hbuild, hres, hslot⟩ :=
      ih (afterPoll s ch sl u 0) _ (afterPoll_getElem_self s ch sl u 0 hs) huk (by simp [harr])
        htakes
    refine ⟨t, tr, (runOps_cons_next hnext).trans hrun, hbuild, ?_, hslot⟩
    rw [hres, List.length_cons, List.replicate_succ, List.append_assoc, List.singleton_append]

/-! ## A frame up to its checksum byte -/

/-- The body bytes are taken with status 0 and summed (R125). -/
theorem takes_body {p : Build} (body : List Byte) (c : Channel) (h3 : 3 ≤ c.cursor)
    (hcount : c.cursor + body.length ≤ 3 + c.count.toNat) (hC : 3 + c.count.toNat < c.C) :
    ∃ d, Takes (binStep p) c body d ∧ d.C = c.C ∧
      ReaderFields d (c.cursor + body.length) c.count (c.sum + sumBytes body) := by
  induction body generalizing c with
  | nil => exact ⟨c, rfl, rfl, rfl, rfl, by simp [sumBytes]⟩
  | cons b body ih =>
    rw [List.length_cons] at hcount
    obtain ⟨d, htakes, hdC, hcur, hcnt, hsum⟩ :=
      ih { c.put c.cursor b with sum := c.sum + b, cursor := c.cursor + 1 }
        (by simp only; omega) (by simp only [Channel.put_count]; omega) (by simpa using hC)
    refine ⟨d, ⟨_, binStep_body h3 (by omega) (by omega), htakes⟩, by simpa using hdC, ?_,
      by simpa using hcnt, by simpa [sumBytes, BitVec.add_assoc] using hsum⟩
    simp only [List.length_cons] at hcur ⊢
    omega

/-- The header, a count within the bound and that many body bytes bring the reader to the checksum
byte, with the sum that R126 compares it with. -/
theorem takes_frame {p : Build} (c : Channel) (n : Byte) (body : List Byte) (hc : c.cursor = 0)
    (hlen : body.length = n.toNat) (hn : n.toNat + 5 ≤ c.C) :
    ∃ d, Takes (binStep p) c (p.hdr0 :: p.hdr1 :: n :: body) d ∧ d.C = c.C ∧
      ReaderFields d (3 + n.toNat) n (n + sumBytes body) := by
  obtain ⟨u0, h0, hcur0, hC0⟩ : ∃ u, binStep p c p.hdr0 = .ok (u, 0) ∧ u.cursor = 1 ∧ u.C = c.C :=
    ⟨_, binStep_header0_accept hc rfl, rfl, Channel.put_C _ _ _⟩
  obtain ⟨u1, h1, hcur1, hC1⟩ : ∃ u, binStep p u0 p.hdr1 = .ok (u, 0) ∧ u.cursor = 2 ∧ u.C = u0.C :=
    ⟨_, binStep_header1_accept hcur0 rfl, rfl, Channel.put_C _ _ _⟩
  obtain ⟨u2, h2, hC2, hcur2, rfl, hsum2⟩ :
      ∃ u, binStep p u1 n = .ok (u, 0) ∧ u.C = u1.C ∧ ReaderFields u 3 n n :=
    ⟨_, binStep_length_accept hcur1 (by omega), Channel.put_C _ _ _, rfl, rfl, rfl⟩
  obtain ⟨d, htakes, hC, hfields⟩ := takes_body (p := p) body u2 (by omega) (by omega) (by omega)
  rw [hcur2, hsum2, hlen] at hfields
  exact ⟨d, ⟨u0, h0, u1, h1, u2, h2, htakes⟩, by omega, hfields⟩

/-- The run of POLL.BIN up to the checksum byte of a frame, whatever that byte is. -/
theorem runOps_pollBin_to_checksum {s : State} {ch : Nat} {sl : Slot} {n : Byte}
    {body : List Byte} {early rest : List (Option Byte)}
    (hs : s.channels[ch]? = some sl) (hk : sl.unit.kind = .bin) (hc : sl.unit.cursor = 0)
    (hlen : body.length = n.toNat) (hn : n.toNat + 5 ≤ sl.unit.C)
    (harr : sl.transport.arrivals = early ++ rest)
    (hbytes : early.filterMap id = s.build.hdr0 :: s.build.hdr1 :: n :: body) :
    ∃ (t : State) (d : Channel) (tr : Transport),
      runOps (List.replicate early.length (.pollBin ch)) s = .next t ∧
      t.results = s.results ++ List.replicate early.length (.status 0) ∧
      t.channels[ch]? = some ⟨d, tr⟩ ∧ d.kind = .bin ∧ tr.arrivals = rest ∧
      Takes (binStep s.build) sl.unit (early.filterMap id) d ∧ d.C = sl.unit.C ∧
      ReaderFields d (3 + n.toNat) n (n + sumBytes body) := by
  obtain ⟨d, htakes, hC, hfields⟩ := takes_frame (p := s.build) sl.unit n body hc hlen hn
  rw [← hbytes] at htakes
  obtain ⟨t, tr, hrun, -, hres, hslot, hdk, hrest⟩ :=
    runOps_poll_of_takes (i := .pollBin ch) (reader := binStep) (fun _ _ => execPollBin_eq)
      (fun p c b u st h => (binStep_frame p c u b st h).1.1) early rest d s sl hs hk harr htakes
  exact ⟨t, d, tr, hrun, hres, hslot, hdk, hrest, htakes, hC, hfields⟩

/-! ## One changed byte -/

/-- Changing one byte of a list to another value changes its sum modulo 256 (R132). -/
theorem sumBytes_set_ne (m : List Byte) (i : Nat) (x : Byte) (hi : i < m.length)
    (hx : m[i]? ≠ some x) : sumBytes (m.set i x) ≠ sumBytes m := by
  induction m generalizing i with
  | nil => simp at hi
  | cons b m ih =>
    cases i with
    | zero =>
      intro heq
      have hbx : x = b := add_right_cancel heq
      simp [hbx] at hx
    | succ i =>
      intro heq
      exact ih i (by simpa using hi) (by simpa using hx) (add_left_cancel heq)

/-- A frame with one body or checksum byte changed is again header, count and as many body bytes,
but its last byte is no longer their sum. -/
theorem corrupted_frame_split (h0 h1 n x : Byte) (body : List Byte) (j : Nat)
    (hj3 : 3 ≤ j) (hj : j ≤ 3 + body.length)
    (hx : (h0 :: h1 :: n :: body ++ [n + sumBytes body])[j]? ≠ some x) :
    ∃ (body' : List Byte) (last' : Byte),
      (h0 :: h1 :: n :: body ++ [n + sumBytes body]).set j x =
        (h0 :: h1 :: n :: body') ++ [last'] ∧
      body'.length = body.length ∧ last' ≠ n + sumBytes body' := by
  obtain ⟨i, rfl⟩ := Nat.exists_eq_add_of_le' hj3
  simp only [List.cons_append, List.getElem?_cons_succ, List.set_cons_succ] at hx ⊢
  by_cases hi : i < body.length
  · rw [List.getElem?_append_left hi] at hx
    refine ⟨body.set i x, n + sumBytes body, by rw [List.set_append_left _ _ hi],
      List.length_set, fun heq => ?_⟩
    exact sumBytes_set_ne body i x hi hx (add_left_cancel heq).symm
  · obtain rfl : i = body.length := by omega
    refine ⟨body, x, by simp, rfl, fun heq => ?_⟩
    simp [heq] at hx

/-- Settles O39: the frame reaches the checksum byte as a valid one does, and there the byte is not
the running sum. -/
theorem corruptedBinaryFrameIsRejected : Obligations.CorruptedBinaryFrameIsRejected := by
  unfold Obligations.CorruptedBinaryFrameIsRejected
  rintro s ch sl n x last body _ j early rest hs hk hc hlen hn rfl hj3 hj hx harr hbytes
  obtain ⟨body', last', hset, hlen', hne⟩ :=
    corrupted_frame_split _ _ n x body j hj3 (by omega) hx
  obtain ⟨hearly, hlast⟩ := List.append_inj' (hbytes.trans hset) rfl
  obtain rfl : last = last' := List.singleton_injective hlast
  obtain ⟨t, d, tr, hrun, hres, hslot, hdk, hrest, -, hC, hcur, hcnt, hsum⟩ :=
    runOps_pollBin_to_checksum hs hk hc (hlen'.trans hlen) hn harr hearly
  obtain ⟨u, st, hnext, -, hmismatch, -⟩ :=
    binChecksumDecides t ch ⟨d, tr⟩ last ⟨hslot, hdk, by simp [hrest]⟩
      (by simp only [hcur, hcnt]) (by simp only [hcur, hC]; omega)
  obtain rfl : st = -(4 + (n.toNat : Int)) := by
    rw [← hcnt]
    exact hmismatch (hsum ▸ hne)
  exact ⟨_, runOps_replicate_succ hrun hnext, by simp only [hres]⟩

end Sys2Proof.Machine

/-!
PROOF. POLL.LINE byte by byte (42_line_frame_reader R142..R145), the statuses it can return (R147),
and what a whole line yields (R149): content that does not fill the buffer is taken with status 0 and
stored from the cursor on, so the byte after it finds the cursor at the length of the line.
-/

namespace Sys2Proof.Machine

/-! ## The line reader on a byte, by R22's terminator set and the room left -/

section
variable {c : Channel} {b : Byte}

theorem lineStep_terminator (hcur : c.cursor < c.C) (hb : InTerminatorSet c.T b) :
    lineStep c b = .ok ((c.put c.cursor chNUL).resetReader, (c.cursor : Int)) := by
  rw [lineStep, if_neg (by omega), if_pos ((isTerminator_iff _ _).mpr hb)]

theorem lineStep_append (hcur : c.cursor + 1 < c.C) (hb : ¬ InTerminatorSet c.T b) :
    lineStep c b = .ok ({ c.put c.cursor b with cursor := c.cursor + 1 }, 0) := by
  rw [lineStep, if_neg (by omega), if_neg (mt (isTerminator_iff _ _).mp hb), if_neg (by omega)]

theorem lineStep_overflow (hcur : c.cursor + 1 = c.C) (hb : ¬ InTerminatorSet c.T b) :
    lineStep c b = .ok ((c.put c.cursor b).resetReader, -(c.C : Int)) := by
  rw [lineStep, if_neg (by omega), if_neg (mt (isTerminator_iff _ _).mp hb), if_pos hcur]

end

/-- POLL.LINE on a byte is the automaton's step on it. -/
theorem exec_pollLine_of_lineStep {s : State} {ch : Nat} {sl : Slot} {b : Byte} {u : Channel}
    {st : Int} (hr : Receives s ch sl .line b) (hstep : lineStep sl.unit b = .ok (u, st)) :
    exec (.pollLine ch) s = .next (afterPoll s ch sl u st) := by
  obtain ⟨hs, hk, hb⟩ := hr
  exact (execPollLine_eq hs hk).trans (pollWith_some _ ch sl s b u st (by simp [hb]) hstep)

/-! ## One byte -/

/-- Settles O26: the terminator's slot holds NUL, and the status is the cursor before the reset. -/
theorem lineTerminatorCompletesTheLine : Obligations.LineTerminatorCompletesTheLine := by
  unfold Obligations.LineTerminatorCompletesTheLine
  intro s ch sl b hr hcur hb
  exact ⟨_, exec_pollLine_of_lineStep hr (lineStep_terminator hcur hb),
    sameConfig_put _ _ chNUL, storedAt_put _ _ chNUL hcur, rfl, rfl, rfl⟩

/-- Settles O27: a byte outside the set is stored, and the cursor still points into the buffer. -/
theorem lineContentIsAppended : Obligations.LineContentIsAppended := by
  unfold Obligations.LineContentIsAppended
  intro s ch sl b hr hcur hb
  exact ⟨_, exec_pollLine_of_lineStep hr (lineStep_append hcur hb), sameConfig_put _ _ b,
    storedAt_put _ _ b (by omega), rfl, Channel.put_count _ _ _, Channel.put_sum _ _ _⟩

/-- Settles O28: the byte that fills the buffer is stored before the reset. -/
theorem lineOverflowReportsCapacity : Obligations.LineOverflowReportsCapacity := by
  unfold Obligations.LineOverflowReportsCapacity
  intro s ch sl b hr hcur hb
  exact ⟨_, exec_pollLine_of_lineStep hr (lineStep_overflow hcur hb), sameConfig_put _ _ b,
    storedAt_put _ _ b (by omega), rfl, rfl, rfl⟩

/-! ## The statuses -/

/-- A status of POLL.LINE on a channel of capacity `C` (R147). -/
def IsLineStatus (C : Nat) (st : Int) : Prop :=
  st = 0 ∨ (1 ≤ st ∧ st ≤ (C : Int) - 1) ∨ st = -(C : Int)

/-- The line reader answers the cursor on a terminator, -C on overflow, and else 0. -/
theorem lineStep_isLineStatus {c u : Channel} {b : Byte} {st : Int}
    (h : lineStep c b = .ok (u, st)) : IsLineStatus c.C st := by
  obtain ⟨hcur, ⟨-, -, rfl⟩ | ⟨-, -, -, rfl⟩ | ⟨-, -, -, rfl⟩⟩ := lineStep_cases _ _ _ _ h
  · unfold IsLineStatus
    omega
  · exact .inr (.inr rfl)
  · exact .inl rfl

theorem exec_pollLine_isLineStatus {s t : State} {ch : Nat} {sl : Slot} {st : Int}
    (hs : s.channels[ch]? = some sl) (h : exec (.pollLine ch) s = .next t)
    (hres : t.results = s.results ++ [.status st]) : IsLineStatus sl.unit.C st := by
  obtain ⟨sl', hs', -, hpoll⟩ := execPollLine_next _ _ _ h
  obtain rfl : sl' = sl := Option.some_injective _ (hs'.symm.trans hs)
  obtain ⟨u, st', hst, rfl⟩ := pollWith_next _ _ _ _ _ hpoll
  obtain rfl : st' = st := by simpa using hres
  rcases hst with ⟨-, -, rfl⟩ | ⟨b, -, hstep⟩
  · exact .inl rfl
  · exact lineStep_isLineStatus hstep

/-- The slot of a LINE channel of capacity `C` with the default terminator set, `n` content bytes
read and the byte `b` waiting. -/
def lineSlotAt (C n : Nat) (b : Byte) : Slot where
  unit :=
    { kind := .line, C := C, id := 0, hexmode := false, T := defaultT, cursor := n,
      count := 0x00#8, sum := 0x00#8, buf := [] }
  transport := { arrivals := [some b], begins := [defaultBuild.baud] }

/-- The power-on state with that channel constructed. -/
def lineStateAt (C n : Nat) (b : Byte) : State :=
  { State.reset with channels := [lineSlotAt C n b] }

theorem lineStateAt_receives (C n : Nat) (b : Byte) :
    Receives (lineStateAt C n b) 0 (lineSlotAt C n b) .line b := ⟨rfl, rfl, rfl⟩

theorem lineSlotAt_inv {C n : Nat} (b : Byte) (hn : n < C) (hC : C ≤ 32767) :
    (lineSlotAt C n b).Inv defaultBuild := by
  have hconfig : (lineSlotAt C n b).unit.ConfigOk defaultBuild :=
    ⟨⟨Nat.one_le_of_lt hn, hC⟩, Nat.two_pow_pos _⟩
  have hline : (lineSlotAt C n b).unit.LineOk := ⟨hn, rfl, rfl⟩
  exact ⟨⟨hconfig, .nil, by simp [lineSlotAt], fun _ => hline, nofun⟩, rfl⟩

theorem lineStateAt_inv {C n : Nat} (b : Byte) (hn : n < C) (hC : C ≤ 32767) :
    (lineStateAt C n b).Inv := by
  have hbuild : defaultBuild.Ok := by decide
  have hdests : State.reset.dests.Inv := by decide
  refine ⟨hbuild, fun sl hsl => ?_, hdests⟩
  obtain rfl := List.mem_singleton.mp hsl
  exact lineSlotAt_inv b hn hC

/-- Each status of R147 is returned on some channel of capacity `C`: the cursor `n`, 0 included, by
a terminator there, and -C by a content byte at the last index. -/
theorem exists_pollLine_status {C : Nat} {st : Int} (h1 : 1 ≤ C) (hst : IsLineStatus C st) :
    ∃ (n : Nat) (b : Byte) (u : Channel), n < C ∧
      exec (.pollLine 0) (lineStateAt C n b) =
        .next (afterPoll (lineStateAt C n b) 0 (lineSlotAt C n b) u st) := by
  by_cases h0 : 0 ≤ st
  · obtain ⟨n, rfl⟩ := Int.eq_ofNat_of_zero_le h0
    have hn : n < C := by
      unfold IsLineStatus at hst
      omega
    have hnul : InTerminatorSet defaultT chNUL := by decide
    obtain ⟨u, hu, -⟩ :=
      lineTerminatorCompletesTheLine _ 0 _ chNUL (lineStateAt_receives C n chNUL) hn hnul
    exact ⟨n, chNUL, u, hn, hu⟩
  · obtain rfl : st = -(C : Int) := by
      unfold IsLineStatus at hst
      omega
    have hsp : ¬ InTerminatorSet defaultT chSP := by decide
    obtain ⟨u, hu, -⟩ :=
      lineOverflowReportsCapacity _ 0 _ chSP (lineStateAt_receives C (C - 1) chSP)
        (Nat.sub_add_cancel h1) hsp
    exact ⟨C - 1, chSP, u, by omega, hu⟩

/-- Settles O29: `lineStep_cases` leaves no other status, and a channel with the right cursor
returns each. -/
theorem lineStatusesAreExactly : Obligations.LineStatusesAreExactly := by
  unfold Obligations.LineStatusesAreExactly
  refine ⟨fun s t ch sl st => exec_pollLine_isLineStatus, fun C st h1 hC hst => ?_⟩
  obtain ⟨n, b, u, hn, hu⟩ := exists_pollLine_status h1 hst
  exact ⟨_, _, _, lineStateAt_inv b hn hC, rfl, rfl, hu, rfl⟩

/-! ## A whole line -/

/-- Content that leaves at least one slot free is taken with status 0 and stored from the cursor on
(R143). -/
theorem takes_content (content : List Byte) (c : Channel)
    (hroom : c.cursor + content.length < c.C) (hcontent : ∀ x ∈ content, ¬ InTerminatorSet c.T x) :
    ∃ d, Takes lineStep c content d ∧ d.C = c.C ∧ d.T = c.T ∧
      d.cursor = c.cursor + content.length ∧ (∀ k < c.cursor, d.buf.find k = c.buf.find k) ∧
      ∀ i < content.length, d.buf.find (c.cursor + i) = content[i]? := by
  induction content generalizing c with
  | nil => exact ⟨c, rfl, rfl, rfl, rfl, fun _ _ => rfl, nofun⟩
  | cons b content ih =>
    rw [List.length_cons] at hroom
    obtain ⟨hb, hcontent⟩ := List.forall_mem_cons.mp hcontent
    obtain ⟨u, hstep, hC, hT, ⟨hstored, hkept⟩, hcur⟩ :
        ∃ u, lineStep c b = .ok (u, 0) ∧ u.C = c.C ∧ u.T = c.T ∧ StoredAt c u c.cursor b ∧
          u.cursor = c.cursor + 1 :=
      ⟨_, lineStep_append (by omega) hb, Channel.put_C _ _ _, Channel.put_T _ _ _,
        storedAt_put _ _ b (by omega), rfl⟩
    obtain ⟨d, htakes, hdC, hdT, hdcur, hbelow, hline⟩ :=
      ih u (by omega) (hT ▸ hcontent)
    rw [hcur] at hdcur hbelow hline
    refine ⟨d, ⟨u, hstep, htakes⟩, hdC.trans hC, hdT.trans hT,
      by rw [hdcur, List.length_cons]; omega,
      fun k hk => (hbelow k (by omega)).trans (hkept k (by omega)), fun i hi => ?_⟩
    cases i with
    | zero => exact (hbelow c.cursor (by omega)).trans hstored
    | succ i =>
      rw [List.getElem?_cons_succ, ← hline i (by simpa using hi)]
      congr 1
      omega

/-- The run of POLL.LINE up to the byte after the content of a line, whatever that byte is. -/
theorem runOps_pollLine_content {s : State} {ch : Nat} {sl : Slot} {early : List (Option Byte)}
    {content : List Byte} {b : Byte} {rest : List (Option Byte)}
    (hs : s.channels[ch]? = some sl) (hk : sl.unit.kind = .line) (hcur : sl.unit.cursor = 0)
    (hroom : content.length + 1 ≤ sl.unit.C)
    (hcontent : ∀ x ∈ content, ¬ InTerminatorSet sl.unit.T x)
    (harr : sl.transport.arrivals = early ++ some b :: rest)
    (hbytes : early.filterMap id = content) :
    ∃ (t : State) (sl' : Slot),
      runOps (List.replicate early.length (.pollLine ch)) s = .next t ∧
      t.results = s.results ++ List.replicate early.length (.status 0) ∧
      Receives t ch sl' .line b ∧ sl'.transport.arrivals.tail = rest ∧
      sl'.unit.C = sl.unit.C ∧ sl'.unit.T = sl.unit.T ∧ sl'.unit.cursor = content.length ∧
      ∀ i < content.length, sl'.unit.buf.find i = content[i]? := by
  obtain ⟨d, htakes, hC, hT, hdcur, -, hline⟩ :=
    takes_content content sl.unit (by omega) hcontent
  simp only [hcur, Nat.zero_add] at hdcur hline
  rw [← hbytes] at htakes
  obtain ⟨t, tr, hrun, -, hres, hslot, hdk, hrest⟩ :=
    runOps_poll_of_takes (i := .pollLine ch) (reader := fun _ => lineStep)
      (fun _ _ => execPollLine_eq) (fun _ c b u st h => (lineStep_frame c u b st h).1.1)
      early (some b :: rest) d s sl hs hk harr htakes
  exact ⟨t, ⟨d, tr⟩, hrun, hres, ⟨hslot, hdk, by simp [hrest]⟩, by simp [hrest], hC, hT, hdcur,
    hline⟩

/-- Settles O30: the content leaves the cursor at its length, so a terminator there returns that
length, and a content byte at the last index is the overflow. -/
theorem lineFrameIsDelivered : Obligations.LineFrameIsDelivered := by
  unfold Obligations.LineFrameIsDelivered
  intro s ch sl early content b rest hs hk hcur hroom hcontent harr hbytes
  obtain ⟨t, sl', hrun, hres, hr, hrest, hC, hT, hcur', hline⟩ :=
    runOps_pollLine_content hs hk hcur hroom hcontent harr hbytes
  have ⟨hslot, _⟩ := hr
  refine ⟨fun hb => ?terminator, fun hfull hb => ?overflow⟩
  case terminator =>
    obtain ⟨u, hnext, -, ⟨hnul, hkept⟩, hreset, -⟩ :=
      lineTerminatorCompletesTheLine t ch sl' b hr (by omega) (hT ▸ hb)
    rw [hcur'] at hnext hnul hkept
    exact ⟨_, _, runOps_replicate_succ hrun hnext, by simp only [hres],
      afterPoll_getElem_self t ch sl' u _ hslot, hrest,
      fun i hi => (hkept i (by omega)).trans (hline i hi), hnul, hreset⟩
  case overflow =>
    obtain ⟨u, hnext, -, -, hreset, -⟩ :=
      lineOverflowReportsCapacity t ch sl' b hr (by omega) (hT ▸ hb)
    rw [hC] at hnext
    exact ⟨_, _, runOps_replicate_succ hrun hnext, by simp only [hres],
      afterPoll_getElem_self t ch sl' u _ hslot, hrest, hreset⟩

end Sys2Proof.Machine

/-!
PROOF. The ASCII encoder (43_ascii_encode R160..R169): the checksum is the complement of the sum, hex
pairs and decimal fields spell their values, and ENCODE on a channel in its mode is a cascade of three
checks with the sealed message at its end.
-/

namespace Sys2Proof.Machine

/-! ## The checksum -/

/-- The checksum of the exact sum (R160). -/
theorem asciiChk_toNat (m : List Byte) :
    (asciiChk m).toNat = (256 - (m.map BitVec.toNat).sum % 256) % 256 := by
  simp [asciiChk, sumBytes_toNat]

/-- A byte is below 256, so it is the complement of the sum as soon as it is that modulo 256. -/
theorem eq_asciiChk_iff (m : List Byte) (k : Byte) :
    ((m.map BitVec.toNat).sum + k.toNat) % 256 = 0 ↔ k = asciiChk m := by
  rw [← BitVec.toNat_inj, asciiChk_toNat]
  have hk := k.isLt
  omega

/-- Settles O43: the formula, and its uniqueness, over the exact sum of the bytes. -/
theorem asciiChecksumIsTheUniqueComplement : Obligations.AsciiChecksumIsTheUniqueComplement := by
  unfold Obligations.AsciiChecksumIsTheUniqueComplement
  exact fun m => ⟨asciiChk_toNat m, eq_asciiChk_iff m⟩

/-! ## Hex digits and pairs -/

theorem isDig_iff (x : Byte) : isDig x = true ↔ 0x30 ≤ x.toNat ∧ x.toNat ≤ 0x39 :=
  decide_eq_true_iff

/-- The hex digits DECODE accepts are R83's. -/
theorem isHex_iff (lowerOk : Bool) (x : Byte) :
    isHex lowerOk x = true ↔
      (0x30 ≤ x.toNat ∧ x.toNat ≤ 0x39) ∨ (0x41 ≤ x.toNat ∧ x.toNat ≤ 0x46) ∨
        (lowerOk = true ∧ 0x61 ≤ x.toNat ∧ x.toNat ≤ 0x66) := by
  simp [isHex, isDig_iff, or_assoc]

theorem nib_of_digit (x : Byte) (h : 0x30 ≤ x.toNat ∧ x.toNat ≤ 0x39) :
    nib x = x.toNat - 0x30 := by
  rw [nib, if_pos ((isDig_iff x).mpr h)]

theorem nib_of_upper (x : Byte) (h : 0x41 ≤ x.toNat ∧ x.toNat ≤ 0x46) :
    nib x = 10 + (x.toNat - 0x41) := by
  rw [nib, if_neg (by rw [isDig_iff]; omega), if_pos h]
  omega

theorem nib_of_lower (x : Byte) (h : 0x61 ≤ x.toNat ∧ x.toNat ≤ 0x66) :
    nib x = 10 + (x.toNat - 0x61) := by
  rw [nib, if_neg (by rw [isDig_iff]; omega), if_neg (by omega)]
  omega

/-- The code of a hex digit (R161). -/
theorem hexDigit_toNat (v : Nat) (h : v < 16) :
    (hexDigit v).toNat = if v ≤ 9 then 0x30 + v else 0x41 + (v - 10) := by
  revert v; decide

theorem isHex_hexDigit (lowerOk : Bool) (v : Nat) (h : v < 16) :
    isHex lowerOk (hexDigit v) = true := by
  rw [isHex_iff, hexDigit_toNat v h]
  split <;> omega

theorem nib_hexDigit (v : Nat) (h : v < 16) : nib (hexDigit v) = v := by
  have hcode := hexDigit_toNat v h
  split at hcode
  · rw [nib_of_digit _ (by omega)]
    omega
  · rw [nib_of_upper _ (by omega)]
    omega

/-- The two digits of a byte spell it (R80, R161). -/
theorem hexPair_hexDigits (b : Byte) :
    hexPair (hexDigit (b.toNat / 16)) (hexDigit (b.toNat % 16)) = b := by
  have hb := b.isLt
  rw [hexPair, nib_hexDigit _ (by omega), nib_hexDigit _ (by omega), Nat.div_add_mod,
    BitVec.ofNat_toNat, BitVec.setWidth_eq]

/-- Settles O44: both nibbles of a byte are below 16, where `hexDigit` is a digit of that value. -/
theorem hexPairsReadBack : Obligations.HexPairsReadBack := by
  unfold Obligations.HexPairsReadBack
  refine ⟨fun b lowerOk => ?pair, fun x lowerOk => ?digit⟩
  case pair =>
    have hb := b.isLt
    have hhigh : b.toNat / 16 < 16 := by omega
    have hlow : b.toNat % 16 < 16 := by omega
    exact ⟨_, _, rfl, hexDigit_toNat _ hhigh, hexDigit_toNat _ hlow,
      isHex_hexDigit lowerOk _ hhigh, isHex_hexDigit lowerOk _ hlow, hexPair_hexDigits b⟩
  case digit =>
    exact ⟨isHex_iff lowerOk x, nib_of_digit x, nib_of_upper x, nib_of_lower x⟩

/-! ## Decimal fields -/

theorem dec_of_lt_ten (n : Nat) (h : n < 10) : dec n = [decDigit n] := if_pos h

/-- Past one digit, `dec` is the decimal of the tens and then the last digit. -/
theorem dec_eq_concat (n : Nat) (h10 : 10 ≤ n) (h : n ≤ 9999) :
    dec n = dec (n / 10) ++ [decDigit (n % 10)] := by
  have h100 : n / 10 / 10 = n / 100 := Nat.div_div_eq_div_mul n 10 10
  have h1000 : n / 10 / 100 = n / 1000 := Nat.div_div_eq_div_mul n 10 100
  by_cases hlt100 : n < 100
  · rw [dec_of_lt_ten (n / 10) (by omega), dec, if_neg (by omega), if_pos hlt100]
    rfl
  by_cases hlt1000 : n < 1000
  · rw [dec, if_neg (by omega), if_neg hlt100, if_pos hlt1000, dec, if_neg (by omega),
      if_pos (by omega), h100]
    rfl
  · rw [dec, if_neg (by omega), if_neg hlt100, if_neg hlt1000, dec, if_neg (by omega),
      if_neg (by omega), if_pos (by omega), h100, h1000]
    rfl

/-- `dec n` is a non-empty string of digits that spells n (R162). -/
theorem dec_spells (n : Nat) (h : n ≤ 9999) :
    dec n ≠ [] ∧ (∀ x ∈ dec n, isDig x = true) ∧ numVal (dec n) = n := by
  induction n using Nat.strongRecOn with
  | ind n ih =>
    by_cases h10 : n < 10
    · obtain ⟨hdig, hval⟩ := decDigit_spec n h10
      rw [dec_of_lt_ten n h10]
      exact ⟨List.cons_ne_nil _ _, by simpa using hdig, by simpa [numVal] using hval⟩
    · obtain ⟨-, hdigs, hvals⟩ := ih (n / 10) (by omega) (by omega)
      obtain ⟨hdig, hval⟩ := decDigit_spec (n % 10) (Nat.mod_lt _ (by decide))
      rw [dec_eq_concat n (by omega) h]
      refine ⟨by simp, ?_, ?_⟩
      · simpa [or_imp, forall_and] using ⟨hdigs, hdig⟩
      · rw [numVal_concat, hvals, hval, Nat.div_add_mod]

/-- A number below 10 ^ (k + 1) is written with at most k + 1 digits. -/
theorem length_dec_le (k n : Nat) (h : n ≤ 9999) (hk : n < 10 ^ (k + 1)) :
    (dec n).length ≤ k + 1 := by
  induction k generalizing n with
  | zero => rw [dec_of_lt_ten n (by simpa using hk)]; rfl
  | succ k ih =>
    by_cases h10 : n < 10
    · rw [dec_of_lt_ten n h10]
      exact Nat.le_add_left _ _
    · rw [dec_eq_concat n (by omega) h, List.length_append]
      have htens := ih (n / 10) (by omega) (Nat.div_lt_of_lt_mul (by rwa [← Nat.pow_succ']))
      exact Nat.succ_le_succ htens

/-- A string of k digits spells a number below 10 ^ k. -/
theorem numVal_lt (ds : List Byte) (h : ∀ x ∈ ds, isDig x = true) :
    numVal ds < 10 ^ ds.length := by
  induction ds using List.reverseRecOn with
  | nil => decide
  | append_singleton ds d ih =>
    have hds := ih fun x hx => h x (List.mem_append_left _ hx)
    have hd := (isDig_iff d).mp (h d (by simp))
    rw [numVal_concat, List.length_append, List.length_singleton, Nat.pow_succ, digVal]
    omega

/-- The length field ENCODE writes is one DECODE accepts (R84, R162). -/
theorem dec_lengthField (n : Nat) (h : n ≤ 9999) : LengthField (dec n) := by
  obtain ⟨hne, hdigs, -⟩ := dec_spells n h
  exact ⟨⟨List.length_pos_iff.mpr hne, length_dec_le 3 n h (by omega)⟩, hdigs⟩

/-- Settles O45: a digit string of length k that spells n bounds it by 10 ^ k, and `dec` writes no
more than k digits then. -/
theorem decIsTheShortestDecimal : Obligations.DecIsTheShortestDecimal := by
  unfold Obligations.DecIsTheShortestDecimal
  refine ⟨fun n h => ?spells, fun x => ⟨isDig_iff x, fun _ => rfl⟩⟩
  case spells =>
    obtain ⟨-, -, hdec⟩ := dec_spells n h
    refine ⟨dec_lengthField n h, hdec, fun ds hne hdigs hval => ?_⟩
    obtain ⟨k, hk⟩ := Nat.exists_eq_add_one.mpr (List.length_pos_iff.mpr hne)
    have hlt := numVal_lt ds hdigs
    rw [hval, hk] at hlt
    rw [hk]
    exact length_dec_le k n h hlt

/-! ## The messages -/

/-- The checksum pair and the NUL are three bytes more (R161, R165). -/
@[simp] theorem length_sealMessage (m : List Byte) : (sealMessage m).length = m.length + 3 := by
  simp [sealMessage, hex2]

@[simp] theorem length_hexBody (tag : Tag) (sub : Nat) (pay : List Byte) :
    (hexBody tag sub pay).length = 7 + (dec pay.length).length + 3 * pay.length := by
  simp only [hexBody, messageHead, List.length_append, List.length_cons, List.length_nil,
    length_hexPayload]
  omega

@[simp] theorem length_litBody (tag : Tag) (sub : Nat) (pay : List Byte) :
    (litBody tag sub pay).length = 7 + (dec pay.length).length + pay.length := by
  simp only [litBody, messageHead, List.length_append, List.length_cons, List.length_nil]
  omega

/-- The bytes ENCODE sends of a payload that is long enough are as many as it says (R163, R164). -/
theorem length_take_toNat (pay : List Byte) (n : Int) (h : n ≤ (pay.length : Int)) :
    (pay.take n.toNat).length = n.toNat := List.length_take_of_le (by omega)

/-- The text of a hex-mode message, spelled out (R163). -/
theorem hexBody_take (tag : Tag) (sub : Nat) (pay : List Byte) (n : Int)
    (h : n ≤ (pay.length : Int)) :
    hexBody tag sub (pay.take n.toNat) =
      [tag.t0, tag.t1, chSP, decDigit sub, chSP, chMinus] ++ dec n.toNat ++ [chSP] ++
        (pay.take n.toNat).flatMap (fun b => hex2 b ++ [chSP]) := by
  simp [hexBody, messageHead, length_take_toNat pay n h, hexPayload_eq_flatMap]

/-- The text of a literal-mode message, spelled out (R164). -/
theorem litBody_take (tag : Tag) (sub : Nat) (pay : List Byte) (n : Int)
    (h : n ≤ (pay.length : Int)) :
    litBody tag sub (pay.take n.toNat) =
      [tag.t0, tag.t1, chSP, decDigit sub, chSP] ++ dec n.toNat ++ [chSP] ++
        pay.take n.toNat ++ [chSP] := by
  simp [litBody, messageHead, length_take_toNat pay n h]

theorem length_hexMessage (tag : Tag) (sub : Int) (pay : List Byte) (len : Int)
    (h : len ≤ (pay.length : Int)) :
    (hexMessage tag sub pay len).length = 10 + (dec len.toNat).length + 3 * len.toNat := by
  rw [hexMessage, length_sealMessage, length_hexBody, length_take_toNat pay len h]
  omega

theorem length_litMessage (tag : Tag) (sub : Int) (pay : List Byte) (len : Int)
    (h : len - 1 ≤ (pay.length : Int)) :
    (litMessage tag sub pay len).length =
      10 + (dec (len - 1).toNat).length + (len - 1).toNat := by
  rw [litMessage, length_sealMessage, length_litBody, length_take_toNat pay (len - 1) h]
  omega

/-! ## ENCODE on a channel in its mode -/

section
variable {s : State} {ch : Nat} {sl : Slot} (hs : s.channels[ch]? = some sl)
  (tag : Tag) (sub : Int) (pay : List Byte) (len : Int)
include hs

/-- ENCODE.HEX in hex mode: R168's three checks in order, then the message (R163). -/
theorem exec_encodeHex_eq (hm : sl.unit.hexmode = true) :
    exec (.encodeHex ch tag sub pay len) s =
      if ¬ SubOk sub then .refused .encodeSubcodeRange
      else if ¬ (0 ≤ len ∧ len ≤ 9999) then .refused .encodeLengthRange
      else if (pay.length : Int) < len then .refused .encodePayloadShort
      else .next (s.report (.message (hexMessage tag sub pay len))) := by
  rw [exec, execEncodeHex, onChannel_some _ _ _ _ hs, if_neg (by simp [hm])]

/-- ENCODE.LIT in literal mode: R168's three checks in order, then the message (R164). -/
theorem exec_encodeLit_eq (hm : sl.unit.hexmode = false) :
    exec (.encodeLit ch tag sub pay len) s =
      if ¬ SubOk sub then .refused .encodeSubcodeRange
      else if ¬ (1 ≤ len ∧ len ≤ 10000) then .refused .encodeLengthRange
      else if (pay.length : Int) < len - 1 then .refused .encodePayloadShort
      else .next (s.report (.message (litMessage tag sub pay len))) := by
  rw [exec, execEncodeLit, onChannel_some _ _ _ _ hs, if_neg (by simp [hm])]

end

/-- Settles O46: the cascade of `exec_encodeHex_eq`, one clause for each of its exits. -/
theorem encodeHexReturnsTheMessage : Obligations.EncodeHexReturnsTheMessage := by
  unfold Obligations.EncodeHexReturnsTheMessage
  intro s ch sl tag sub pay len hs hm
  refine ⟨?message, fun hsub => ?subcode, fun h0 h9 hlen => ?length,
    fun h0 h9 hl0 hl hp => ?short⟩
  case message =>
    intro body h0 h9 hl0 hl hp hbody
    obtain rfl : body = _ := hbody.trans (hexBody_take tag sub.toNat pay len hp).symm
    exact execEncodeHex_ok s ch sl tag sub pay len hs hm ⟨⟨h0, h9⟩, ⟨hl0, hl⟩, hp⟩
  case subcode => rw [exec_encodeHex_eq hs tag sub pay len hm, if_pos hsub]
  case length =>
    rw [exec_encodeHex_eq hs tag sub pay len hm, if_neg (not_not.mpr ⟨h0, h9⟩), if_pos hlen]
  case short =>
    rw [exec_encodeHex_eq hs tag sub pay len hm, if_neg (not_not.mpr ⟨h0, h9⟩),
      if_neg (not_not.mpr ⟨hl0, hl⟩), if_pos hp]

/-- Settles O47: the cascade of `exec_encodeLit_eq`, one clause for each of its exits. -/
theorem encodeLitReturnsTheMessage : Obligations.EncodeLitReturnsTheMessage := by
  unfold Obligations.EncodeLitReturnsTheMessage
  intro s ch sl tag sub pay len hs hm
  refine ⟨?message, fun hsub => ?subcode, fun h0 h9 hlen => ?length,
    fun h0 h9 hl1 hl hp => ?short⟩
  case message =>
    intro body h0 h9 hl1 hl hp hbody
    obtain rfl : body = _ := hbody.trans (litBody_take tag sub.toNat pay (len - 1) hp).symm
    exact execEncodeLit_ok s ch sl tag sub pay len hs hm ⟨⟨h0, h9⟩, ⟨hl1, hl⟩, hp⟩
  case subcode => rw [exec_encodeLit_eq hs tag sub pay len hm, if_pos hsub]
  case length =>
    rw [exec_encodeLit_eq hs tag sub pay len hm, if_neg (not_not.mpr ⟨h0, h9⟩), if_pos hlen]
  case short =>
    rw [exec_encodeLit_eq hs tag sub pay len hm, if_neg (not_not.mpr ⟨h0, h9⟩),
      if_neg (not_not.mpr ⟨hl1, hl⟩), if_pos hp]

/-- Three checks in a row answer a next state exactly where all pass, and refuse exactly where one
fails. -/
theorem checks_answer_iff {a : Answer} {P Q R : Prop} [Decidable P] [Decidable Q] [Decidable R]
    {r₁ r₂ r₃ : Refusal} {u : State}
    (ha : a = if ¬ P then .refused r₁ else if ¬ Q then .refused r₂
      else if R then .refused r₃ else .next u) :
    ((∃ t, a = .next t) ↔ P ∧ Q ∧ ¬ R) ∧ ((∃ r, a = .refused r) ↔ ¬ (P ∧ Q ∧ ¬ R)) := by
  subst ha
  by_cases hP : P
  · by_cases hQ : Q
    · by_cases hR : R
      · simp [hP, hQ, hR]
      · simp [hP, hQ, hR]
    · simp [hP, hQ]
  · simp [hP]

/-- Settles O48: R168's ranges are what the three checks of each mode test. -/
theorem encodeIsDefinedExactlyInRange : Obligations.EncodeIsDefinedExactlyInRange := by
  unfold Obligations.EncodeIsDefinedExactlyInRange
  intro s ch sl tag sub pay len hs
  refine ⟨fun hm => ?hex, fun hm => ?lit⟩
  case hex =>
    have hrange : (0 ≤ sub ∧ sub ≤ 9 ∧ 0 ≤ len ∧ len ≤ 9999 ∧ len ≤ (pay.length : Int)) ↔
        SubOk sub ∧ (0 ≤ len ∧ len ≤ 9999) ∧ ¬ (pay.length : Int) < len := by omega
    rw [hrange]
    exact checks_answer_iff (exec_encodeHex_eq hs tag sub pay len hm)
  case lit =>
    have hrange : (0 ≤ sub ∧ sub ≤ 9 ∧ 1 ≤ len ∧ len - 1 ≤ 9999 ∧
          len - 1 ≤ (pay.length : Int)) ↔
        SubOk sub ∧ (1 ≤ len ∧ len ≤ 10000) ∧ ¬ (pay.length : Int) < len - 1 := by omega
    rw [hrange]
    exact checks_answer_iff (exec_encodeLit_eq hs tag sub pay len hm)

/-- Settles O49: the message is a sealed text, and its length is that of its parts. -/
theorem encodeOnlyReturnsASealedMessage : Obligations.EncodeOnlyReturnsASealedMessage := by
  unfold Obligations.EncodeOnlyReturnsASealedMessage
  intro i s t ch tag sub pay len hi h
  simp only [List.mem_cons, List.not_mem_nil, or_false] at hi
  rcases hi with rfl | rfl
  · obtain ⟨sl, -, -, ⟨-, -, hp⟩, rfl⟩ := execEncodeHex_next _ _ _ _ _ _ _ h
    exact ⟨_, _, rfl, (eq_asciiChk_iff _ _).mpr rfl,
      (length_hexMessage tag sub pay len hp).trans (if_pos rfl).symm⟩
  · obtain ⟨sl, -, -, ⟨-, -, hp⟩, rfl⟩ := execEncodeLit_next _ _ _ _ _ _ _ h
    exact ⟨_, _, rfl, (eq_asciiChk_iff _ _).mpr rfl,
      (length_litMessage tag sub pay len hp).trans (if_neg nofun).symm⟩

/-! ## Dispatch by HEXMODE -/

/-- The key of an ENCODE selects ENCODE.HEX on a channel in hex mode, of either kind. -/
theorem selectOpcode_encode_hex (kind : Kind) :
    selectOpcode (operationKey true kind 0b011#3) = some .encodeHex := by
  cases kind <;> decide

/-- The key of an ENCODE selects ENCODE.LIT on a channel in literal mode, of either kind. -/
theorem selectOpcode_encode_lit (kind : Kind) :
    selectOpcode (operationKey false kind 0b011#3) = some .encodeLit := by
  cases kind <;> decide

/-- Settles O13: the HEXMODE bit of the key picks the ENCODE, and HEXMODE is configuration, which no
instruction writes. -/
theorem encodeModeIsTheChannels : Obligations.EncodeModeIsTheChannels := by
  unfold Obligations.EncodeModeIsTheChannels
  refine ⟨?dispatch, ?mode⟩
  case dispatch =>
    intro s r rest ch sl hp hop ht hs
    cases hm : sl.unit.hexmode with
    | true =>
      exact step_issue_channel s r rest ch sl .encodeHex hp ht hs
        (by rw [hop, hm]; exact selectOpcode_encode_hex _)
    | false =>
      exact step_issue_channel s r rest ch sl .encodeLit hp ht hs
        (by rw [hop, hm]; exact selectOpcode_encode_lit _)
  case mode =>
    intro i s t ch sl h hs
    obtain ⟨sl', hs', -, -, -, hmode, -⟩ := exec_sameConfig i s t ch sl h hs
    exact ⟨sl', hs', hmode⟩

end Sys2Proof.Machine

/-!
PROOF. The ASCII decoder on valid messages (44_ascii_decode R195..R200): DECODE is the scanner's verdict
on `src[0..srcLen)`, the scanner delivers what a valid message says, and what ENCODE returns is one.
-/

namespace Sys2Proof.Machine

/-! ## DECODE by the scanner's verdict -/

theorem execDecode_refused (s : State) (src : Source) (bs : List Byte) (srcLen dmax : Int)
    (dst : DestNames) (hs : sourceBytes src s = some bs) (h : ¬ DecodeOk bs.length srcLen dmax) :
    execDecode src srcLen ⟨dmax, dst⟩ s = .refused .decodeOperandRange := by
  rw [execDecode, hs]
  exact if_pos h

/-- Settles O54: R199's ranges are DECODE's one check; past it the scanner answers one way or the
other. -/
theorem decodeRunsExactlyOnOperandsInRange :
    Obligations.DecodeRunsExactlyOnOperandsInRange := by
  unfold Obligations.DecodeRunsExactlyOnOperandsInRange
  intro s src bs srcLen dmax dst hs
  refine ⟨fun h1 h2 h3 h4 => ?runs, fun h => ?refused⟩
  case runs =>
    rw [exec, execDecode_ok s src bs srcLen dmax dst hs ⟨⟨h1, h2⟩, h3, h4⟩]
    split
    · exact ⟨_, rfl⟩
    · exact ⟨_, rfl⟩
  case refused => exact execDecode_refused s src bs srcLen dmax dst hs (by omega)

/-- DECODE of `src[0..n)` is DECODE of these bytes alone, wherever they stand (R181). -/
theorem exec_decode_of_sourceText {s : State} {src : Source} {n : Nat} {text : List Byte}
    (h : SourceText s src n text) (dmax : Int) (dst : DestNames) :
    exec (.decode src n ⟨dmax, dst⟩) s =
      exec (.decode (.bytes text) text.length ⟨dmax, dst⟩) s := by
  obtain ⟨bs, hs, hn, rfl⟩ := h
  have hlen : (bs.take n).length = n := List.length_take_of_le hn
  rw [hlen]
  by_cases hd : 0 ≤ dmax ∧ dmax ≤ 9999
  · rw [exec, exec, execDecode_ok s src bs n dmax dst hs (by omega),
      execDecode_ok s (.bytes (bs.take n)) _ n dmax dst rfl (by omega)]
    simp only [Int.toNat_natCast, List.take_take, min_self]
  · rw [exec, exec, execDecode_refused s src bs n dmax dst hs (by omega),
      execDecode_refused s (.bytes (bs.take n)) _ n dmax dst rfl (by omega)]

section
variable {s : State} {src : Source} {n dmax : Nat} {text : List Byte}
  (h : SourceText s src n text) (hmax : dmax ≤ 9999) (dst : DestNames)
include h hmax

/-- DECODE of a text the scanner reads a message from (R195). -/
theorem exec_decode_ok {d : Decoded} (hp : parseMessage s.build dmax text = .ok d) :
    exec (.decode src n ⟨dmax, dst⟩) s = .next (decodeSuccess s dst d) := by
  obtain ⟨bs, hs, hn, rfl⟩ := h
  rw [exec, execDecode_ok s src bs n dmax dst hs (by omega), Int.toNat_natCast, Int.toNat_natCast, hp]
  rfl

/-- DECODE of a text the scanner stops in (R54, R193). -/
theorem exec_decode_error {st : Int} (hp : parseMessage s.build dmax text = .error st) :
    exec (.decode src n ⟨dmax, dst⟩) s = .next (decodeFailure s dst st) := by
  obtain ⟨bs, hs, hn, rfl⟩ := h
  rw [exec, execDecode_ok s src bs n dmax dst hs (by omega), Int.toNat_natCast, Int.toNat_natCast, hp]
  rfl

end

/-! ## Valid messages -/

/-- The scanner delivers what a valid message says, whatever follows it (R196, R198). -/
theorem parseMessage_of_validMessage {p : Build} {dmax : Nat} {m : List Byte} {d : Decoded}
    (hm : ValidMessage p.hexLowerOk m d) (hl : d.pay.length ≤ dmax) (tail : List Byte) :
    parseMessage p dmax (m ++ tail) = .ok d := by
  obtain ⟨sub, hex, digits, text, kh, kl, rfl, hsub, hd, hdigits, hnum, htext, hkh, hkl, hsum⟩ := hm
  rw [List.append_assoc, parseMessage_text p dmax d.tag sub hex digits text d.pay _ hsub hdigits hnum
    hl htext]
  have hcheck := scanChecksum_ok p (messageText d.tag sub hex digits text) tail kh kl hkh hkl
  rw [if_pos hsum] at hcheck
  rw [List.cons_append, List.cons_append, List.nil_append, hcheck, Except.map, ← hd]

/-- Settles O51: the source's text starts with the message, and the scanner delivers it. -/
theorem decodeAcceptsEveryValidMessage : Obligations.DecodeAcceptsEveryValidMessage := by
  unfold Obligations.DecodeAcceptsEveryValidMessage
  intro s src m tail srcLen dmax d dst hsrc hm hl hmax
  exact exec_decode_ok hsrc hmax dst (parseMessage_of_validMessage hm hl tail)

/-! ## DECODE of ENCODE's output -/

/-- DECODE's sum check, over the exact sum of the bytes (R192). -/
theorem sumBytes_add_hexPair_eq_zero_iff (m : List Byte) (h l : Byte) :
    sumBytes m + hexPair h l = 0x00#8 ↔
      ((m.map BitVec.toNat).sum + (16 * nib h + nib l)) % 256 = 0 := by
  rw [← BitVec.toNat_inj, BitVec.toNat_add, sumBytes_toNat, hexPair, BitVec.toNat_ofNat,
    BitVec.toNat_ofNat]
  omega

/-- The checksum ENCODE appends makes the sum 0 (R160, R192). -/
theorem sumBytes_add_asciiChk (m : List Byte) : sumBytes m + asciiChk m = 0x00#8 := by
  have hzero := (eq_asciiChk_iff m (asciiChk m)).mpr rfl
  rw [← BitVec.toNat_inj, BitVec.toNat_add, sumBytes_toNat, Nat.mod_add_mod, hzero]
  rfl

/-- The pairs ENCODE writes are digits DECODE accepts and spell the payload (R163). -/
theorem hexText_hexPayload (lowerOk : Bool) (pay : List Byte) :
    HexText lowerOk pay (hexPayload pay) := by
  induction pay with
  | nil => rfl
  | cons b bs ih =>
    have hb := b.isLt
    exact ⟨isHex_hexDigit lowerOk _ (by omega), isHex_hexDigit lowerOk _ (by omega), rfl,
      (hexPair_hexDigits b).symm, ih⟩

/-- A text with the subcode and length ENCODE writes, and its checksum behind it, is a valid
message. -/
theorem validMessage_of_payloadText {lowerOk hex : Bool} {pay text : List Byte}
    (htext : PayloadText lowerOk hex pay text) (tag : Tag) {sub : Nat} (hsub : sub < 10)
    (hlen : pay.length ≤ 9999) {body : List Byte}
    (hbody : body = messageText tag (decDigit sub) hex (dec pay.length) text) :
    ValidMessage lowerOk (body ++ hex2 (asciiChk body)) ⟨tag, BitVec.ofNat 8 sub, pay⟩ := by
  obtain ⟨hdig, hval⟩ := decDigit_spec sub hsub
  obtain ⟨-, -, hnum⟩ := dec_spells pay.length hlen
  have hk := (asciiChk body).isLt
  subst hbody
  refine ⟨decDigit sub, hex, dec pay.length, text, _, _, rfl, hdig, by rw [hval],
    dec_lengthField _ hlen, hnum, htext, isHex_hexDigit _ _ (by omega),
    isHex_hexDigit _ _ (by omega), ?_⟩
  rw [hexPair_hexDigits]
  exact sumBytes_add_asciiChk _

theorem hexBody_eq_messageText (tag : Tag) (sub : Nat) (pay : List Byte) :
    hexBody tag sub pay = messageText tag (decDigit sub) true (dec pay.length) (hexPayload pay) := by
  simp [hexBody, messageHead, messageText, messageStart]

theorem litBody_eq_messageText (tag : Tag) (sub : Nat) (pay : List Byte) :
    litBody tag sub pay = messageText tag (decDigit sub) false (dec pay.length) (pay ++ [chSP]) := by
  simp [litBody, messageHead, messageText, messageStart]

/-- DECODE of a valid message handed over as it stands. -/
theorem exec_decode_message {s : State} {m : List Byte} {d : Decoded} {dmax : Nat}
    (hm : ValidMessage s.build.hexLowerOk m d) (hl : d.pay.length ≤ dmax) (hmax : dmax ≤ 9999)
    (dst : DestNames) :
    exec (.decode (.bytes m) m.length ⟨dmax, dst⟩) s = .next (decodeSuccess s dst d) := by
  have hsrc : SourceText s (.bytes m) m.length (m ++ []) := ⟨m, rfl, le_rfl, by simp⟩
  exact decodeAcceptsEveryValidMessage s _ m [] m.length dmax d dst hsrc hm hl hmax

/-- Settles O60: what ENCODE returns before its NUL is a valid message in the channel's mode, which
says the operands. -/
theorem decodeOfEncodeIsTheMessage : Obligations.DecodeOfEncodeIsTheMessage := by
  unfold Obligations.DecodeOfEncodeIsTheMessage
  intro s s' ch sl tag sub pay len dmax dst hs hmax
  refine ⟨fun hm hok hl => ?hex, fun hm hok hl => ?lit⟩
  case hex =>
    have hpay := length_take_toNat pay len hok.2.2
    have hvalid := validMessage_of_payloadText (hex := true)
      (hexText_hexPayload s'.build.hexLowerOk _) tag (sub := sub.toNat) (by omega)
      (by omega) (hexBody_eq_messageText tag _ (pay.take len.toNat))
    exact ⟨_, _, execEncodeHex_ok s ch sl tag sub pay len hs hm hok, rfl,
      exec_decode_message hvalid (hpay.trans_le (by omega)) hmax dst⟩
  case lit =>
    have hpay := length_take_toNat pay (len - 1) hok.2.2
    have hvalid := validMessage_of_payloadText (lowerOk := s'.build.hexLowerOk) (hex := false) rfl tag
      (sub := sub.toNat) (by omega) (by omega)
      (litBody_eq_messageText tag _ (pay.take (len - 1).toNat))
    exact ⟨_, _, execEncodeLit_ok s ch sl tag sub pay len hs hm hok, rfl,
      exec_decode_message hvalid (hpay.trans_le (by omega)) hmax dst⟩

end Sys2Proof.Machine

/-!
PROOF. The codes of DECODE (44_ascii_decode R181..R194): each check's own code, one lemma per check;
what was scanned before a field does not change the code it ends with; and TRUNCATED on a text cut
short, because every scanner reads its input front to back.
-/

namespace Sys2Proof.Machine

/-! ## Tag and subcode -/

theorem parseMessage_of_scanHead_error {p : Build} {all : List Byte} {st : Int} (dmax : Nat)
    (h : scanHead p.decErr all = .error st) : parseMessage p dmax all = .error st := by
  rw [parseMessage, h]
  rfl

theorem scanHead_sepTag (e : DecodeCodes) (t0 t1 x : Byte) (tail : List Byte) (hx : x ≠ chSP) :
    scanHead e (t0 :: t1 :: x :: tail) = .error e.sepTag := by
  simp [scanHead, rdSpace_cons, hx]

theorem scanHead_subcode (e : DecodeCodes) (t0 t1 x : Byte) (tail : List Byte)
    (hx : isDig x = false) :
    scanHead e (t0 :: t1 :: chSP :: x :: tail) = .error e.subcode := by
  simp [scanHead, rdIf_cons, hx]

theorem scanHead_sepSub (e : DecodeCodes) (t0 t1 d x : Byte) (tail : List Byte)
    (hd : isDig d = true) (hx : x ≠ chSP) :
    scanHead e (t0 :: t1 :: chSP :: d :: x :: tail) = .error e.sepSub := by
  simp [scanHead, rdIf_cons, rdSpace_cons, hd, hx]

/-- Settles O55: the default codes are R193's, and each check of the head ends DECODE with its own. -/
theorem decodeHeadErrors : Obligations.DecodeHeadErrors := by
  unfold Obligations.DecodeHeadErrors
  refine ⟨rfl, fun s src n t0 t1 x d tail dmax dst hmax => ⟨?sepTag, ?subcode, ?sepSub⟩⟩
  case sepTag =>
    intro h hx
    exact exec_decode_error h hmax dst
      (parseMessage_of_scanHead_error dmax (scanHead_sepTag _ t0 t1 x tail hx))
  case subcode =>
    intro h hx
    exact exec_decode_error h hmax dst
      (parseMessage_of_scanHead_error dmax (scanHead_subcode _ t0 t1 x tail hx))
  case sepSub =>
    intro h hd hx
    exact exec_decode_error h hmax dst
      (parseMessage_of_scanHead_error dmax (scanHead_sepSub _ t0 t1 d x tail hd hx))

/-! ## The length -/

/-- The start of a message, as the scanner meets it. -/
theorem messageStart_append (tag : Tag) (sub : Byte) (hex : Bool) (rest : List Byte) :
    messageStart tag sub hex ++ rest =
      tag.t0 :: tag.t1 :: chSP :: sub :: chSP :: (modeBytes hex ++ rest) := by
  simp [messageStart, modeBytes]

/-- After a valid head DECODE stops where the length field does. -/
theorem parseMessage_of_scanLength_error {p : Build} {tag : Tag} {sub : Byte} {hex : Bool}
    {rest : List Byte} {st : Int} (dmax : Nat) (hs : isDig sub = true)
    (h : scanLength p.decErr (modeBytes hex ++ rest) = .error st) :
    parseMessage p dmax (messageStart tag sub hex ++ rest) = .error st := by
  rw [messageStart_append, parseMessage, scanHead_ok _ _ _ _ hs, ok_bind]
  simp only [h, error_bind]

theorem scanLength_lenDigit (e : DecodeCodes) (hex : Bool) (x : Byte) (tail : List Byte)
    (hx : isDig x = false) (hmode : hex = false → x ≠ chMinus) :
    scanLength e (modeBytes hex ++ x :: tail) = .error e.lenDigit := by
  rw [scanLength, scanMode_ok e hex x tail hmode, ok_bind]
  simp [hx]

/-- A byte after the digits that is no SP: no digit, or a digit that would be the fifth (R188). -/
theorem scanLength_sepLen (e : DecodeCodes) (hex : Bool) (digits : List Byte) (x : Byte)
    (tail : List Byte) (hdigits : LengthField digits)
    (hend : digits.length < 4 → isDig x = false) (hx : x ≠ chSP) :
    scanLength e (modeBytes hex ++ (digits ++ x :: tail)) = .error e.sepLen := by
  obtain ⟨⟨hpos, hle⟩, hdig⟩ := hdigits
  cases digits with
  | nil => exact absurd hpos (by decide)
  | cons d ds =>
    obtain ⟨hd, hds⟩ := List.forall_mem_cons.mp hdig
    rw [List.length_cons] at hle hend
    rw [scanLength, List.cons_append, scanMode_ok e hex d _ fun _ => (isDig_ne d hd).1, ok_bind]
    simp only [hd, if_true]
    rw [scanDigits_ok e x tail ds 3 _ hds (by omega) (fun _ => hend (by omega)), ok_bind]
    exact if_neg hx

/-- Settles O56: the length field's two checks, and its value against DMAX. -/
theorem decodeLengthErrors : Obligations.DecodeLengthErrors := by
  unfold Obligations.DecodeLengthErrors
  intro s src n tag sub x hex digits tail dmax dst hs hmax
  refine ⟨?lenDigit, ?sepLen, ?lenRange⟩
  case lenDigit =>
    intro h hx hmode
    exact exec_decode_error h hmax dst
      (parseMessage_of_scanLength_error dmax hs (scanLength_lenDigit _ hex x tail hx hmode))
  case sepLen =>
    intro h hdigits hend hx
    rw [List.append_assoc] at h
    exact exec_decode_error h hmax dst
      (parseMessage_of_scanLength_error dmax hs (scanLength_sepLen _ hex digits x tail hdigits hend hx))
  case lenRange =>
    intro h hdigits hlt
    have htext : messageStart tag sub hex ++ digits ++ 0x20#8 :: tail =
        messageText tag sub hex digits [] ++ tail := by simp [messageText, chSP]
    refine exec_decode_error h hmax dst ?_
    rw [htext, parseMessage_start _ _ _ _ _ _ _ hs hdigits, if_pos hlt]

/-! ## The payload -/

/-- After a valid start and a length that fits, DECODE stops where the payload does. -/
theorem parseMessage_of_scanPayload_error {p : Build} {dmax : Nat} {tag : Tag} {sub : Byte}
    {hex : Bool} {digits text rest : List Byte} {st : Int} (hs : isDig sub = true)
    (hd : LengthField digits) (hl : numVal digits ≤ dmax)
    (h : scanPayload p hex (numVal digits) (text ++ rest) = .error st) :
    parseMessage p dmax (messageText tag sub hex digits text ++ rest) = .error st := by
  rw [messageText_split, List.append_assoc, parseMessage_start _ _ _ _ _ _ _ hs hd,
    if_neg (Nat.not_lt.mpr hl), h]
  rfl

/-- After fewer valid pairs than announced, the payload stops where the next pair does. -/
theorem scanHexPayload_error_after {p : Build} {pay text rest : List Byte} {L : Nat} {st : Int}
    (ht : HexText p.hexLowerOk pay text) (hlt : pay.length < L)
    (h : ∀ k, scanHexPayload p (k + 1) rest = .error st) :
    scanHexPayload p L (text ++ rest) = .error st := by
  obtain ⟨k, rfl⟩ := Nat.exists_eq_add_of_lt hlt
  rw [Nat.add_assoc, scanHexPayload_append p rest (k + 1) pay text ht, h]
  rfl

theorem scanPair_high_error (p : Build) (err : Int) (x : Byte) (tail : List Byte)
    (hx : isHex p.hexLowerOk x = false) : scanPair p err (x :: tail) = .error err := by
  simp [scanPair, rdIf_cons, hx]

theorem scanPair_low_error (p : Build) (err : Int) (h x : Byte) (tail : List Byte)
    (hh : isHex p.hexLowerOk h = true) (hx : isHex p.hexLowerOk x = false) :
    scanPair p err (h :: x :: tail) = .error err := by
  simp [scanPair, rdIf_cons, hh, hx]

theorem scanHexPayload_of_scanPair_error {p : Build} {rest : List Byte} {st : Int} (k : Nat)
    (h : scanPair p p.decErr.hex rest = .error st) :
    scanHexPayload p (k + 1) rest = .error st := by
  rw [scanHexPayload, h]
  rfl

theorem scanHexPayload_sepHex (p : Build) (k : Nat) (h l x : Byte) (tail : List Byte)
    (hh : isHex p.hexLowerOk h = true) (hl : isHex p.hexLowerOk l = true) (hx : x ≠ chSP) :
    scanHexPayload p (k + 1) (h :: l :: x :: tail) = .error p.decErr.sepHex := by
  rw [scanHexPayload, scanPair_ok p _ h l _ hh hl, ok_bind]
  simp [rdSpace_cons, hx]

theorem scanPayload_sepLit (p : Build) (pay : List Byte) (x : Byte) (tail : List Byte)
    (hx : x ≠ chSP) :
    scanPayload p false pay.length (pay ++ x :: tail) = .error p.decErr.sepLit := by
  simp [scanPayload, scanRaw_ok, rdSpace_cons, hx]

/-- Settles O57: a pair's two digits and its SP in hex mode, the SP after the run in literal mode. -/
theorem decodePayloadErrors : Obligations.DecodePayloadErrors := by
  unfold Obligations.DecodePayloadErrors
  intro s src n tag sub h l x digits pay text tail dmax dst hs hd hl hmax
  refine ⟨fun ht hlt => ⟨?high, ?low, ?sepHex⟩, ?sepLit⟩
  case high =>
    intro hsrc hx
    exact exec_decode_error hsrc hmax dst (parseMessage_of_scanPayload_error hs hd hl
      (scanHexPayload_error_after ht hlt fun k =>
        scanHexPayload_of_scanPair_error k (scanPair_high_error _ _ x tail hx)))
  case low =>
    intro hsrc hh hx
    exact exec_decode_error hsrc hmax dst (parseMessage_of_scanPayload_error hs hd hl
      (scanHexPayload_error_after ht hlt fun k =>
        scanHexPayload_of_scanPair_error k (scanPair_low_error _ _ h x tail hh hx)))
  case sepHex =>
    intro hsrc hh hlow hx
    exact exec_decode_error hsrc hmax dst (parseMessage_of_scanPayload_error hs hd hl
      (scanHexPayload_error_after ht hlt fun k => scanHexPayload_sepHex _ k h l x tail hh hlow hx))
  case sepLit =>
    intro hlen hx hsrc
    exact exec_decode_error hsrc hmax dst (parseMessage_of_scanPayload_error hs hd hl
      (hlen ▸ scanPayload_sepLit _ pay x tail hx))

/-! ## The checksum -/

theorem scanChecksum_of_scanPair_error {p : Build} {bs : List Byte} {st : Int} (all : List Byte)
    (h : scanPair p p.decErr.chkHex bs = .error st) : scanChecksum p all bs = .error st := by
  rw [scanChecksum, h]
  rfl

section
variable {p : Build} {dmax : Nat} {tag : Tag} {sub : Byte} {hex : Bool}
  {digits pay text rest : List Byte} {st : Int} (hs : isDig sub = true) (hd : LengthField digits)
  (hn : numVal digits = pay.length) (hl : pay.length ≤ dmax)
  (ht : PayloadText p.hexLowerOk hex pay text)
include hs hd hn hl ht

/-- After a valid text DECODE stops where the checksum does. -/
theorem parseMessage_of_scanChecksum_error
    (h : scanChecksum p (messageText tag sub hex digits text ++ rest) rest = .error st) :
    parseMessage p dmax (messageText tag sub hex digits text ++ rest) = .error st := by
  rw [parseMessage_text p dmax tag sub hex digits text pay rest hs hd hn hl ht, h]
  rfl

/-- After a valid text DECODE stops where the checksum's pair does. -/
theorem parseMessage_of_checksum_scanPair_error
    (h : scanPair p p.decErr.chkHex rest = .error st) :
    parseMessage p dmax (messageText tag sub hex digits text ++ rest) = .error st :=
  parseMessage_of_scanChecksum_error hs hd hn hl ht (scanChecksum_of_scanPair_error _ h)

end

/-- Settles O58: the pair's two digits, then the sum of the raw bytes before it. -/
theorem decodeChecksumErrors : Obligations.DecodeChecksumErrors := by
  unfold Obligations.DecodeChecksumErrors
  intro s src n tag sub h x hex digits pay text tail dmax dst hs hd hn hl hmax ht
  refine ⟨?high, ?low, ?sum⟩
  case high =>
    intro hsrc hx
    exact exec_decode_error hsrc hmax dst (parseMessage_of_checksum_scanPair_error hs hd hn hl ht
      (scanPair_high_error _ _ x tail hx))
  case low =>
    intro hsrc hh hx
    exact exec_decode_error hsrc hmax dst (parseMessage_of_checksum_scanPair_error hs hd hn hl ht
      (scanPair_low_error _ _ h x tail hh hx))
  case sum =>
    intro hsrc hh hx hsum
    refine exec_decode_error hsrc hmax dst (parseMessage_of_scanChecksum_error hs hd hn hl ht ?_)
    rw [scanChecksum_ok _ _ tail h x hh hx,
      if_neg (mt (sumBytes_add_hexPair_eq_zero_iff _ h x).mp hsum)]

/-! ## Truncated sources -/

/-- A scanner that reads its input front to back: where it answers on a text, it gives the same answer
on a start of the text, or that start ends before it is done and it ends with TRUNCATED (R181). -/
def ReadsForward {α : Type} (e : DecodeCodes)
    (scan : List Byte → Except Int (α × List Byte)) : Prop :=
  ∀ (bs t : List Byte) (a : α) (rest : List Byte), scan (bs ++ t) = .ok (a, rest) →
    scan bs = .error e.truncated ∨ ∃ rest', scan bs = .ok (a, rest') ∧ rest' ++ t = rest

section
variable {α β : Type} (e : DecodeCodes)

theorem readsForward_pure (a : α) : ReadsForward e (fun bs => pure (a, bs)) := by
  rintro bs t _ _ ⟨⟩
  exact .inr ⟨bs, rfl, rfl⟩

theorem readsForward_error (st : Int) :
    ReadsForward (α := α) e (fun _ => .error st) := nofun

/-- Two scans in a row read forward if each does. -/
theorem ReadsForward.bind {e : DecodeCodes} {f : List Byte → Except Int (α × List Byte)}
    {g : α × List Byte → Except Int (β × List Byte)} (hf : ReadsForward e f)
    (hg : ∀ a, ReadsForward e (fun bs => g (a, bs))) : ReadsForward e (fun bs => f bs >>= g) := by
  intro bs t b rest h
  obtain ⟨⟨a, mid⟩, hfst, hsnd⟩ := except_bind_ok _ _ _ h
  beta_reduce
  rcases hf bs t a mid hfst with herr | ⟨mid', hok, rfl⟩
  · exact .inl (by rw [herr, error_bind])
  · rw [hok, ok_bind]
    exact hg a mid' t b rest hsnd

theorem rd_readsForward : ReadsForward e (rd e) := by
  intro bs t b rest h
  cases bs with
  | nil => exact .inl rfl
  | cons x xs =>
    cases h
    exact .inr ⟨xs, rfl, rfl⟩

theorem rdIf_readsForward (ok : Byte → Bool) (err : Int) : ReadsForward e (rdIf e ok err) := by
  intro bs t b rest h
  cases bs with
  | nil => exact .inl rfl
  | cons x xs =>
    obtain ⟨heq, hok⟩ := rdIf_ok _ _ _ _ _ _ h
    cases heq
    exact .inr ⟨xs, by rw [rdIf_cons, if_pos hok], rfl⟩

theorem rdSpace_readsForward (err : Int) : ReadsForward e (rdSpace e err) :=
  rdIf_readsForward e _ err

theorem scanHead_readsForward : ReadsForward e (scanHead e) :=
  (rd_readsForward e).bind fun _ => (rd_readsForward e).bind fun _ =>
    (rdSpace_readsForward e _).bind fun _ => (rdIf_readsForward e _ _).bind fun _ =>
      (rdSpace_readsForward e _).bind fun _ => readsForward_pure e _

theorem scanMode_readsForward : ReadsForward e (scanMode e) := by
  refine (rd_readsForward e).bind fun c => ?_
  by_cases hc : c = chMinus
  · simp only [hc, if_true]
    exact (rd_readsForward e).bind fun c' => readsForward_pure e (true, c')
  · simp only [hc, if_false]
    exact readsForward_pure e _

theorem scanDigits_readsForward (more L : Nat) : ReadsForward e (scanDigits e more L) := by
  induction more generalizing L with
  | zero => exact (rd_readsForward e).bind fun _ => readsForward_pure e _
  | succ more ih =>
    refine (rd_readsForward e).bind fun c => ?_
    by_cases hc : isDig c = true
    · simp only [hc, if_true]
      exact ih _
    · simp only [hc]
      exact readsForward_pure e _

theorem scanLength_readsForward : ReadsForward e (scanLength e) := by
  refine (scanMode_readsForward e).bind fun ⟨hex, c⟩ => ?_
  by_cases hc : isDig c = true
  · simp only [hc, if_true]
    refine (scanDigits_readsForward e 3 _).bind fun ⟨L, c'⟩ => ?_
    by_cases hsp : c' = chSP
    · simp only [hsp, if_true]
      exact readsForward_pure e _
    · simp only [hsp, if_false]
      exact readsForward_error e _
  · simp only [hc]
    exact readsForward_error e _

theorem scanRaw_readsForward (L : Nat) : ReadsForward e (scanRaw e L) := by
  induction L with
  | zero => exact readsForward_pure e _
  | succ L ih => exact (rd_readsForward e).bind fun _ => ih.bind fun _ => readsForward_pure e _

end

theorem scanPair_readsForward (p : Build) (err : Int) : ReadsForward p.decErr (scanPair p err) :=
  (rdIf_readsForward _ _ _).bind fun _ => (rdIf_readsForward _ _ _).bind fun _ =>
    readsForward_pure _ _

theorem scanHexPayload_readsForward (p : Build) (L : Nat) :
    ReadsForward p.decErr (scanHexPayload p L) := by
  induction L with
  | zero => exact readsForward_pure _ _
  | succ L ih =>
    exact (scanPair_readsForward p _).bind fun _ => (rdSpace_readsForward _ _).bind fun _ =>
      ih.bind fun _ => readsForward_pure _ _

theorem scanPayload_readsForward (p : Build) (hex : Bool) (L : Nat) :
    ReadsForward p.decErr (scanPayload p hex L) := by
  cases hex with
  | true => exact scanHexPayload_readsForward p L
  | false =>
    exact (scanRaw_readsForward _ L).bind fun _ => (rdSpace_readsForward _ _).bind fun _ =>
      readsForward_pure _ _

/-- A scanner that read a whole text ends with TRUNCATED on every proper start of it. -/
theorem ReadsForward.truncated {α : Type} {e : DecodeCodes}
    {scan : List Byte → Except Int (α × List Byte)} (hscan : ReadsForward e scan)
    {bs t : List Byte} {a : α} (ht : t ≠ []) (h : scan (bs ++ t) = .ok (a, [])) :
    scan bs = .error e.truncated := by
  rcases hscan bs t a [] h with herr | ⟨rest, -, hnil⟩
  · exact herr
  · exact absurd (List.append_eq_nil_iff.mp hnil).2 ht

/-- A proper start of a valid message ends DECODE with TRUNCATED, whichever field it ends in. -/
theorem parseMessage_truncated {p : Build} {dmax : Nat} {bs t : List Byte} {d : Decoded}
    (hm : ValidMessage p.hexLowerOk (bs ++ t) d) (ht : t ≠ []) (hl : d.pay.length ≤ dmax) :
    parseMessage p dmax bs = .error p.decErr.truncated := by
  obtain ⟨sub, hex, digits, text, kh, kl, htext, hsub, -, hdigits, hnum, hpay, hkh, hkl, -⟩ := hm
  rw [messageText_eq] at htext
  have hhead := scanHead_ok p.decErr d.tag sub (modeBytes hex ++ digits ++ chSP :: (text ++ [kh, kl]))
    hsub
  rw [← htext] at hhead
  rw [parseMessage]
  rcases scanHead_readsForward _ _ _ _ _ hhead with herr | ⟨bs₁, hok, h₁⟩
  · rw [herr, error_bind]
  rw [hok, ok_bind]
  have hlength := scanLength_ok p.decErr hex digits (text ++ [kh, kl]) hdigits
  rw [← h₁] at hlength
  dsimp only
  rcases scanLength_readsForward _ _ _ _ _ hlength with herr | ⟨bs₂, hok, h₂⟩
  · rw [herr, error_bind]
  rw [hok, ok_bind]
  dsimp only
  rw [if_neg (by omega), hnum]
  have hpayload := scanPayload_ok p hex d.pay text [kh, kl] hpay
  rw [← h₂] at hpayload
  rcases scanPayload_readsForward _ _ _ _ _ _ _ hpayload with herr | ⟨bs₃, hok, h₃⟩
  · rw [herr, error_bind]
  rw [hok, ok_bind]
  have hpair := scanPair_ok p p.decErr.chkHex kh kl [] hkh hkl
  rw [← h₃] at hpair
  simp only [scanChecksum_of_scanPair_error bs ((scanPair_readsForward p _).truncated ht hpair),
    error_bind]

/-- A source that ends before or among the length digits (R181). -/
theorem scanLength_truncated (e : DecodeCodes) (hex : Bool) (digits : List Byte)
    (hlen : digits.length ≤ 4) (hdig : ∀ x ∈ digits, isDig x = true) :
    scanLength e (modeBytes hex ++ digits) = .error e.truncated := by
  cases digits with
  | nil => cases hex <;> rfl
  | cons d ds =>
    have hfield : LengthField (d :: ds) := ⟨⟨by simp, hlen⟩, hdig⟩
    exact (scanLength_readsForward e).truncated (List.cons_ne_nil chSP [])
      (scanLength_ok e hex (d :: ds) [] hfield)

theorem scanPair_low_truncated (p : Build) (err : Int) (h : Byte)
    (hh : isHex p.hexLowerOk h = true) : scanPair p err [h] = .error p.decErr.truncated := by
  simp [scanPair, rdIf_cons, hh]

/-- Settles O59: DECODE sees `src[0..srcLen)` alone, and its scanners read it front to back. -/
theorem decodeReadsOnlyWithinSrcLen : Obligations.DecodeReadsOnlyWithinSrcLen := by
  unfold Obligations.DecodeReadsOnlyWithinSrcLen
  refine ⟨?agree, ?message, ?length, ?checksum⟩
  case agree =>
    intro s src src' srcLen dmax text dst h h'
    rw [exec_decode_of_sourceText h, exec_decode_of_sourceText h']
  case message =>
    intro s src m srcLen dmax d dst h hlt hm hl hmax
    have hrest : m.drop srcLen ≠ [] := mt List.drop_eq_nil_iff.mp (Nat.not_le.mpr hlt)
    rw [← List.take_append_drop srcLen m] at hm
    exact exec_decode_error h hmax dst (parseMessage_truncated hm hrest hl)
  case length =>
    intro s src srcLen dmax tag sub hex digits dst h hs hlen hdig hmax
    exact exec_decode_error h hmax dst
      (parseMessage_of_scanLength_error dmax hs (scanLength_truncated _ hex digits hlen hdig))
  case checksum =>
    intro s src srcLen dmax tag sub h hex digits pay text dst hsrc hs hd hn ht hh hl hmax
    exact exec_decode_error hsrc hmax dst (parseMessage_of_checksum_scanPair_error hs hd hn hl ht
      (scanPair_low_truncated _ _ h hh))

end Sys2Proof.Machine

/-!
PROOF. The operation key (30_encoding R70, R71, R87): the decoder is the key's row and the target, a key
selects a row exactly when it fits the row's mask and match, and no instruction and no key is lost on
the way through the encoder.
-/

namespace Sys2Proof.Machine

/-! ## The decoder -/

/-- A key selects the row it fits, and no other. -/
theorem selectOpcode_eq_some_iff (k : Key) (o : Opcode) :
    selectOpcode k = some o ↔ k &&& (keyRow o).mask = (keyRow o).pattern := by
  have hfits : o.fits k = true ↔ k &&& (keyRow o).mask = (keyRow o).pattern := beq_iff_eq
  rw [← hfits]
  refine ⟨fits_of_selectOpcode k o, fun h => ?_⟩
  rw [← pattern_of_fits o k h]
  exact selectOpcode_pattern o k

/-- The keys of no row are those of the three reserved operations (R87). -/
theorem selectOpcode_eq_none_iff (k : Key) :
    selectOpcode k = none ↔ 5 ≤ (k.setWidth 3).toNat := by
  revert k; decide

theorem decodeKey_channel {k : Key} {o : Opcode} (h : selectOpcode k = some o) (ch : Nat)
    (a : Operands) : decodeKey k (.channel ch) a = .ok (channelInstr o ch a) := by
  simp [decodeKey, h]

theorem decodeKey_codec_decode {k : Key} (h : selectOpcode k = some .decode) (a : Operands) :
    decodeKey k .codec a = .ok (.decode a.src a.srcLen a.dst) := by
  simp [decodeKey, h]

theorem decodeKey_reserved {k : Key} (h : selectOpcode k = none) (t : Target) (a : Operands) :
    decodeKey k t a = .error .reservedOp := by
  cases t <;> simp [decodeKey, h]

@[simp] theorem opcode_channelInstr (o : Opcode) (ch : Nat) (a : Operands) :
    (channelInstr o ch a).opcode = o := by
  cases o <;> rfl

/-- Everything a key that decodes can stand for (R70): its row's operation on the target channel, or
DECODE, the codec unit's one operation. -/
theorem decodeKey_ok {k : Key} {t : Target} {a : Operands} {i : Instr}
    (h : decodeKey k t a = .ok i) :
    selectOpcode k = some i.opcode ∧
      ((∃ ch, t = .channel ch ∧ i = channelInstr i.opcode ch a) ∨
        (t = .codec ∧ i = .decode a.src a.srcLen a.dst)) := by
  cases ho : selectOpcode k with
  | none => cases (decodeKey_reserved ho t a).symm.trans h
  | some o =>
    cases t with
    | channel ch =>
      cases (decodeKey_channel ho ch a).symm.trans h
      exact ⟨by simp, .inl ⟨ch, rfl, by simp⟩⟩
    | codec =>
      cases o with
      | decode =>
        cases (decodeKey_codec_decode ho a).symm.trans h
        exact ⟨rfl, .inr ⟨rfl, rfl⟩⟩
      | _ => simp [decodeKey, ho] at h

/-- Settles O9: the instruction's key selects its row, and its operands fill that row's fields. -/
theorem decodeOfEncodeIsTheInstruction : Obligations.DecodeOfEncodeIsTheInstruction := by
  unfold Obligations.DecodeOfEncodeIsTheInstruction
  intro i free
  have ho := selectOpcode_encodeKey i free
  cases i with
  | decode src srcLen dst => exact decodeKey_codec_decode ho _
  | _ => exact decodeKey_channel ho _ _

/-- Settles O10: the key fits the row of the instruction it decodes to, so it differs from the row's
pattern in free bits only. -/
theorem encodeOfDecodeIsTheKey : Obligations.EncodeOfDecodeIsTheKey := by
  unfold Obligations.EncodeOfDecodeIsTheKey
  intro k t a i h
  obtain ⟨ho, -⟩ := decodeKey_ok h
  exact pattern_of_fits i.opcode k (fits_of_selectOpcode k i.opcode ho)

/-- Settles O8: ten keys of R70's table, decoded. -/
theorem writtenOutKeysDecode : Obligations.WrittenOutKeysDecode := by
  unfold Obligations.WrittenOutKeysDecode
  decide

/-! ## The key of a request -/

/-- The three fields of an operation key (R70). -/
theorem operationKey_fields (hexmode : Bool) (kind : Kind) (op : Op) :
    (operationKey hexmode kind op).setWidth 3 = op ∧
      (operationKey hexmode kind op).getLsbD 4 = hexmode ∧
      (operationKey hexmode kind op).getLsbD 3 = decide (kind = .bin) := by
  revert op
  cases hexmode <;> cases kind <;> decide

theorem requestKey_codec {r : Request} (ht : r.target = .codec) (s : State) :
    requestKey r s = .ok (codecKey r.op) := by
  simp [requestKey, ht]

theorem requestKey_channel {r : Request} {s : State} {ch : Nat} {sl : Slot}
    (ht : r.target = .channel ch) (hs : s.channels[ch]? = some sl) :
    requestKey r s = .ok (operationKey sl.unit.hexmode sl.unit.kind r.op) := by
  simp [requestKey, ht, hs]

theorem requestKey_unconstructed {r : Request} {s : State} {ch : Nat}
    (ht : r.target = .channel ch) (hs : s.channels[ch]? = none) :
    requestKey r s = .error .unconstructedChannel := by
  simp [requestKey, ht, hs]

/-- Every request that has a key has its own OP in it. -/
theorem requestKey_op {r : Request} {s : State} {k : Key} (h : requestKey r s = .ok k) :
    k.setWidth 3 = r.op := by
  cases ht : r.target with
  | codec =>
    cases (requestKey_codec ht s).symm.trans h
    exact (operationKey_fields _ _ _).1
  | channel ch =>
    cases hs : s.channels[ch]? with
    | none => cases (requestKey_unconstructed ht hs).symm.trans h
    | some sl =>
      cases (requestKey_channel ht hs).symm.trans h
      exact (operationKey_fields _ _ _).1

/-- Settles O7: the key's three fields, the rows by mask and match, and DECODE as the codec unit's one
operation. -/
theorem operationKeySelectsTheRow : Obligations.OperationKeySelectsTheRow := by
  unfold Obligations.OperationKeySelectsTheRow
  refine ⟨fun s r k hk => ⟨requestKey_op hk, fun ht => ?codec, fun ch sl ht hs => ?channel⟩,
    fun k => ⟨selectOpcode_eq_some_iff k _, selectOpcode_eq_some_iff k _,
      selectOpcode_eq_some_iff k _, selectOpcode_eq_some_iff k _, selectOpcode_eq_some_iff k _,
      selectOpcode_eq_some_iff k _, selectOpcode_eq_some_iff k _, selectOpcode_eq_none_iff k⟩,
    fun k a i h => ?decode⟩
  case codec =>
    cases (requestKey_codec ht s).symm.trans hk
    exact (operationKey_fields false .line r.op).2
  case channel =>
    cases (requestKey_channel ht hs).symm.trans hk
    exact (operationKey_fields _ _ _).2
  case decode =>
    obtain ⟨-, ⟨ch, ht, -⟩ | ⟨-, hi⟩⟩ := decodeKey_ok h
    · cases ht
    · exact hi

end Sys2Proof.Machine

/-!
PROOF. The host's interactions (60_exceptions R227; 70_reset_and_hazards R240..R243; 92 D5, D42): what a
construction, a supply and an issued request do in one step, and which of them are refused.
-/

namespace Sys2Proof.Machine

/-- Settles O1: the power-on state holds no channel, and its parameters are proper. -/
theorem resetMeetsInvariant : Obligations.ResetMeetsInvariant := by
  unfold Obligations.ResetMeetsInvariant
  have hbuild : defaultBuild.Ok := by decide
  have hdests : State.reset.dests.Inv := by decide
  exact ⟨⟨hbuild, nofun, hdests⟩, rfl, rfl, rfl, rfl⟩

/-! ## Construction and supply -/

/-- Settles O2: the new slot is `newSlot`, whose buffer lists no byte, so each reads as the draw. -/
theorem constructionLeavesResetValues : Obligations.ConstructionLeavesResetValues := by
  unfold Obligations.ConstructionLeavesResetValues
  intro s c rest hp h1 h2 h3
  refine ⟨_, newSlot s.build c, (step_construct s c rest hp).trans
    (constructChannel_ok c (s.setPending rest) ⟨⟨h1, h2⟩, h3⟩), rfl, rfl, rfl, rfl, rfl,
    fun hk => ?_, ⟨rfl, rfl, rfl⟩, fun _ => rfl, rfl, rfl, rfl, rfl, rfl, rfl⟩
  simp [newSlot, inputT, hk, defaultT]

/-- Settles O3: the ranges are the construction's one check. -/
theorem constructionOutOfRangeIsRefused : Obligations.ConstructionOutOfRangeIsRefused := by
  unfold Obligations.ConstructionOutOfRangeIsRefused
  intro s c rest hp hout
  have hbad : ¬ ChannelInputOk s.build c := by omega
  exact (step_construct s c rest hp).trans (constructChannel_refused c (s.setPending rest) hbad)

/-- Settles O5: a supply sets one slot, its unit as it was. -/
theorem supplyAppendsInOrder : Obligations.SupplyAppendsInOrder := by
  unfold Obligations.SupplyAppendsInOrder
  intro s ch more rest sl hp hs
  exact ⟨_, (step_supply s ch more rest hp).trans (onChannel_some ch (s.setPending rest) sl _ hs),
    State.setSlot_getElem_self (s.setPending rest) ch sl _ hs,
    fun n hn => State.setSlot_getElem_of_ne (s.setPending rest) ch n _ hn, rfl, rfl, rfl, rfl⟩

/-! ## Requests -/

theorem fetch_error_of_requestKey {r : Request} {s : State} {e : Refusal}
    (h : requestKey r s = .error e) : fetch r s = .error e := by
  simp [fetch, h]

theorem fetch_of_requestKey {r : Request} {s : State} {k : Key} (h : requestKey r s = .ok k) :
    fetch r s = (decodeKey k r.target r.args).mapError decodeRefusal := by
  simp only [fetch, h]
  cases decodeKey k r.target r.args <;> rfl

/-- Settles O6: `fetch` is the key and then the decoder. The idle step is log entry 5's choice. -/
theorem stepRunsTheDecodedInstruction : Obligations.StepRunsTheDecodedInstruction := by
  unfold Obligations.StepRunsTheDecodedInstruction
  refine ⟨fun s r rest i k hp hk hi => step_issue_ok s r rest i hp ?_, step_idle⟩
  rw [fetch_of_requestKey hk, hi]
  rfl

/-- Settles O11: a constructed target gives the request a key with its OP, which selects no row. -/
theorem reservedOperationsAreRefused : Obligations.ReservedOperationsAreRefused := by
  unfold Obligations.ReservedOperationsAreRefused
  intro s r rest hp hop hch
  obtain ⟨k, hk⟩ : ∃ k, requestKey r s = .ok k := by
    cases ht : r.target with
    | codec => exact ⟨_, requestKey_codec ht s⟩
    | channel ch => exact ⟨_, requestKey_channel ht (List.getElem?_eq_getElem (hch ch ht))⟩
  have hnone : selectOpcode k = none := by
    rw [selectOpcode_eq_none_iff, requestKey_op hk]
    exact hop
  refine step_issue_error s r rest _ hp ?_
  rw [fetch_of_requestKey hk, decodeKey_reserved hnone]
  rfl

/-- Settles O4: a request to the channel gets no key, and every instruction on it reaches for a slot
that is not there. -/
theorem unconstructedChannelIsRefused : Obligations.UnconstructedChannelIsRefused := by
  unfold Obligations.UnconstructedChannelIsRefused
  intro s ch hch
  have hs : s.channels[ch]? = none := List.getElem?_eq_none hch
  refine ⟨fun r rest hp ht => ?request, fun tag sub len srcLen dmax pay dst i hi => ?instr⟩
  case request =>
    exact step_issue_error s r rest _ hp
      (fetch_error_of_requestKey (requestKey_unconstructed ht hs))
  case instr =>
    simp only [List.mem_cons, List.not_mem_nil, or_false] at hi
    rcases hi with rfl | rfl | rfl | rfl | rfl | rfl | rfl
    iterate 6 exact onChannel_none ch s _ hs
    · simp [exec, execDecode, sourceBytes, hs]

end Sys2Proof.Machine

/-!
PROOF. What ENCODE.HEX's bytes can be (70_reset_and_hazards R249), what stood in the source when DECODE
delivered a message (44_ascii_decode R193, R195), and which bytes of the destinations DECODE writes
(R54, R195).
-/

namespace Sys2Proof.Machine

/-! ## The bytes of a hex-mode message -/

/-- No terminator is a printing character or SP (R22). -/
theorem not_inTerminatorSet_of_le (T : BitVec 3) {x : Byte} (hx : 0x20 ≤ x.toNat) :
    ¬ InTerminatorSet T x := by
  rintro (⟨-, rfl⟩ | ⟨-, rfl⟩ | ⟨-, rfl⟩) <;> exact absurd hx (by decide)

theorem le_hexDigit (v : Nat) (h : v < 16) : 0x20 ≤ (hexDigit v).toNat := by
  rw [hexDigit_toNat v h]
  split <;> omega

theorem le_of_isDig {x : Byte} (h : isDig x = true) : 0x20 ≤ x.toNat :=
  Nat.le_trans (by decide) ((isDig_iff x).mp h).1

theorem le_of_mem_hex2 {b x : Byte} (hx : x ∈ hex2 b) : 0x20 ≤ x.toNat := by
  have hb := b.isLt
  simp only [hex2, List.mem_cons, List.not_mem_nil, or_false] at hx
  rcases hx with rfl | rfl
  · exact le_hexDigit _ (by omega)
  · exact le_hexDigit _ (by omega)

theorem le_of_mem_hexPayload {pay : List Byte} {x : Byte} (hx : x ∈ hexPayload pay) :
    0x20 ≤ x.toNat := by
  rw [hexPayload_eq_flatMap, List.mem_flatMap] at hx
  obtain ⟨b, -, hx⟩ := hx
  rcases List.mem_append.mp hx with hx | hx
  · exact le_of_mem_hex2 hx
  · obtain rfl := List.mem_singleton.mp hx
    decide

/-- Beside its two tag bytes a hex-mode message is made of digits, `-` and SP (R163). -/
theorem mem_hexBody {tag : Tag} {sub : Nat} {pay : List Byte} {x : Byte} (hsub : sub < 10)
    (hlen : pay.length ≤ 9999) (hx : x ∈ hexBody tag sub pay) :
    x = tag.t0 ∨ x = tag.t1 ∨ 0x20 ≤ x.toNat := by
  have hsp : 0x20 ≤ chSP.toNat := by decide
  have hminus : 0x20 ≤ chMinus.toNat := by decide
  obtain ⟨hdig, -⟩ := decDigit_spec sub hsub
  obtain ⟨-, hdec, -⟩ := dec_spells pay.length hlen
  simp only [hexBody, messageHead, List.mem_append, List.mem_cons, List.not_mem_nil, or_false] at hx
  rcases hx with ((rfl | rfl | rfl | rfl | rfl) | rfl | hx) | rfl | hx
  · exact .inl rfl
  · exact .inr (.inl rfl)
  · exact .inr (.inr hsp)
  · exact .inr (.inr (le_of_isDig hdig))
  · exact .inr (.inr hsp)
  · exact .inr (.inr hminus)
  · exact .inr (.inr (le_of_isDig (hdec x hx)))
  · exact .inr (.inr hsp)
  · exact .inr (.inr (le_of_mem_hexPayload hx))

/-- Settles O50: every byte before the NUL but the two of the tag is a printing character or SP. -/
theorem hexMessageHoldsNoTerminator : Obligations.HexMessageHoldsNoTerminator := by
  unfold Obligations.HexMessageHoldsNoTerminator
  intro s t ch tag sub pay len T m h hres h0 h1 x hx
  obtain ⟨sl, -, -, ⟨hsub, hlen, hp⟩, rfl⟩ := execEncodeHex_next _ _ _ _ _ _ _ h
  have hpay := length_take_toNat pay len hp
  have hm : hexBody tag sub.toNat (pay.take len.toNat) ++
      hex2 (asciiChk (hexBody tag sub.toNat (pay.take len.toNat))) = m := by
    have hmsg : hexMessage tag sub pay len = m ++ [0x00#8] := by simpa using hres
    exact (List.append_inj' hmsg rfl).1
  rw [← hm] at hx
  rcases List.mem_append.mp hx with hx | hx
  · rcases mem_hexBody (by omega) (by omega) hx with rfl | rfl | hle
    · exact h0
    · exact h1
    · exact not_inTerminatorSet_of_le T hle
  · exact not_inTerminatorSet_of_le T (le_of_mem_hex2 hx)

/-! ## What DECODE accepts -/

/-- What the scanner delivers stood in its input as a valid message within DMAX (R182..R192). -/
theorem parseMessage_inv {p : Build} {dmax : Nat} {all : List Byte} {d : Decoded}
    (h : parseMessage p dmax all = .ok d) :
    ∃ m tail, all = m ++ tail ∧ ValidMessage p.hexLowerOk m d ∧ d.pay.length ≤ dmax := by
  have hmax := parseMessage_length_le p dmax all d h
  unfold parseMessage at h
  obtain ⟨⟨⟨tag, n⟩, b1⟩, hhead, h⟩ := except_bind_ok _ _ _ h
  obtain ⟨⟨⟨hex, L⟩, b2⟩, hlen, h⟩ := except_bind_ok _ _ _ h
  simp only at h hlen
  split at h
  · cases h
  obtain ⟨⟨pay, b3⟩, hpay, h⟩ := except_bind_ok _ _ _ h
  obtain ⟨u, hchk, h⟩ := except_bind_ok _ _ _ h
  cases h
  obtain ⟨sub, hall, hsub, rfl⟩ := scanHead_inv _ _ _ _ _ hhead
  obtain ⟨digits, rfl, hdigits, rfl⟩ := scanLength_inv _ _ _ _ _ hlen
  obtain ⟨hnum, text, rfl, htext⟩ := scanPayload_inv _ _ _ _ _ _ hpay
  rw [← messageText_eq] at hall
  obtain ⟨kh, kl, tail, rfl, hkh, hkl, hsum⟩ := scanChecksum_inv _ _ _ _ hchk
  have htake : all.take (all.length - (kh :: kl :: tail).length) =
      messageText tag sub hex digits text := by
    rw [hall, List.length_append, Nat.add_sub_cancel, List.take_left]
  rw [htake] at hsum
  exact ⟨_, tail, by simpa using hall, ⟨sub, hex, digits, text, kh, kl, rfl, hsub, rfl, hdigits,
    hnum.symm, htext, hkh, hkl, hsum⟩, hmax⟩

/-- Settles O52: a delivery is what a valid message says, and where one within DMAX stands the scanner
ends with no code. -/
theorem decodeAcceptsOnlyValidMessages : Obligations.DecodeAcceptsOnlyValidMessages := by
  unfold Obligations.DecodeAcceptsOnlyValidMessages
  intro s t src bs srcLen dmax dst hs h
  obtain ⟨bs', hs', -, hres⟩ := execDecode_next s t src srcLen _ h
  obtain rfl : bs = bs' := Option.some.inj (hs.symm.trans hs')
  simp only [Int.toNat_natCast] at hres
  rcases hres with ⟨st, herr, rfl⟩ | ⟨d, hok, rfl⟩
  · refine .inr ⟨st, parseMessage_error _ _ _ _ herr, rfl, fun d m tail hm hv => ?_⟩
    by_contra hle
    rw [hm, parseMessage_of_validMessage hv (by omega) tail] at herr
    cases herr
  · obtain ⟨m, tail, hm, hv, hle⟩ := parseMessage_inv hok
    exact .inl ⟨d, m, tail, rfl, hm, hv, hle⟩

/-! ## Where DECODE writes -/

/-- Two tables that agree on a `dTag` read the same there. -/
theorem Dests.tagAt_congr {d d' : Dests} {n : Nat} (h : d'.tags.get n = d.tags.get n) (i : Nat) :
    d'.tagAt n i = d.tagAt n i := by
  simp only [Dests.tagAt, h]

theorem Dests.subVal_congr {d d' : Dests} {n : Nat} (h : d'.subs.get n = d.subs.get n) :
    d'.subVal n = d.subVal n := by
  simp only [Dests.subVal, h]

theorem Dests.payAt_congr {d d' : Dests} {n : Nat} (h : d'.pays.get n = d.pays.get n) (i : Nat) :
    d'.payAt n i = d.payAt n i := by
  simp only [Dests.payAt, h]

/-- `d'` reads as `d` at every destination but those handed over. -/
abbrev SameOtherDests (dst : DestNames) (d d' : Dests) : Prop :=
  (∀ n i, n ≠ dst.tag → d'.tagAt n i = d.tagAt n i) ∧
  (∀ n, n ≠ dst.sub → d'.subVal n = d.subVal n) ∧
  (∀ n i, n ≠ dst.pay → d'.payAt n i = d.payAt n i)

theorem Dests.deliver_sameOtherDests (d : Dests) (dst : DestNames) (m : Decoded) :
    SameOtherDests dst d (d.deliver dst m) :=
  ⟨fun n i hn => Dests.tagAt_congr ((d.deliver_of_ne dst m n).1 hn) i,
    fun n hn => Dests.subVal_congr ((d.deliver_of_ne dst m n).2.1 hn),
    fun n i hn => Dests.payAt_congr ((d.deliver_of_ne dst m n).2.2 hn) i⟩

theorem Dests.unspecified_sameOtherDests (d : Dests) (dst : DestNames) :
    SameOtherDests dst d (d.unspecified dst) :=
  ⟨fun n i hn => Dests.tagAt_congr ((d.unspecified_of_ne dst n).1 hn) i,
    fun n hn => Dests.subVal_congr ((d.unspecified_of_ne dst n).2.1 hn),
    fun n i hn => Dests.payAt_congr ((d.unspecified_of_ne dst n).2.2 hn) i⟩

/-- The payload's bytes are in the `dPay` a delivery went to (R195). -/
theorem Dests.deliver_payAt_of_lt (d : Dests) (dst : DestNames) (m : Decoded) {k : Nat}
    (hk : k < m.pay.length) : some ((d.deliver dst m).payAt dst.pay k) = m.pay[k]? := by
  rw [Dests.deliver_payAt, if_pos hk, List.getElem?_eq_getElem hk, Option.getD_some]

/-- Settles O53: both ends of a DECODE write the destinations and one result. That those not handed
over are none of the ones written is log entry 3's choice. -/
theorem decodeFrame : Obligations.DecodeFrame := by
  unfold Obligations.DecodeFrame
  intro s t src srcLen dmax dst h
  obtain ⟨bs, -, -, ⟨st, -, rfl⟩ | ⟨d, -, rfl⟩⟩ := execDecode_next s t src srcLen _ h
  case inl =>
    obtain ⟨htag, hsub, hpay⟩ := s.dests.unspecified_sameOtherDests dst
    exact ⟨rfl, rfl, rfl, htag, hsub, hpay, st, none, rfl, nofun⟩
  case inr =>
    obtain ⟨htag, hsub, hpay⟩ := s.dests.deliver_sameOtherDests dst d
    refine ⟨rfl, rfl, rfl, htag, hsub, hpay, _, some d, rfl, ?_⟩
    rintro _ ⟨⟩
    have htags := s.dests.deliver_tagAt dst d
    have hpays := s.dests.deliver_payAt dst d
    exact ⟨rfl, htags 0, htags 1, s.dests.deliver_subVal dst d,
      fun k hk => s.dests.deliver_payAt_of_lt dst d hk,
      fun k hk => (hpays k).trans (if_neg (by omega)),
      fun k hk => (htags k).trans (by rw [if_neg (by omega), if_neg (by omega)])⟩

end Sys2Proof.Machine

/-!
PROOF. What every step keeps (10_state R21, R23, R31; 20_memory section 4; 41_binary_frame_reader
R122..R127): a step leaves each channel's unit as it was, reset, or one automaton step further, and each
destination as it was, freshly drawn or delivered to; the invariants follow from these few cases.
-/

namespace Sys2Proof.Machine

/-! ## The units after a step -/

/-- What one step can make of a channel's unit `c` under the parameters `p`. -/
inductive UnitStep (p : Build) (c : Channel) : Channel → Prop where
  /-- no POLL that consumes a byte and no RESET on it -/
  | same : UnitStep p c c
  /-- RESET (R104) -/
  | reset : UnitStep p c c.resetReader
  /-- a byte taken by the line reader (R140) -/
  | line {u : Channel} {b : Byte} {st : Int} (hk : c.kind = .line)
      (h : lineStep c b = .ok (u, st)) : UnitStep p c u
  /-- a byte taken by the binary reader (R120) -/
  | bin {u : Channel} {b : Byte} {st : Int} (hk : c.kind = .bin)
      (h : binStep p c b = .ok (u, st)) : UnitStep p c u

/-- Every slot after an instruction is one before it, its unit by one `UnitStep`. -/
theorem exec_mem_channels {i : Instr} {s t : State} (h : exec i s = .next t) {sl' : Slot}
    (hm : sl' ∈ t.channels) :
    ∃ sl ∈ s.channels, sl'.transport.begins = sl.transport.begins ∧
      UnitStep s.build sl.unit sl'.unit := by
  obtain ⟨-, -, heq | ⟨ch, sl, u, tr, hs, hset, hbegins, hu⟩⟩ := exec_channels i s t h
  · exact ⟨sl', heq ▸ hm, rfl, .same⟩
  rcases List.mem_or_eq_of_mem_set (hset ▸ hm) with hm | rfl
  · exact ⟨sl', hm, rfl, .same⟩
  refine ⟨sl, List.mem_of_getElem? hs, hbegins, ?_⟩
  rcases hu with ⟨-, rfl, -⟩ | ⟨-, ⟨-, rfl⟩ | ⟨b, st, -, ⟨hk, hstep⟩ | ⟨hk, hstep⟩⟩⟩
  · exact .reset
  · exact .same
  · exact .line hk hstep
  · exact .bin hk hstep

/-- Every slot after a step was constructed by it, or is one before it, its unit by one `UnitStep`. -/
theorem step_mem_channels {s t : State} (h : step s = .next t) {sl' : Slot}
    (hm : sl' ∈ t.channels) :
    (∃ c, ChannelInputOk s.build c ∧ sl' = newSlot s.build c) ∨
      ∃ sl ∈ s.channels, sl'.transport.begins = sl.transport.begins ∧
        UnitStep s.build sl.unit sl'.unit := by
  obtain ⟨-, rfl⟩ | ⟨c, rest, -, hc, rfl⟩ | ⟨ch, arr, rest, sl, -, hs, rfl⟩ |
    ⟨r, rest, i, -, -, hx⟩ := step_cases s t h
  · exact .inr ⟨sl', hm, rfl, .same⟩
  · rcases List.mem_append.mp hm with hm | hm
    · exact .inr ⟨sl', hm, rfl, .same⟩
    · exact .inl ⟨c, hc, List.mem_singleton.mp hm⟩
  · rcases List.mem_or_eq_of_mem_set hm with hm | rfl
    · exact .inr ⟨sl', hm, rfl, .same⟩
    · exact .inr ⟨sl, List.mem_of_getElem? hs, rfl, .same⟩
  · exact .inr (exec_mem_channels hx hm)

/-- No step changes a parameter (R6). -/
theorem step_build {s t : State} (h : step s = .next t) : t.build = s.build := by
  obtain ⟨-, rfl⟩ | ⟨c, rest, -, -, rfl⟩ | ⟨ch, arr, rest, sl, -, -, rfl⟩ |
    ⟨r, rest, i, -, -, hx⟩ := step_cases s t h
  · rfl
  · rfl
  · rfl
  · exact (exec_channels i (s.setPending rest) t hx).1

theorem UnitStep.sameConfig {p : Build} {c u : Channel} (h : UnitStep p c u) : SameConfig c u := by
  cases h with
  | same => exact ⟨rfl, rfl, rfl, rfl, rfl⟩
  | reset => exact ⟨rfl, rfl, rfl, rfl, rfl⟩
  | line _ hstep => exact (lineStep_frame _ _ _ _ hstep).1
  | bin _ hstep => exact (binStep_frame _ _ _ _ _ hstep).1

/-! ## The invariant -/

theorem UnitStep.inv {p : Build} (hp : p.Ok) {c u : Channel} (h : UnitStep p c u) (hi : c.Inv p) :
    u.Inv p := by
  cases h with
  | same => exact hi
  | reset => exact Channel.resetReader_inv p c hi
  | line hk hstep => exact (lineStep_inv p _ _ _ _ hk hstep hi).1
  | bin hk hstep => exact (binStep_inv p hp _ _ _ _ hk hstep hi).1

/-- A constructed channel meets the invariant (R240, R243). -/
theorem newSlot_inv {p : Build} {c : ChannelInput} (hc : ChannelInputOk p c) :
    (newSlot p c).Inv p := by
  have hline : (newSlot p c).unit.LineOk := ⟨hc.1.1, rfl, rfl⟩
  have hbin : (newSlot p c).unit.BinOk := .inl ⟨Nat.zero_le _, rfl, rfl⟩
  exact ⟨⟨hc, .nil, nofun, fun _ => hline, fun _ => hbin⟩, rfl⟩

/-- A property of a destination's bytes that holds of none written survives a fresh draw. -/
theorem DestTable.forall_forget {P : Memory → Prop} (hnil : P []) {t : DestTable}
    (h : ∀ p ∈ t, P p.2.bytes) (n : Nat) : ∀ p ∈ t.forget n, P p.2.bytes := by
  intro p hp
  rcases t.mem_forget n p hp with rfl | hp
  · exact hnil
  · exact h p hp

/-- A property of a destination's bytes that holds of none written and that writing `bs` keeps survives
a delivery of `bs`. -/
theorem DestTable.forall_deliver {P : Memory → Prop} (hnil : P []) {bs : List Byte}
    (hwrite : ∀ m, P m → P (m.writeAll 0 bs)) {t : DestTable} (h : ∀ p ∈ t, P p.2.bytes) (n : Nat) :
    ∀ p ∈ t.deliver n bs, P p.2.bytes := by
  intro p hp
  rcases t.mem_deliver n bs p hp with ⟨-, rfl⟩ | hp
  · refine hwrite _ ?_
    rcases t.get_mem n with hm | hb
    · exact h _ hm
    · rw [hb]
      exact hnil
  · exact h p hp

/-- The bytes of a `dSub` (R50): one value 0..9. -/
abbrev SubBytesOk (m : Memory) : Prop := m.below 1 ∧ ∀ q ∈ m, q.2.toNat ≤ 9

theorem subBytesOk_write {b : Byte} (hb : b.toNat ≤ 9) (m : Memory) (h : SubBytesOk m) :
    SubBytesOk (m.writeAll 0 [b]) := by
  refine ⟨Memory.below_writeAll [b] 1 m 0 h.1 le_rfl, fun q hq => ?_⟩
  rcases Table.mem_write m 0 b q hq with rfl | hq
  · exact hb
  · exact h.2 q hq

theorem Dests.unspecified_inv {d : Dests} (h : d.Inv) (dst : DestNames) : (d.unspecified dst).Inv := by
  obtain ⟨⟨htw, ht⟩, ⟨hsw, hs⟩, ⟨hpw, hp⟩⟩ := h
  exact ⟨⟨DestTable.wf_forget _ _ htw, DestTable.forall_forget (P := (·.below 2)) nofun ht _⟩,
    ⟨DestTable.wf_forget _ _ hsw, DestTable.forall_forget (P := SubBytesOk) ⟨nofun, nofun⟩ hs _⟩,
    ⟨DestTable.wf_forget _ _ hpw, DestTable.forall_forget (P := (·.below 9999)) nofun hp _⟩⟩

theorem Dests.deliver_inv {d : Dests} (h : d.Inv) (dst : DestNames) {m : Decoded}
    (hsub : m.sub.toNat ≤ 9) (hpay : m.pay.length ≤ 9999) : (d.deliver dst m).Inv := by
  obtain ⟨⟨htw, ht⟩, ⟨hsw, hs⟩, ⟨hpw, hp⟩⟩ := h
  refine ⟨⟨DestTable.wf_deliver d.tags dst.tag [m.tag.t0, m.tag.t1] htw, ?tags⟩,
    ⟨DestTable.wf_deliver d.subs dst.sub [m.sub] hsw, ?subs⟩,
    ⟨DestTable.wf_deliver d.pays dst.pay m.pay hpw, ?pays⟩⟩
  case tags =>
    exact DestTable.forall_deliver (P := (·.below 2)) nofun
      (fun b hb => Memory.below_writeAll [m.tag.t0, m.tag.t1] 2 b 0 hb le_rfl) ht dst.tag
  case subs =>
    exact DestTable.forall_deliver (P := SubBytesOk) ⟨nofun, nofun⟩ (subBytesOk_write hsub) hs dst.sub
  case pays =>
    exact DestTable.forall_deliver (P := (·.below 9999)) nofun
      (fun b hb => Memory.below_writeAll m.pay 9999 b 0 hb (by omega)) hp dst.pay

/-- The subcode of a valid message is one digit (R85). -/
theorem ValidMessage.sub_le {lowerOk : Bool} {m : List Byte} {d : Decoded}
    (h : ValidMessage lowerOk m d) : d.sub.toNat ≤ 9 := by
  obtain ⟨sub, -, -, -, -, -, -, hdig, hsub, -⟩ := h
  have hrange := (isDig_iff sub).mp hdig
  rw [hsub, BitVec.toNat_ofNat, digVal]
  omega

/-- An instruction keeps the destinations' form and sizes (R50). -/
theorem exec_dests_inv {i : Instr} {s t : State} (hd : s.dests.Inv) (h : exec i s = .next t) :
    t.dests.Inv := by
  cases i with
  | pollLine ch =>
    obtain ⟨sl, u, st, -, rfl, -⟩ := poll_frame _ s t ch (by simp) h
    exact hd
  | pollBin ch =>
    obtain ⟨sl, u, st, -, rfl, -⟩ := poll_frame _ s t ch (by simp) h
    exact hd
  | reset ch =>
    obtain ⟨sl, -, rfl⟩ := execReset_next _ _ _ h
    exact hd
  | data ch =>
    obtain ⟨sl, -, rfl⟩ := execData_next _ _ _ h
    exact hd
  | encodeLit ch tag sub pay len =>
    obtain ⟨sl, -, -, -, rfl⟩ := execEncodeLit_next _ _ _ _ _ _ _ h
    exact hd
  | encodeHex ch tag sub pay len =>
    obtain ⟨sl, -, -, -, rfl⟩ := execEncodeHex_next _ _ _ _ _ _ _ h
    exact hd
  | decode src srcLen dst =>
    obtain ⟨bs, -, ⟨-, hmax⟩, ⟨st, -, rfl⟩ | ⟨m, hok, rfl⟩⟩ := execDecode_next _ _ _ _ _ h
    · exact Dests.unspecified_inv hd _
    · obtain ⟨_, _, -, hv, hlen⟩ := parseMessage_inv hok
      exact Dests.deliver_inv hd _ hv.sub_le (by omega)

theorem step_dests_inv {s t : State} (hd : s.dests.Inv) (h : step s = .next t) : t.dests.Inv := by
  obtain ⟨-, rfl⟩ | ⟨c, rest, -, -, rfl⟩ | ⟨ch, arr, rest, sl, -, -, rfl⟩ |
    ⟨r, rest, i, -, -, hx⟩ := step_cases s t h
  · exact hd
  · exact hd
  · exact hd
  · exact exec_dests_inv (s := s.setPending rest) hd hx

/-- Settles O14: a constructed channel meets the invariant, a `UnitStep` keeps it, and so do a fresh
draw and a delivery. -/
theorem stepKeepsInvariant : Obligations.StepKeepsInvariant := by
  unfold Obligations.StepKeepsInvariant
  rintro s t ⟨hp, hch, hd⟩ h
  have hbuild := step_build h
  refine ⟨hbuild ▸ hp, fun sl' hm => ?_, step_dests_inv hd h⟩
  rw [hbuild]
  rcases step_mem_channels h hm with ⟨c, hc, rfl⟩ | ⟨sl, hsl, hbegins, hu⟩
  · exact newSlot_inv hc
  · obtain ⟨hunit, hone⟩ := hch sl hsl
    exact ⟨hu.inv hp hunit, hbegins.trans hone⟩

/-! ## The partial frame of a BIN channel -/

/-- Before the first header byte nothing is stored of the frame. -/
theorem Channel.frameSoFar_of_cursor_eq_zero {p : Build} {c : Channel} (h : c.cursor = 0) :
    c.FrameSoFar p :=
  ⟨fun _ => by omega, fun _ => by omega, fun _ => by omega⟩

section
variable {p : Build} {c : Channel} (hf : c.FrameSoFar p) (b : Byte)
include hf

theorem frameSoFar_header1 (hc : c.cursor = 1) (hC : 2 ≤ c.C) (hb : b = p.hdr1) :
    Channel.FrameSoFar p { c.put 1 b with cursor := 2 } := by
  obtain ⟨h0, -, -⟩ := hf
  obtain ⟨hstored, hother⟩ := storedAt_put c 1 b hC
  exact ⟨fun _ => (hother 0 (by decide)).trans (h0 (by omega)), fun _ => hb ▸ hstored,
    fun h3 => absurd h3 (by simp)⟩

theorem frameSoFar_length (hc : c.cursor = 2) (hC : 3 ≤ c.C) :
    Channel.FrameSoFar p { c.put 2 b with count := b, sum := b, cursor := 3 } := by
  obtain ⟨h0, h1, -⟩ := hf
  obtain ⟨hstored, hother⟩ := storedAt_put c 2 b hC
  exact ⟨fun _ => (hother 0 (by decide)).trans (h0 (by omega)),
    fun _ => (hother 1 (by decide)).trans (h1 (by omega)),
    fun _ => ⟨hstored, [], rfl, by simp [sumBytes], nofun⟩⟩

theorem frameSoFar_body (hc : 3 ≤ c.cursor) (hC : c.cursor < c.C) :
    Channel.FrameSoFar p
      { c.put c.cursor b with sum := addSum c.sum b, cursor := c.cursor + 1 } := by
  obtain ⟨h0, h1, h2⟩ := hf
  obtain ⟨hcount, body, hlen, hsum, hbody⟩ := h2 hc
  obtain ⟨hstored, hother⟩ := storedAt_put c c.cursor b hC
  refine ⟨fun _ => (hother 0 (by omega)).trans (h0 (by omega)),
    fun _ => (hother 1 (by omega)).trans (h1 (by omega)),
    fun _ => ⟨?_, body ++ [b], by simp; omega, ?_, fun k hk => ?_⟩⟩
  · rw [Channel.put_count]
    exact (hother 2 (by omega)).trans hcount
  · simp [addSum, hsum, sumBytes_append, sumBytes, BitVec.add_assoc]
  · by_cases hlast : k < body.length
    · rw [List.getElem?_append_left hlast]
      exact (hother (3 + k) (by omega)).trans (hbody k hlast)
    · obtain rfl : k = body.length := by simp at hk; omega
      rw [List.getElem?_concat_length, Nat.add_comm 3, hlen]
      exact hstored

/-- A step of the binary reader keeps the partial frame: it extends it by one byte, or ends in a reset
reader. -/
theorem binStep_frameSoFar {u : Channel} {st : Int} (hC : 2 ≤ c.C)
    (h : binStep p c b = .ok (u, st)) : u.FrameSoFar p := by
  rcases binStep_cases _ _ _ _ _ h with ⟨hc, h⟩ | ⟨hc, h⟩ | ⟨hc, h⟩ | ⟨hc, hlt, -, h⟩ | ⟨-, -, -, h⟩
  · unfold binHeader0 at h
    split at h <;> cases h
    · exact Channel.frameSoFar_of_cursor_eq_zero rfl
    · obtain ⟨hstored, -⟩ := storedAt_put c 0 b (by omega)
      have hb : b = p.hdr0 := not_not.mp ‹_›
      exact ⟨fun _ => hb ▸ hstored, fun h2 => absurd h2 (by simp), fun h3 => absurd h3 (by simp)⟩
  · unfold binHeader1 at h
    split at h <;> cases h
    · exact Channel.frameSoFar_of_cursor_eq_zero rfl
    · exact frameSoFar_header1 hf b hc hC (not_not.mp ‹_›)
  · unfold binLength at h
    split at h <;> cases h
    · exact Channel.frameSoFar_of_cursor_eq_zero rfl
    · exact frameSoFar_length hf b hc (by omega)
  · cases h
    exact frameSoFar_body hf b hc hlt
  · cases h
    exact Channel.frameSoFar_of_cursor_eq_zero rfl

end

theorem UnitStep.frameSoFar {p : Build} {c u : Channel} (h : UnitStep p c u) (hk : c.kind = .bin)
    (hC : 2 ≤ c.C) (hf : c.FrameSoFar p) : u.FrameSoFar p := by
  cases h with
  | same => exact hf
  | reset => exact Channel.frameSoFar_of_cursor_eq_zero rfl
  | line hline _ => cases hk.symm.trans hline
  | bin _ hstep => exact binStep_frameSoFar hf _ hC hstep

/-- Settles O15: a constructed channel stands at cursor 0, and a `UnitStep` keeps the partial frame. -/
theorem stepKeepsFrameSoFar : Obligations.StepKeepsFrameSoFar := by
  unfold Obligations.StepKeepsFrameSoFar
  intro s t _ hframe h sl' hm hk hC
  rw [step_build h]
  rcases step_mem_channels h hm with ⟨c, -, rfl⟩ | ⟨sl, hsl, -, hu⟩
  · exact Channel.frameSoFar_of_cursor_eq_zero rfl
  · obtain ⟨hkind, hcap, -⟩ := hu.sameConfig
    have hk : sl.unit.kind = .bin := hkind.symm.trans hk
    have hC : 2 ≤ sl.unit.C := hcap ▸ hC
    exact hu.frameSoFar hk hC (hframe sl hsl hk hC)

/-! ## No fault -/

theorem noFault_next (s : State) : NoFault (.next s) := nofun

theorem noFault_refused (r : Refusal) : NoFault (.refused r) := nofun

theorem noFault_ite {P : Prop} [Decidable P] {a b : Answer} (ha : P → NoFault a)
    (hb : ¬ P → NoFault b) : NoFault (if P then a else b) := by
  split
  · exact ha ‹_›
  · exact hb ‹_›

/-- A check that refuses leaves the fault to what follows it. -/
theorem noFault_check {P : Prop} [Decidable P] {r : Refusal} {a : Answer} (ha : NoFault a) :
    NoFault (if P then .refused r else a) :=
  noFault_ite (fun _ => noFault_refused r) fun _ => ha

theorem noFault_onChannel {s : State} {ch : Nat} {k : Slot → Answer}
    (hk : ∀ sl ∈ s.channels, NoFault (k sl)) : NoFault (onChannel ch s k) := by
  intro f hf
  obtain ⟨sl, hs, hf⟩ := onChannel_fault _ _ _ _ hf
  exact hk sl (List.mem_of_getElem? hs) f hf

theorem noFault_pollWith {reader : Channel → Byte → ReaderAnswer} {sl : Slot}
    (hr : ∀ b f, reader sl.unit b ≠ .error f) (ch : Nat) (s : State) :
    NoFault (pollWith reader ch sl s) := by
  intro f hf
  obtain ⟨b, -, herr⟩ := pollWith_fault _ _ _ _ _ hf
  exact hr b f herr

theorem noFault_execDecode (src : Source) (srcLen : Int) (dst : Destinations) (s : State) :
    NoFault (execDecode src srcLen dst s) := by
  unfold execDecode
  split
  · exact noFault_refused _
  · refine noFault_check ?_
    split
    · exact noFault_next _
    · exact noFault_next _

/-- Only the automata can fault, and on channels that meet the invariant they do not. -/
theorem exec_noFault (i : Instr) {s : State} (hs : s.Inv) : NoFault (exec i s) := by
  obtain ⟨-, hch, -⟩ := hs
  cases i with
  | pollLine ch =>
    refine noFault_onChannel fun sl hsl => ?_
    obtain ⟨⟨-, -, -, hline, -⟩, -⟩ := hch sl hsl
    exact noFault_ite (fun hk => noFault_pollWith (lineStep_ne_error _ (hline hk)) ch s)
      fun _ => noFault_refused _
  | pollBin ch =>
    refine noFault_onChannel fun sl hsl => ?_
    obtain ⟨⟨-, -, -, -, hbin⟩, -⟩ := hch sl hsl
    exact noFault_ite (fun hk => noFault_pollWith (binStep_ne_error _ _ (hbin hk)) ch s)
      fun _ => noFault_refused _
  | reset ch => exact noFault_onChannel fun sl _ => noFault_next _
  | data ch => exact noFault_onChannel fun sl _ => noFault_next _
  | encodeLit ch tag sub pay len =>
    exact noFault_onChannel fun sl _ => noFault_check <| noFault_check <| noFault_check <|
      noFault_check (noFault_next _)
  | encodeHex ch tag sub pay len =>
    exact noFault_onChannel fun sl _ => noFault_check <| noFault_check <| noFault_check <|
      noFault_check (noFault_next _)
  | decode src srcLen dst => exact noFault_execDecode src srcLen dst s

/-- Settles O16: a construction and a supply have no fault to raise, and no instruction has one. -/
theorem stepNeverFaults : Obligations.StepNeverFaults := by
  unfold Obligations.StepNeverFaults
  intro s hs
  cases hp : s.pending with
  | nil => exact step_idle s hp ▸ noFault_next s
  | cons x rest =>
    cases x with
    | construct c =>
      rw [step_construct s c rest hp]
      exact noFault_ite (fun _ => noFault_next _) fun _ => noFault_refused _
    | supply ch arr =>
      rw [step_supply s ch arr rest hp]
      exact noFault_onChannel fun sl _ => noFault_next _
    | issue r =>
      cases hf : fetch r s with
      | error e => exact step_issue_error s r rest e hp hf ▸ noFault_refused e
      | ok i =>
        rw [step_issue_ok s r rest i hp hf]
        exact exec_noFault i (s := s.setPending rest) hs

/-! ## What an instruction leaves as it was -/

/-- Settles O17: an instruction sets at most one slot, whose unit keeps its configuration. -/
theorem configurationIsReadOnly : Obligations.ConfigurationIsReadOnly := by
  unfold Obligations.ConfigurationIsReadOnly
  intro i s t h
  obtain ⟨hbuild, -, hch⟩ := exec_channels i s t h
  refine ⟨hbuild, ?_, fun ch sl hs => exec_sameConfig i s t ch sl h hs⟩
  rcases hch with heq | ⟨ch, sl, u, tr, -, hset, -⟩
  · rw [heq]
  · rw [hset, List.length_set]

/-- Settles O25: every POLL ends in `afterPoll`, which sets its channel's slot and adds a status. -/
theorem pollFrame : Obligations.PollFrame := by
  unfold Obligations.PollFrame
  intro i s t ch sl hi h hs
  obtain ⟨sl', u, st, hs', rfl, hcfg, hbuf, -⟩ := poll_frame i s t ch hi h
  obtain rfl : sl = sl' := Option.some.inj (hs.symm.trans hs')
  exact ⟨⟨rfl, rfl, rfl, List.length_set, fun n hn => List.getElem?_set_ne hn.symm⟩, ⟨st, rfl⟩,
    u, afterPoll_getElem_self s ch sl u st hs, hcfg, hbuf⟩

/-- A POLL that gets no byte keeps its channel's unit (R101). -/
theorem poll_unit_of_no_byte {i : Instr} {s t : State} {ch : Nat} {sl : Slot}
    (hi : i ∈ [Instr.pollLine ch, .pollBin ch]) (h : exec i s = .next t)
    (hs : s.channels[ch]? = some sl) (hb : sl.transport.arrivals.head?.join = none) :
    ∃ sl', t.channels[ch]? = some sl' ∧ sl'.unit = sl.unit := by
  obtain ⟨sl', reader, hs', -, hpoll⟩ := poll_next i s t ch hi h
  obtain rfl : sl = sl' := Option.some.inj (hs.symm.trans hs')
  rw [pollWith_none reader ch sl s hb] at hpoll
  cases hpoll
  exact ⟨_, State.setSlot_getElem_self s ch sl _ hs, rfl⟩

/-- Settles O42: RESET keeps the buffer, a POLL without a byte the unit, and any other instruction the
slot. -/
theorem bufferIsKeptUntilAByteIsConsumed : Obligations.BufferIsKeptUntilAByteIsConsumed := by
  unfold Obligations.BufferIsKeptUntilAByteIsConsumed
  intro i s t ch sl h hs hnone
  by_cases hpoll : i ∈ [Instr.pollLine ch, .pollBin ch]
  · obtain ⟨sl', hs', hu⟩ := poll_unit_of_no_byte hpoll h hs (hnone hpoll)
    exact ⟨sl', hs', congrArg Channel.buf hu⟩
  by_cases hreset : i = .reset ch
  · subst hreset
    cases (execReset_eq hs).symm.trans h
    exact ⟨_, State.setSlot_getElem_self s ch sl _ hs, rfl⟩
  · exact ⟨sl, (exec_channel_of_not_addressed i s t ch h hpoll hreset).trans hs, rfl⟩

/-! ## What a channel's outcome depends on -/

/-- A POLL's outcome on a unit, as a function of the unit and of what `InByte` returns (R101). -/
def pollOutcome (reader : Channel → Byte → ReaderAnswer) (c : Channel) :
    Option Byte → Option (Channel × Result)
  | none => some (c, .status 0)
  | some b =>
    match reader c b with
    | .ok (u, st) => some (u, .status st)
    | .error _ => none

/-- The unit of channel `ch` and the result after an instruction addressed to it, as a function of the
parameters, the unit and what `InByte` returns; DECODE is addressed to no channel. -/
def channelOutcome (p : Build) (ch : Nat) (c : Channel) (e : Option Byte) :
    Instr → Option (Channel × Result)
  | .pollLine _ => pollOutcome lineStep c e
  | .pollBin _ => pollOutcome (binStep p) c e
  | .reset _ => some (c.resetReader, .nothing)
  | .data _ => some (c, .bytes (c.bytes ch))
  | .encodeLit _ tag sub pay len => some (c, .message (litMessage tag sub pay len))
  | .encodeHex _ tag sub pay len => some (c, .message (hexMessage tag sub pay len))
  | .decode _ _ _ => none

/-- The state `t` has unit `u` at channel `ch`, and `r` behind the results of `s`. -/
abbrev HasOutcome (s t : State) (ch : Nat) (u : Channel) (r : Result) : Prop :=
  (t.channels[ch]?).map Slot.unit = some u ∧ t.results = s.results ++ [r]

/-- A POLL that answers a next state has `pollOutcome`. -/
theorem pollWith_outcome {reader : Channel → Byte → ReaderAnswer} {ch : Nat} {sl : Slot}
    {s t : State} (hs : s.channels[ch]? = some sl) (h : pollWith reader ch sl s = .next t) :
    ∃ u r, pollOutcome reader sl.unit sl.transport.arrivals.head?.join = some (u, r) ∧
      HasOutcome s t ch u r := by
  obtain ⟨u, st, hu, rfl⟩ := pollWith_next _ _ _ _ _ h
  refine ⟨u, .status st, ?_, congrArg _ (State.setSlot_getElem_self s ch sl _ hs), rfl⟩
  rcases hu with ⟨hn, rfl, rfl⟩ | ⟨b, hb, hstep⟩
  · rw [hn, pollOutcome]
  · simp only [hb, pollOutcome, hstep]

/-- An instruction on a channel that answers a next state has `channelOutcome`. -/
theorem exec_outcome {i : Instr} {s t : State} {ch : Nat} {sl : Slot} (hi : i.target = .channel ch)
    (hs : s.channels[ch]? = some sl) (h : exec i s = .next t) :
    ∃ u r, channelOutcome s.build ch sl.unit sl.transport.arrivals.head?.join i = some (u, r) ∧
      HasOutcome s t ch u r := by
  have hunit : (s.channels[ch]?).map Slot.unit = some sl.unit := congrArg _ hs
  cases i with
  | pollLine n =>
    cases hi
    obtain ⟨sl', hs', -, h⟩ := execPollLine_next _ _ _ h
    obtain rfl : sl = sl' := Option.some.inj (hs.symm.trans hs')
    exact pollWith_outcome hs h
  | pollBin n =>
    cases hi
    obtain ⟨sl', hs', -, h⟩ := execPollBin_next _ _ _ h
    obtain rfl : sl = sl' := Option.some.inj (hs.symm.trans hs')
    exact pollWith_outcome hs h
  | reset n =>
    cases hi
    cases (execReset_eq hs).symm.trans h
    exact ⟨_, _, rfl, congrArg _ (State.setSlot_getElem_self s ch sl _ hs), rfl⟩
  | data n =>
    cases hi
    cases (execData_eq hs).symm.trans h
    exact ⟨_, _, rfl, hunit, rfl⟩
  | encodeLit n tag sub pay len =>
    obtain ⟨-, -, -, -, rfl⟩ := execEncodeLit_next _ _ _ _ _ _ _ h
    exact ⟨_, _, rfl, hunit, rfl⟩
  | encodeHex n tag sub pay len =>
    obtain ⟨-, -, -, -, rfl⟩ := execEncodeHex_next _ _ _ _ _ _ _ h
    exact ⟨_, _, rfl, hunit, rfl⟩
  | decode src srcLen dst => cases hi

/-- An instruction addressed to a channel is neither a POLL nor a RESET of another. -/
theorem not_poll_not_reset_of_target {i : Instr} {ch n : Nat} (hi : i.target = .channel ch)
    (hn : n ≠ ch) : i ∉ [Instr.pollLine n, .pollBin n] ∧ i ≠ .reset n := by
  refine ⟨fun hp => ?_, ?_⟩
  · simp only [List.mem_cons, List.not_mem_nil, or_false] at hp
    rcases hp with rfl | rfl
    · exact hn (Target.channel.inj hi)
    · exact hn (Target.channel.inj hi)
  · rintro rfl
    exact hn (Target.channel.inj hi)

/-- Settles O19: the outcome is `channelOutcome`, which takes nothing but what the two states agree
on. That two DATA results agree on unwritten bytes is log entry 2's choice (`Config.bufByte`). -/
theorem channelsAreIndependent : Obligations.ChannelsAreIndependent := by
  unfold Obligations.ChannelsAreIndependent
  intro s s' t t' ch sl sl' i hi hs hs' hu hp harr h h'
  obtain ⟨u, r, hout, hunit, hres⟩ := exec_outcome hi hs h
  obtain ⟨u', r', hout', hunit', hres'⟩ := exec_outcome hi hs' h'
  rw [hu, hp, harr, hout'] at hout
  cases hout
  refine ⟨hunit.trans hunit'.symm, ⟨r, hres, hres'⟩, fun n hn => ?_⟩
  obtain ⟨hpoll, hreset⟩ := not_poll_not_reset_of_target hi hn
  exact exec_channel_of_not_addressed i s t n h hpoll hreset

end Sys2Proof.Machine

/-!
PROOF. POLL.BIN over a whole frame (41_binary_frame_reader R129, R133, R134) and on a channel without a
slot for the second header byte (log entry 7): a byte that advances the cursor was stored under it, so a
reader that took as many bytes as its cursor advanced holds them all.
-/

namespace Sys2Proof.Machine

/-! ## C = 1 -/

/-- Settles O33: index 1 is outside the buffer, so nothing is stored there, and no count is within
C - 5. That the reader goes on to the count byte is log entry 7's choice. -/
theorem binHeader1WithoutASlot : Obligations.BinHeader1WithoutASlot := by
  unfold Obligations.BinHeader1WithoutASlot
  intro s ch sl b hr hC
  refine ⟨fun hc hb => ?header1, fun hc => ?count⟩
  case header1 =>
    have hbuf : (sl.unit.put 1 b).buf = sl.unit.buf := by rw [Channel.put_buf, if_neg (by omega)]
    exact ⟨_, exec_pollBin_of_binStep hr (binStep_header1_accept hc hb), sameConfig_put _ 1 b, hbuf,
      rfl, Channel.put_count _ _ _, Channel.put_sum _ _ _⟩
  case count =>
    exact ⟨_, exec_pollBin_of_binStep hr (binStep_length_reject hc (by omega)),
      resetReader_effect _⟩

/-! ## The statuses -/

/-- The statuses of R134 that end no frame: 0 and the three codes. -/
abbrev IsBinCodeStatus (p : Build) (st : Int) : Prop :=
  st ∈ [0, p.binErrHdr0, p.binErrHdr1, p.binErrCount]

/-- The statuses of R134 that end a frame: +n and -n for 4 ≤ n ≤ C - 1. -/
abbrev IsBinFrameStatus (C : Nat) (st : Int) : Prop :=
  (4 ≤ st ∧ st ≤ (C : Int) - 1) ∨ (4 ≤ -st ∧ -st ≤ (C : Int) - 1)

/-- The binary reader's statuses on a channel that meets R31's bounds (R134). -/
theorem binStep_status {p : Build} {c u : Channel} {b : Byte} {st : Int} (hi : c.BinOk)
    (h : binStep p c b = .ok (u, st)) :
    IsBinCodeStatus p st ∨ (5 ≤ c.C ∧ IsBinFrameStatus c.C st) := by
  rcases binStep_cases _ _ _ _ _ h with ⟨-, h⟩ | ⟨-, h⟩ | ⟨-, h⟩ | ⟨-, -, -, h⟩ | ⟨h3, hlt, -, h⟩
  · unfold binHeader0 at h
    split at h <;> cases h <;> exact .inl (by simp)
  · unfold binHeader1 at h
    split at h <;> cases h <;> exact .inl (by simp)
  · unfold binLength at h
    split at h <;> cases h <;> exact .inl (by simp)
  · cases h
    exact .inl (by simp)
  · cases h
    obtain ⟨-, -, hcount⟩ := hi.resolve_left (by omega)
    refine .inr ⟨by omega, ?_⟩
    split <;> omega

/-- Settles O37: the automaton's statuses, and 0 where there is no byte; a checksum byte needs C ≥ 5. -/
theorem binStatuses : Obligations.BinStatuses := by
  unfold Obligations.BinStatuses
  intro s t ch sl st hs hi h hres
  obtain ⟨sl', hs', hk, hpoll⟩ := execPollBin_next _ _ _ h
  obtain rfl : sl = sl' := Option.some.inj (hs.symm.trans hs')
  obtain ⟨-, -, -, -, hbin⟩ := hi
  obtain ⟨u, st', hu, rfl⟩ := pollWith_next _ _ _ _ _ hpoll
  obtain rfl : st' = st := by simpa using hres
  have hst : IsBinCodeStatus s.build st' ∨ (5 ≤ sl.unit.C ∧ IsBinFrameStatus sl.unit.C st') := by
    rcases hu with ⟨-, -, rfl⟩ | ⟨b, -, hstep⟩
    · exact .inl (by simp)
    · exact binStep_status (hbin hk) hstep
  rcases hst with hcode | ⟨hC, hframe⟩
  · exact ⟨.inl hcode, fun _ => hcode⟩
  · exact ⟨.inr hframe, fun hlt => absurd hC (by omega)⟩

/-! ## The bytes of a frame in the buffer -/

/-- A byte advances the cursor by at most one, and where it does it was stored under it. -/
theorem binStep_advances {p : Build} {c u : Channel} {b : Byte} {st : Int}
    (h : binStep p c b = .ok (u, st)) :
    u.cursor ≤ c.cursor + 1 ∧ (u.cursor = c.cursor + 1 → c.cursor < c.C →
      StoredAt c u c.cursor b) := by
  rcases binStep_cases _ _ _ _ _ h with ⟨hc, h⟩ | ⟨hc, h⟩ | ⟨hc, h⟩ | ⟨-, -, -, h⟩ | ⟨-, -, -, h⟩
  · unfold binHeader0 at h
    split at h <;> cases h
    · exact ⟨by simp, by simp⟩
    · exact ⟨by simp, fun _ hC => hc ▸ storedAt_put c c.cursor b hC⟩
  · unfold binHeader1 at h
    split at h <;> cases h
    · exact ⟨by simp, by simp⟩
    · exact ⟨by simp [hc], fun _ hC => hc ▸ storedAt_put c c.cursor b hC⟩
  · unfold binLength at h
    split at h <;> cases h
    · exact ⟨by simp, by simp⟩
    · exact ⟨by simp [hc], fun _ hC => hc ▸ storedAt_put c c.cursor b hC⟩
  · cases h
    exact ⟨le_rfl, fun _ hC => storedAt_put c c.cursor b hC⟩
  · cases h
    exact ⟨by simp, by simp⟩

theorem takes_cursor_le {p : Build} {bs : List Byte} {c d : Channel}
    (h : Takes (binStep p) c bs d) : d.cursor ≤ c.cursor + bs.length := by
  induction bs generalizing c with
  | nil =>
    obtain rfl : d = c := h
    exact le_rfl
  | cons b bs ih =>
    obtain ⟨u, hstep, htakes⟩ := h
    have hrest := ih htakes
    have hfirst := (binStep_advances hstep).1
    rw [List.length_cons]
    omega

/-- Where the cursor advanced with every byte taken, each byte stands at its index, and the bytes before
them are as they were. -/
theorem takes_stored {p : Build} {bs : List Byte} {c d : Channel} (h : Takes (binStep p) c bs d)
    (hcur : d.cursor = c.cursor + bs.length) (hC : d.cursor ≤ c.C) :
    (∀ k < c.cursor, d.buf.find k = c.buf.find k) ∧
      ∀ i < bs.length, d.buf.find (c.cursor + i) = bs[i]? := by
  induction bs generalizing c with
  | nil =>
    obtain rfl : d = c := h
    exact ⟨fun _ _ => rfl, nofun⟩
  | cons b bs ih =>
    obtain ⟨u, hstep, htakes⟩ := h
    rw [List.length_cons] at hcur
    have hrest := takes_cursor_le htakes
    obtain ⟨hle, hstore⟩ := binStep_advances hstep
    have hu : u.cursor = c.cursor + 1 := by omega
    obtain ⟨hhere, hother⟩ := hstore hu (by omega)
    obtain ⟨-, hcap, -⟩ := (binStep_frame _ _ _ _ _ hstep).1
    obtain ⟨hbefore, hafter⟩ := ih htakes (by omega) (by omega)
    refine ⟨fun k hk => (hbefore k (by omega)).trans (hother k (by omega)), fun i hi => ?_⟩
    cases i with
    | zero => exact (hbefore c.cursor (by omega)).trans hhere
    | succ i =>
      rw [List.getElem?_cons_succ, show c.cursor + (i + 1) = u.cursor + i by omega]
      exact hafter i (by simpa using hi)

/-- Settles O38: the reader reaches the checksum byte with the rest of the frame in its buffer, and
there the byte is the running sum. -/
theorem validBinaryFrameIsDelivered : Obligations.ValidBinaryFrameIsDelivered := by
  unfold Obligations.ValidBinaryFrameIsDelivered
  rintro s ch sl n last body _ early rest hs hk hc hlen hn rfl harr hbytes
  obtain ⟨hearly, hlast⟩ := List.append_inj' hbytes rfl
  obtain rfl : last = n + sumBytes body := List.singleton_injective hlast
  obtain ⟨t, d, tr, hrun, hres, hslot, hdk, hrest, htakes, hC, hcur, hcnt, hsum⟩ :=
    runOps_pollBin_to_checksum hs hk hc hlen hn harr hearly
  obtain ⟨u, st, hnext, hmatch, -, -, ⟨hhere, hother⟩, hfields⟩ :=
    binChecksumDecides t ch ⟨d, tr⟩ (n + sumBytes body) ⟨hslot, hdk, by simp [hrest]⟩
      (by simp only [hcur, hcnt]) (by simp only [hcur, hC]; omega)
  obtain rfl : st = 4 + (n.toNat : Int) := by
    rw [← hcnt]
    exact hmatch hsum.symm
  rw [hearly] at htakes
  have hflen : (s.build.hdr0 :: s.build.hdr1 :: n :: body).length = 3 + n.toNat := by
    simp only [List.length_cons]
    omega
  obtain ⟨-, hstored⟩ := takes_stored htakes (by omega) (by omega)
  refine ⟨_, _, runOps_replicate_succ hrun hnext, by simp only [hres],
    afterPoll_getElem_self t ch _ u _ hslot, by simp [hrest], fun i hi => ?_, hfields⟩
  by_cases hbefore : i < 3 + n.toNat
  · rw [List.getElem?_append_left (by omega), ← hstored i (by omega), hc, Nat.zero_add]
    exact hother i (by simp only [hcur]; omega)
  · obtain rfl : i = 3 + n.toNat := by omega
    rw [← hflen, List.getElem?_concat_length, hflen, ← hcur]
    exact hhere

end Sys2Proof.Machine
